-- ==== Sys2Proof/Word.lean ====
section
/-! DEFINITION. The word types of the block (00_scope.md R8, R10). -/

namespace Sys2Proof

/-- One byte of SRC, OUT or TREE (20_memory.md R60). -/
abbrev Byte := BitVec 8

/-- One host-visible register, `XLEN_REG` = 32 bits (00_scope.md R8). -/
abbrev Word := BitVec 32

end Sys2Proof
end

