-- ==== Sys2Proof/Config.lean ====
section
/-! DEFINITION. What an implementation fixes, and the free values (93_implementation_defined.md). -/

namespace Sys2Proof.Config

/-- DESIGN CHOICE (log entry 2): the parameter `MAX_SRC` of `State.reset`, the largest value of R8.
Every other statement reads the parameter from the state, so it holds for every value. -/
def maxSrc : Word := 0xFFFFFFFF#32

/-- DESIGN CHOICE (log entry 2): the parameter `OUT_CAP` of `State.reset`, the largest value of R8;
with it CAPACITY never occurs (R9). -/
def outCap : BitVec 24 := 0xFFFFFF#24

/-- `TREE_BYTES` of R8. -/
def treeBytes : Nat := 512

/-- `DISP_MAX` of R8. -/
def dispMax : Nat := 4096

/-- `DIFF_TYPE` of R8, the type nibble of the Diff header (R87). -/
def diffType : BitVec 4 := 0x8#4

/-- Free value (R33, R250): the byte of SRC of instance `inst` at an address that nothing has written since
draw `n`. The instance is an argument of every free value, so that the unspecified values of two instances
are unrelated (R79, R238, log entry 15). -/
opaque srcByte (inst n addr : Nat) : Byte

/-- Free value (R35, R228, R250, R252): the byte of OUT of instance `inst` at an address that nothing has
written since draw `n`; a reset and a failed job each start a new draw. -/
opaque outByte (inst n addr : Nat) : Byte

/-- Free value (R34, R250): the byte of TREE of instance `inst` at an address that nothing has loaded since
draw `n`. -/
opaque treeByte (inst n addr : Nat) : Byte

/-- Free value (R43, R258): what the `n`-th unspecified read of instance `inst` while busy returns. -/
opaque busyWord (inst n : Nat) : Word

end Sys2Proof.Config
end

