-- ==== Sys2Proof/Syntax.lean ====
section
/-! DEFINITION. The stream elements and commands of the block, one constructor for each row of the
opcode table (30_encoding.md), and the slots of the stream grammar (R104). -/

namespace Sys2Proof

/-- The byte order of multi-byte reads (10_state.md R27, 20_memory.md R63). -/
inductive ByteOrder
  | big
  | little
deriving DecidableEq, Repr

/-- The five codecs that CTRL.CODEC names (10_state.md R22); 5, 6 and 7 are reserved. -/
inductive Codec
  | lzss
  | lzx
  | huff
  | rl
  | diff
deriving DecidableEq, Repr

/-- The instructions: host commands (R81), headers (R82 to R87) and stream elements (R88 to R97).
`entry` and `ie` are the ENTRY and IE bits of a command; `len` is the declared length `L`. -/
inductive Instr
  /-- START.LZSS, R119 -/
  | startLzss (entry ie : Bool)
  /-- START.LZX, R120 -/
  | startLzx (entry ie : Bool)
  /-- START.HUFF, R121 -/
  | startHuff (entry ie : Bool)
  /-- START.RL, R122 -/
  | startRl (entry ie : Bool)
  /-- START.DIFF, R123 -/
  | startDiff (entry ie : Bool)
  /-- START.RSVD with CODEC = 5, R124 -/
  | startRsvd5 (entry ie : Bool)
  /-- START.RSVD with CODEC = 6, R124 -/
  | startRsvd6 (entry ie : Bool)
  /-- START.RSVD with CODEC = 7, R124 -/
  | startRsvd7 (entry ie : Bool)
  /-- HDR.LZSS, R83, R130 -/
  | hdrLzss (len : BitVec 24)
  /-- HDR.LZX, R84, R131 -/
  | hdrLzx (len : BitVec 24)
  /-- HDR.HUFF, R85, R160, R161: any depth nibble; an illegal one raises DEPTH when it runs -/
  | hdrHuff (depth : BitVec 4) (len : BitVec 24)
  /-- HDR.RL, R86, R190 -/
  | hdrRl (len : BitVec 24)
  /-- HDR.DIFF8, R87, R200 -/
  | hdrDiff8 (len : BitVec 24)
  /-- HDR.DIFF16, R87, R200 -/
  | hdrDiff16 (len : BitVec 24)
  /-- LZ.FLAGS, R88, R133 -/
  | lzFlags (f : Byte)
  /-- LZSS.LIT, R89, R134 -/
  | lzssLit (b : Byte)
  /-- LZX.LIT, R89, R135 -/
  | lzxLit (b : Byte)
  /-- LZSS.REF, R90, R136: the stored count and displacement fields -/
  | lzssRef (c : BitVec 4) (d : BitVec 12)
  /-- LZX.REF0, R91, R138 -/
  | lzxRef0 (c : BitVec 8) (d : BitVec 12)
  /-- LZX.REF1, R91, R139 -/
  | lzxRef1 (c : BitVec 16) (d : BitVec 12)
  /-- LZX.REFS, R91, R140: the indicator, 2 to 15, is the count field -/
  | lzxRefs (ind : BitVec 4) (d : BitVec 12)
  /-- RL.COPY, R92, R191: the flag byte; its data bytes follow in SRC -/
  | rlCopy (n : BitVec 7)
  /-- RL.FILL, R92, R192: the flag byte; its data byte follows in SRC -/
  | rlFill (n : BitVec 7)
  /-- HUFF.TREE, R93, R163: the TSIZE byte; the other tree bytes follow in SRC -/
  | huffTree (n : Byte)
  /-- HUFF.PATH, R96, R164 -/
  | huffPath (p : Word)
  /-- HUFF.LEFT, R165: a path bit 0 -/
  | huffLeft
  /-- HUFF.RIGHT, R166: a path bit 1 -/
  | huffRight
  /-- HUFF.LEAF, R95, R167: the tree byte reached -/
  | huffLeaf (b : Byte)
  /-- DIFF8.DELTA, R97, R201 -/
  | diff8Delta (d : Byte)
  /-- DIFF16.DELTA, R97, R202 -/
  | diff16Delta (d : BitVec 16)
deriving DecidableEq, Repr

/-- The places of the grammar of R104 at which an element is read. "A stream element's meaning depends
on the codec of the job and on its position in the stream" (30_encoding.md), so a slot is an argument
of the decoder. `ext` tells LZX (true) from LZSS (false). -/
inductive Slot
  /-- the value of a host write to CTRL (R81) -/
  | cmd
  /-- the header of a codec's stream (R82) -/
  | hdr (c : Codec)
  /-- an LZ flag byte (R88) -/
  | lzFlag
  /-- an LZ block selected by a 0 flag bit (R89) -/
  | lzLit (ext : Bool)
  /-- an LZ block selected by a 1 flag bit (R90, R91) -/
  | lzRef (ext : Bool)
  /-- an RL flag byte (R92) -/
  | rlRun
  /-- the tree-size byte (R93) -/
  | hufTree
  /-- a path word (R96) -/
  | hufPath
  /-- one bit of the current path word (R96) -/
  | hufBit
  /-- the tree byte a set leaf flag points to (R95) -/
  | hufLeaf
  /-- an 8-bit delta (R97) -/
  | delta8
  /-- a 16-bit delta (R97) -/
  | delta16
deriving DecidableEq, Repr

end Sys2Proof
end

