-- ==== Sys2Proof/WellFormed.lean ====
section
/-! DEFINITION. Which terms of `Instr` stand for an encodable element. -/

namespace Sys2Proof

/-- Every field of every element takes every value of its width, but for the LZX short form, whose
indicator is 2 to 15 because 0 and 1 select the long forms (30_encoding.md R91, R140). -/
def Instr.wf : Instr → Bool
  | .startLzss _ _ => true
  | .startLzx _ _ => true
  | .startHuff _ _ => true
  | .startRl _ _ => true
  | .startDiff _ _ => true
  | .startRsvd5 _ _ => true
  | .startRsvd6 _ _ => true
  | .startRsvd7 _ _ => true
  | .hdrLzss _ => true
  | .hdrLzx _ => true
  | .hdrHuff _ _ => true
  | .hdrRl _ => true
  | .hdrDiff8 _ => true
  | .hdrDiff16 _ => true
  | .lzFlags _ => true
  | .lzssLit _ => true
  | .lzxLit _ => true
  | .lzssRef _ _ => true
  | .lzxRef0 _ _ => true
  | .lzxRef1 _ _ => true
  | .lzxRefs ind _ => decide (2 ≤ ind.toNat)
  | .rlCopy _ => true
  | .rlFill _ => true
  | .huffTree _ => true
  | .huffPath _ => true
  | .huffLeft => true
  | .huffRight => true
  | .huffLeaf _ => true
  | .diff8Delta _ => true
  | .diff16Delta _ => true

end Sys2Proof
end

