-- ==== Sys2Proof/Decode.lean ====
section
/-! DEFINITION. The decoder and the encoder (30_encoding.md). The decoder is total on every slot and
every list of bytes and rejects by name. -/

namespace Sys2Proof

/-- Why bytes are no element of a slot. -/
inductive Reject
  /-- the bytes end inside the element: the access that begins `k` bytes into it does not fit (R61) -/
  | short (k : Nat)
  /-- the header's type discriminant does not match the codec (R82, R100) -/
  | typeMismatch
  /-- the Diff data-size mode is not 1 or 2 (R87, R100) -/
  | badMode
  /-- a CTRL value with START = 0 is no command (R81) -/
  | notStart
  /-- a path bit is 0 or 1 (R96) -/
  | notABit
deriving DecidableEq, Repr

/-- The codec CTRL.CODEC names (10_state.md R22, 41_job_control.md R111); 5, 6 and 7 name none. -/
def Codec.ofBits (v : BitVec 3) : Option Codec :=
  if v = 0#3 then some .lzss
  else if v = 1#3 then some .lzx
  else if v = 2#3 then some .huff
  else if v = 3#3 then some .rl
  else if v = 4#3 then some .diff
  else none

/-- The CTRL.CODEC value of a codec (R22). -/
def Codec.bits : Codec → BitVec 3
  | .lzss => 0#3
  | .lzx => 1#3
  | .huff => 2#3
  | .rl => 3#3
  | .diff => 4#3

/-- Two bytes assembled in a byte order (20_memory.md R63). -/
def assemble16 (o : ByteOrder) (b0 b1 : Byte) : BitVec 16 :=
  match o with
  | .big => b0 ++ b1
  | .little => b1 ++ b0

/-- Four bytes assembled in a byte order (20_memory.md R63). -/
def assemble32 (o : ByteOrder) (b0 b1 b2 b3 : Byte) : Word :=
  match o with
  | .big => b0 ++ b1 ++ b2 ++ b3
  | .little => b3 ++ b2 ++ b1 ++ b0

/-- A command word (R81): bit 0 START, bits 3:1 CODEC, bit 4 ENTRY, bit 5 IE, bits 31:6 ignored. -/
def decodeCmd (v : Word) : Except Reject Instr :=
  if v.getLsbD 0 then
    let entry := v.getLsbD 4
    let ie := v.getLsbD 5
    match Codec.ofBits (v.extractLsb' 1 3) with
    | some .lzss => .ok (.startLzss entry ie)
    | some .lzx => .ok (.startLzx entry ie)
    | some .huff => .ok (.startHuff entry ie)
    | some .rl => .ok (.startRl entry ie)
    | some .diff => .ok (.startDiff entry ie)
    | none =>
      if v.extractLsb' 1 3 = 5#3 then .ok (.startRsvd5 entry ie)
      else if v.extractLsb' 1 3 = 6#3 then .ok (.startRsvd6 entry ie)
      else .ok (.startRsvd7 entry ie)
  else .error .notStart

/-- A header word under a codec (R82): the type check first, then the Diff mode. -/
def decodeHeader (c : Codec) (W : Word) : Except Reject Instr :=
  match c with
  | .lzss =>
    if W.extractLsb' 24 8 = 0x10#8 then .ok (.hdrLzss (W.extractLsb' 0 24)) else .error .typeMismatch
  | .lzx =>
    if W.extractLsb' 24 8 = 0x11#8 then .ok (.hdrLzx (W.extractLsb' 0 24)) else .error .typeMismatch
  | .huff =>
    if W.extractLsb' 28 4 = 0x2#4 then .ok (.hdrHuff (W.extractLsb' 24 4) (W.extractLsb' 0 24))
    else .error .typeMismatch
  | .rl =>
    if W.extractLsb' 24 8 = 0x30#8 then .ok (.hdrRl (W.extractLsb' 0 24)) else .error .typeMismatch
  | .diff =>
    if W.extractLsb' 4 4 = Config.diffType then
      if W.extractLsb' 0 4 = 1#4 then .ok (.hdrDiff8 (W.extractLsb' 8 24))
      else if W.extractLsb' 0 4 = 2#4 then .ok (.hdrDiff16 (W.extractLsb' 8 24))
      else .error .badMode
    else .error .typeMismatch

/-- The low nibble of one byte before the whole of the next: the 12-bit displacement field of R90, R91. -/
def dispField (hi lo : Byte) : BitVec 12 := hi.extractLsb' 0 4 ++ lo

/-- An LZSS back-reference (R90), its bytes read one at a time (R132). -/
def decodeLzssRef : List Byte → Except Reject Instr
  | [] => .error (.short 0)
  | [_] => .error (.short 1)
  | b0 :: b1 :: _ => .ok (.lzssRef (b0.extractLsb' 4 4) (dispField b0 b1))

/-- An LZX back-reference (R91): the indicator nibble of the first byte selects the form. -/
def decodeLzxRef : List Byte → Except Reject Instr
  | [] => .error (.short 0)
  | b0 :: r =>
    if b0.extractLsb' 4 4 = 0#4 then
      match r with
      | [] => .error (.short 1)
      | [_] => .error (.short 2)
      | b1 :: b2 :: _ => .ok (.lzxRef0 (b0.extractLsb' 0 4 ++ b1.extractLsb' 4 4) (dispField b1 b2))
    else if b0.extractLsb' 4 4 = 1#4 then
      match r with
      | [] => .error (.short 1)
      | [_] => .error (.short 2)
      | [_, _] => .error (.short 3)
      | b1 :: b2 :: b3 :: _ =>
        .ok (.lzxRef1 (b0.extractLsb' 0 4 ++ b1 ++ b2.extractLsb' 4 4) (dispField b2 b3))
    else
      match r with
      | [] => .error (.short 1)
      | b1 :: _ => .ok (.lzxRefs (b0.extractLsb' 4 4) (dispField b0 b1))

/-- An RL flag byte (R92): bit 7 selects the kind. -/
def decodeRun (f : Byte) : Instr :=
  if f.getLsbD 7 then .rlFill (f.extractLsb' 0 7) else .rlCopy (f.extractLsb' 0 7)

/-- The first element of a slot in a list of bytes, in the job's byte order (R104). -/
def decode (slot : Slot) (o : ByteOrder) (bs : List Byte) : Except Reject Instr :=
  match slot with
  | .cmd =>
    match bs with
    | b0 :: b1 :: b2 :: b3 :: _ => decodeCmd (assemble32 .big b0 b1 b2 b3)
    | _ => .error (.short 0)
  | .hdr c =>
    match bs with
    | b0 :: b1 :: b2 :: b3 :: _ => decodeHeader c (assemble32 o b0 b1 b2 b3)
    | _ => .error (.short 0)
  | .lzFlag =>
    match bs with
    | b :: _ => .ok (.lzFlags b)
    | [] => .error (.short 0)
  | .lzLit ext =>
    match bs with
    | b :: _ => .ok (if ext then .lzxLit b else .lzssLit b)
    | [] => .error (.short 0)
  | .lzRef ext => if ext then decodeLzxRef bs else decodeLzssRef bs
  | .rlRun =>
    match bs with
    | b :: _ => .ok (decodeRun b)
    | [] => .error (.short 0)
  | .hufTree =>
    match bs with
    | b :: _ => .ok (.huffTree b)
    | [] => .error (.short 0)
  | .hufPath =>
    match bs with
    | b0 :: b1 :: b2 :: b3 :: _ => .ok (.huffPath (assemble32 o b0 b1 b2 b3))
    | _ => .error (.short 0)
  | .hufBit =>
    match bs with
    | b :: _ =>
      if b = 0#8 then .ok .huffLeft else if b = 1#8 then .ok .huffRight else .error .notABit
    | [] => .error (.short 0)
  | .hufLeaf =>
    match bs with
    | b :: _ => .ok (.huffLeaf b)
    | [] => .error (.short 0)
  | .delta8 =>
    match bs with
    | b :: _ => .ok (.diff8Delta b)
    | [] => .error (.short 0)
  | .delta16 =>
    match bs with
    | b0 :: b1 :: _ => .ok (.diff16Delta (assemble16 o b0 b1))
    | _ => .error (.short 0)

/-! ### The encoder -/

/-- The slot in which an element stands. -/
def Instr.slot : Instr → Slot
  | .startLzss _ _ => .cmd
  | .startLzx _ _ => .cmd
  | .startHuff _ _ => .cmd
  | .startRl _ _ => .cmd
  | .startDiff _ _ => .cmd
  | .startRsvd5 _ _ => .cmd
  | .startRsvd6 _ _ => .cmd
  | .startRsvd7 _ _ => .cmd
  | .hdrLzss _ => .hdr .lzss
  | .hdrLzx _ => .hdr .lzx
  | .hdrHuff _ _ => .hdr .huff
  | .hdrRl _ => .hdr .rl
  | .hdrDiff8 _ => .hdr .diff
  | .hdrDiff16 _ => .hdr .diff
  | .lzFlags _ => .lzFlag
  | .lzssLit _ => .lzLit false
  | .lzxLit _ => .lzLit true
  | .lzssRef _ _ => .lzRef false
  | .lzxRef0 _ _ => .lzRef true
  | .lzxRef1 _ _ => .lzRef true
  | .lzxRefs _ _ => .lzRef true
  | .rlCopy _ => .rlRun
  | .rlFill _ => .rlRun
  | .huffTree _ => .hufTree
  | .huffPath _ => .hufPath
  | .huffLeft => .hufBit
  | .huffRight => .hufBit
  | .huffLeaf _ => .hufLeaf
  | .diff8Delta _ => .delta8
  | .diff16Delta _ => .delta16

/-- The command word of a codec field, with the ignored bits 31:6 zero (R81). -/
def cmdWord (codec : BitVec 3) (entry ie : Bool) : Word :=
  0#26 ++ (BitVec.ofBool ie ++ (BitVec.ofBool entry ++ (codec ++ 1#1)))

/-- The bytes of a 16-bit value in a byte order (R63). -/
def bytes16 (o : ByteOrder) (v : BitVec 16) : List Byte :=
  match o with
  | .big => [v.extractLsb' 8 8, v.extractLsb' 0 8]
  | .little => [v.extractLsb' 0 8, v.extractLsb' 8 8]

/-- The bytes of a 32-bit value in a byte order (R63). -/
def bytes32 (o : ByteOrder) (v : Word) : List Byte :=
  match o with
  | .big => [v.extractLsb' 24 8, v.extractLsb' 16 8, v.extractLsb' 8 8, v.extractLsb' 0 8]
  | .little => [v.extractLsb' 0 8, v.extractLsb' 8 8, v.extractLsb' 16 8, v.extractLsb' 24 8]

/-- The header word of a type byte (R83, R84, R86). -/
def typedHeader (t : Byte) (len : BitVec 24) : Word := t ++ len

/-- The HUFF header word (R85). -/
def huffHeader (depth : BitVec 4) (len : BitVec 24) : Word := 0x2#4 ++ (depth ++ len)

/-- The DIFF header word (R87). -/
def diffHeader (mode : BitVec 4) (len : BitVec 24) : Word := len ++ (Config.diffType ++ mode)

/-- The bytes of an element, first byte first, multi-byte fields in the given order (R81 to R97). A
path bit is written as the byte 0 or 1, a command word most significant byte first. -/
def encode (o : ByteOrder) : Instr → List Byte
  | .startLzss e i => bytes32 .big (cmdWord 0#3 e i)
  | .startLzx e i => bytes32 .big (cmdWord 1#3 e i)
  | .startHuff e i => bytes32 .big (cmdWord 2#3 e i)
  | .startRl e i => bytes32 .big (cmdWord 3#3 e i)
  | .startDiff e i => bytes32 .big (cmdWord 4#3 e i)
  | .startRsvd5 e i => bytes32 .big (cmdWord 5#3 e i)
  | .startRsvd6 e i => bytes32 .big (cmdWord 6#3 e i)
  | .startRsvd7 e i => bytes32 .big (cmdWord 7#3 e i)
  | .hdrLzss len => bytes32 o (typedHeader 0x10#8 len)
  | .hdrLzx len => bytes32 o (typedHeader 0x11#8 len)
  | .hdrHuff depth len => bytes32 o (huffHeader depth len)
  | .hdrRl len => bytes32 o (typedHeader 0x30#8 len)
  | .hdrDiff8 len => bytes32 o (diffHeader 1#4 len)
  | .hdrDiff16 len => bytes32 o (diffHeader 2#4 len)
  | .lzFlags f => [f]
  | .lzssLit b => [b]
  | .lzxLit b => [b]
  | .lzssRef c d => [c ++ d.extractLsb' 8 4, d.extractLsb' 0 8]
  | .lzxRef0 c d => [0#4 ++ c.extractLsb' 4 4, c.extractLsb' 0 4 ++ d.extractLsb' 8 4, d.extractLsb' 0 8]
  | .lzxRef1 c d =>
    [1#4 ++ c.extractLsb' 12 4, c.extractLsb' 4 8, c.extractLsb' 0 4 ++ d.extractLsb' 8 4,
      d.extractLsb' 0 8]
  | .lzxRefs ind d => [ind ++ d.extractLsb' 8 4, d.extractLsb' 0 8]
  | .rlCopy n => [0#1 ++ n]
  | .rlFill n => [1#1 ++ n]
  | .huffTree n => [n]
  | .huffPath p => bytes32 o p
  | .huffLeft => [0#8]
  | .huffRight => [1#8]
  | .huffLeaf b => [b]
  | .diff8Delta d => [d]
  | .diff16Delta d => bytes16 o d

/-! ### The opcode table's words -/

/-- The `n` low bytes of a number, most significant byte first: the layout the table's patterns have
(bits 15:12 of LZSS.REF are the high nibble of the first byte, 30_encoding.md R90). -/
def wordBytes : Nat → Nat → List Byte
  | 0, _ => []
  | n + 1, w => BitVec.ofNat 8 (w / 256 ^ n) :: wordBytes n w

/-- The slots tried for a table word of `n` bytes, the pattern with the most fixed bits first, a stream
element before a command (log entry 7: the bits of an element alone do not tell its row). -/
def tableSlots : Nat → List Slot
  | 1 => [.hufBit, .rlRun]
  | 2 => [.lzRef true, .lzRef false, .delta16]
  | 3 => [.lzRef true]
  | 4 => [.hdr .lzss, .hdr .lzx, .hdr .rl, .hdr .diff, .hdr .huff, .lzRef true, .cmd, .hufPath]
  | _ => []

/-- The first slot of a list that reads exactly the bytes given. -/
def decodeFirst (bs : List Byte) : List Slot → Option Instr
  | [] => none
  | s :: rest =>
    match decode s .big bs with
    | .ok i => if (encode .big i).length = bs.length then some i else decodeFirst bs rest
    | .error _ => decodeFirst bs rest

/-- The instruction the decoder reads from the opcode-table word `w` of `nbits` bits (log entry 7). -/
def decodeTableWord (nbits w : Nat) : Option Instr :=
  let n := (nbits + 7) / 8
  decodeFirst (wordBytes n w) (tableSlots n)

end Sys2Proof
end

