-- ==== Sys2Proof/Machine/State.lean ====
section
/-! DEFINITION. The state of the block (10_state.md), the reasons a step can stop, and reset (70_reset_and_hazards.md). -/

namespace Sys2Proof.Machine

/-- A byte memory: the addresses that hold a known byte, strictly rising. An unlisted address holds no
known byte; the port that reads it returns a free value (log entry 3). -/
abbrev Memory := List Host.Cell

/-- `phase` of R36; STATUS.BUSY reads `phase = run`. -/
inductive Phase
  | idle
  | run
deriving DecidableEq, Repr

/-- Where a running job stands: accepted, its codec check and entry form still to come (41_job_control.md
R110 to R112), then in the grammar of 30_encoding.md R104 before its header, before the Huffman tree, in the
body, or at a Huffman leaf that a path bit has reached. The model's own field. -/
inductive Pos
  | entry
  | header
  | tree
  | body
  | leaf
deriving DecidableEq, Repr

/-- What the host can do to the block (20_memory.md R60, 10_state.md R41, 70_reset_and_hazards.md R250). -/
inductive HostOp
  /-- a read of the register space: byte offset and width in bits -/
  | regRead (offset bits : Nat)
  /-- a write of the register space: byte offset, width in bits, value -/
  | regWrite (offset bits : Nat) (v : Word)
  /-- a read of one SRC byte -/
  | srcRead (addr : Nat)
  /-- a write of one SRC byte -/
  | srcWrite (addr : Nat) (b : Byte)
  /-- a read of one OUT byte -/
  | outRead (addr : Nat)
  /-- reset (R250 to R252) -/
  | reset
deriving DecidableEq, Repr

/-- One turn of the environment's schedule: the block moves, or the host does one operation. -/
inductive Turn
  | block
  | host (op : HostOp)
deriving DecidableEq, Repr

/-- The state of one block: the register block (R21 to R31), the memories (R33 to R35), the hidden job
state (R36), the codec working state (R37), and the model's own fields. -/
structure State where
  /-- CTRL.CODEC, R22 -/
  ctrlCodec : BitVec 3
  /-- CTRL.ENTRY, R22: true is the offset form -/
  ctrlEntry : Bool
  /-- CTRL.IE, R22 -/
  ctrlIe : Bool
  /-- STATUS.DONE, R23 -/
  done : Bool
  /-- STATUS.ERR, R23 -/
  err : Bool
  /-- STATUS.OFS_ERR, R23, R24 -/
  ofsErr : Bool
  /-- STATUS.ERRCODE, R23 -/
  errCode : BitVec 4
  /-- BUF_SIZE, R25 -/
  bufSize : Word
  /-- CURSOR, R24; during a job the working cursor (R36) -/
  cursor : Word
  /-- OFFSET, R26 -/
  offset : Word
  /-- BUF_CFG.ORDER, R27 -/
  order : ByteOrder
  /-- OUT_LEN, R28 -/
  outLen : BitVec 24
  /-- OUT_COUNT, R29 -/
  outCount : BitVec 25
  /-- ERR_OFFSET, R30 -/
  errOffset : Word
  /-- OUT_CAP_R, R31, the parameter OUT_CAP (at most 2^24 - 1) -/
  outCap : BitVec 24
  /-- MAX_SRC_R, R31, the parameter MAX_SRC -/
  maxSrc : Word
  /-- SRC, R33 -/
  srcMem : Memory
  /-- OUT, R35 -/
  outMem : Memory
  /-- TREE, R34 -/
  treeMem : Memory
  /-- the draw of SRC's unspecified contents; the model's own (log entry 3) -/
  srcDraw : Nat
  /-- the draw of OUT's unspecified contents; the model's own (log entry 3) -/
  outDraw : Nat
  /-- the draw of TREE's unspecified contents; the model's own (log entry 3) -/
  treeDraw : Nat
  /-- phase, R36 -/
  phase : Phase
  /-- jcodec, R36 -/
  jcodec : BitVec 3
  /-- jentry, R36: true is the offset form -/
  jentry : Bool
  /-- jorder, R36 -/
  jorder : ByteOrder
  /-- saved, R36: CURSOR at START -/
  saved : Word
  /-- the place of the job; the model's own (log entry 4) -/
  pos : Pos
  /-- W, R37: the header word -/
  W : Word
  /-- L, R37: the declared length -/
  L : BitVec 24
  /-- out, R37: the output index -/
  out : Nat
  /-- flags, R37: the LZ flag byte -/
  flags : Byte
  /-- fbit, R37: unused flag bits, 0 to 8 -/
  fbit : Nat
  /-- D, R37: the Huffman bit depth -/
  D : BitVec 4
  /-- TS, R37: the tree region size, 2 to 512 -/
  TS : Nat
  /-- word, R37: the path word -/
  word : Word
  /-- bitsLeft, R37: unconsumed bits of `word`, 0 to 32 -/
  bitsLeft : Nat
  /-- wordOff, R37: the SRC offset of `word` -/
  wordOff : Word
  /-- a, R37: the node address; at `pos = leaf` the address of the leaf -/
  a : Nat
  /-- steps, R37: bits consumed for the current symbol, 0 to 32 -/
  steps : Nat
  /-- acc8, R37: the symbols of the current output byte -/
  acc8 : Byte
  /-- nsym, R37: the number of symbols in `acc8`, 0 to 8 -/
  nsym : Nat
  /-- M, R37: the Diff data-size mode -/
  M : BitVec 4
  /-- acc, R37: the Diff accumulator; the 8-bit mode uses its low byte -/
  acc : BitVec 16
  /-- the environment's schedule; empty means the block moves; the model's own (log entry 1) -/
  turns : List Turn
  /-- what the host's last read returned; the model's own (log entry 5) -/
  rdata : Word
  /-- the number of free values drawn for reads of a busy block; the model's own (log entry 6) -/
  freeCtr : Nat
  /-- the number of this instance among those of a system, read by the free values only; the model's own
  (log entry 15) -/
  inst : Nat
deriving DecidableEq, Repr

/-- Why the machine stops with a fault. -/
inductive Fault
  /-- A host access to a SRC address at or above MAX_SRC, which does not exist (R33). Raised by
  `hostStep`. Safe: the model stops where the spec gives no such byte. -/
  | srcAddress (addr : Nat)
  /-- A host read of an OUT address at or above OUT_CAP, which does not exist (R35). Raised by
  `hostStep`. Safe: the model stops where the spec gives no such byte. -/
  | outAddress (addr : Nat)
deriving DecidableEq, Repr

/-- What the model has no transition for. -/
inductive Refusal
  /-- An instruction without a meaning. Raised by an arm of `exec` only; no arm raises it. Safe. -/
  | notModelled (mnemonic : String)
  /-- A register access that is not a naturally aligned 32-bit access: "the model refuses it" (R41).
  Raised by `hostStep`. Safe. -/
  | registerAccess (offset bits : Nat)
  /-- A host write of SRC while STATUS.BUSY = 1: "The model gives the host no SRC write while busy"
  (R257). Raised by `hostStep`. Safe. -/
  | srcWriteWhileBusy (addr : Nat)
deriving DecidableEq, Repr

/-- The machine right after reset for given parameters (R40, R250): every register at the value of the
table of R40; the job and codec working state, unspecified there and never read before a START, at
zero (log entry 4); the memories with no known byte (log entry 3). -/
def State.resetWith (maxSrc : Word) (outCap : BitVec 24) : State where
  ctrlCodec := 0#3
  ctrlEntry := false
  ctrlIe := false
  done := false
  err := false
  ofsErr := false
  errCode := 0#4
  bufSize := 0#32
  cursor := 0#32
  offset := 0#32
  order := .big
  outLen := 0#24
  outCount := 0#25
  errOffset := 0#32
  outCap := outCap
  maxSrc := maxSrc
  srcMem := []
  outMem := []
  treeMem := []
  srcDraw := 0
  outDraw := 0
  treeDraw := 0
  phase := .idle
  jcodec := 0#3
  jentry := false
  jorder := .big
  saved := 0#32
  pos := .header
  W := 0#32
  L := 0#24
  out := 0
  flags := 0#8
  fbit := 0
  D := 0#4
  TS := 0
  word := 0#32
  bitsLeft := 0
  wordOff := 0#32
  a := 0
  steps := 0
  acc8 := 0#8
  nsym := 0
  M := 0#4
  acc := 0#16
  turns := []
  rdata := 0#32
  freeCtr := 0
  inst := 0

/-- The machine right after reset, with the parameters of `Config` (log entry 2). -/
def State.reset : State := State.resetWith Config.maxSrc Config.outCap

end Sys2Proof.Machine
end

