-- ==== Sys2Proof/Machine/Flags.lean ====
section
/-! DEFINITION. The flag-like state: STATUS and CTRL as words (10_state.md R22, R23), irq (R38), the LZ
block-type bit and the Huffman leaf flags (R39). The block has no condition codes (R39). -/

namespace Sys2Proof.Machine

/-- STATUS.BUSY (R23, R36). -/
def State.busy (s : State) : Bool := s.phase == .run

/-- The value a read of CTRL returns: START reads 0, bits 31:6 read 0 (R22). -/
def ctrlWord (s : State) : Word :=
  0#26 ++ (BitVec.ofBool s.ctrlIe ++ (BitVec.ofBool s.ctrlEntry ++ (s.ctrlCodec ++ 0#1)))

/-- The value a read of STATUS returns: bits 31:8 read 0 (R23). -/
def statusWord (s : State) : Word :=
  0#24 ++ (s.errCode ++ (BitVec.ofBool s.ofsErr ++ (BitVec.ofBool s.err ++
    (BitVec.ofBool s.done ++ BitVec.ofBool s.busy))))

/-- The interrupt output: CTRL.IE & (STATUS.DONE | STATUS.ERR) (R38, 60_exceptions.md R232). -/
def State.irq (s : State) : Bool := s.ctrlIe && (s.done || s.err)

/-- The type of the next LZ block: the most significant unused bit of the flag byte, set for a
back-reference (30_encoding.md R88, 42_lz.md R133). -/
def blockFlag (s : State) : Bool := s.flags.getLsbD (s.fbit - 1)

/-- The leaf flag of a node for a path bit: bit 6 for the left child, bit 7 for the right (R94). -/
def leafFlag (node : Byte) (right : Bool) : Bool := node.getLsbD (if right then 7 else 6)

/-- The next bit of the path word, most significant unused bit first (R96, 43_huffman.md R165). -/
def pathBit (s : State) : Bool := s.word.getLsbD (s.bitsLeft - 1)

end Sys2Proof.Machine
end

