-- ==== Sys2Proof/Machine/Operands.lean ====
section
/-! DEFINITION. How each numeric operand is assembled from its stored field (30_encoding.md R98). -/

namespace Sys2Proof.Machine

/-- The displacement of every back-reference: the stored field + 1, 1 to 4096 (R98, R142). -/
def dispOf (d : BitVec 12) : Nat := d.toNat + 1

/-- The count of LZSS.REF: the stored field + 3, 3 to 18 (R98, R136). -/
def countLzss (c : BitVec 4) : Nat := c.toNat + 3

/-- The count of LZX.REF0: the stored field + 0x11, 17 to 272 (R98, R138). -/
def countRef0 (c : BitVec 8) : Nat := c.toNat + 0x11

/-- The count of LZX.REF1: the stored field + 0x111, 273 to 65808 (R98, R139). -/
def countRef1 (c : BitVec 16) : Nat := c.toNat + 0x111

/-- The count of LZX.REFS: the indicator + 1, 3 to 16 (R98, R140). -/
def countRefs (ind : BitVec 4) : Nat := ind.toNat + 1

/-- The length of a verbatim run: the stored field + 1, 1 to 128 (R98, R191). -/
def copyLen (n : BitVec 7) : Nat := n.toNat + 1

/-- The length of a replicate run: the stored field + 3, 3 to 130 (R98, R192). -/
def fillLen (n : BitVec 7) : Nat := n.toNat + 3

/-- The size of the tree region: (n + 1) · 2, 2 to 512, the TSIZE byte counted (R93, R98, R163). -/
def treeSize (n : Byte) : Nat := (n.toNat + 1) * 2

/-- The child of the node at `a`: `(a & ~1) + (node[5:0] + 1) · 2 + bit` (R94, R98). -/
def childAddr (a : Nat) (node : Byte) (right : Bool) : Nat :=
  a / 2 * 2 + ((node.extractLsb' 0 6).toNat + 1) * 2 + right.toNat

/-- The symbol of a leaf byte: its low `D` bits (R95, R167). -/
def symbolOf (D : BitVec 4) (leaf : Byte) : Byte := BitVec.ofNat 8 (leaf.toNat % 2 ^ D.toNat)

/-- The number of symbols in an output byte, `8 / D` (R162). -/
def symbolsPerByte (D : BitVec 4) : Nat := 8 / D.toNat

/-- The legal bit depths (R85, R161). -/
def depthLegal (D : BitVec 4) : Bool := D == 1#4 || D == 2#4 || D == 4#4 || D == 8#4

end Sys2Proof.Machine
end

