-- ==== Sys2Proof/Machine/Ops.lean ====
section
/-! DEFINITION. The named operations over memories and registers (20_memory.md), the end of a job with
an error, which is the block's exception (60_exceptions.md R226 to R229), and its end with success. -/

namespace Sys2Proof.Machine

/-! ### Memories -/

/-- The known byte at an address, if there is one. -/
def Memory.read : Memory → Nat → Option Byte
  | [], _ => none
  | (x, b) :: m, i => if x = i then some b else Memory.read m i

/-- The memory with a byte stored at an address; the addresses stay in rising order. -/
def Memory.write : Memory → Nat → Byte → Memory
  | [], i, b => [(i, b)]
  | (x, c) :: m, i, b =>
    if i < x then (i, b) :: (x, c) :: m
    else if i = x then (i, b) :: m
    else (x, c) :: Memory.write m i b

/-- The memory with bytes stored at consecutive addresses. -/
def Memory.writeList : Memory → Nat → List Byte → Memory
  | m, _, [] => m
  | m, i, b :: bs => Memory.writeList (Memory.write m i b) (i + 1) bs

/-- The memory that lists the given bytes from an address on, and nothing else. -/
def Memory.ofList : Nat → List Byte → Memory
  | _, [] => []
  | i, b :: bs => (i, b) :: Memory.ofList (i + 1) bs

/-- The canonical form: addresses strictly rising. No entry can equal what an unlisted address holds,
since that is no known byte (log entry 3). -/
abbrev Memory.wf (m : Memory) : Prop := m.Pairwise (fun x y => x.1 < y.1)

/-- The byte of SRC at an address (R33). -/
def srcByte (s : State) (i : Nat) : Byte := (s.srcMem.read i).getD (Config.srcByte s.inst s.srcDraw i)

/-- `OutRead`: the byte of OUT at an index (R67). -/
def outRead (s : State) (i : Nat) : Byte := (s.outMem.read i).getD (Config.outByte s.inst s.outDraw i)

/-- `T[i]`: the byte of TREE at an address (R34). -/
def treeByte (s : State) (i : Nat) : Byte := (s.treeMem.read i).getD (Config.treeByte s.inst s.treeDraw i)

/-! ### The source read port -/

/-- CURSOR after a completed read of `n` bytes (R62 to R65). -/
def advance (n : Nat) (s : State) : State :=
  { s with cursor := BitVec.ofNat 32 (s.cursor.toNat + n) }

/-- An access of `w` bytes at SRC offset `c` is in bounds (R61). -/
def inBounds (s : State) (c w : Nat) : Bool := decide (c + w ≤ s.bufSize.toNat)

/-- `n` consecutive bytes of SRC. -/
def srcBytes (s : State) (c n : Nat) : List Byte := (List.range n).map (fun k => srcByte s (c + k))

/-- The answer of a cursor-relative read: a value and the state with CURSOR advanced, or a bounds
violation at an offset, CURSOR unchanged (R65). -/
inductive ReadResult (α : Type)
  | ok (v : α) (s : State)
  | bounds (c : Word)

/-- `ReadRange(n)` (R64). -/
def readRange (n : Nat) (s : State) : ReadResult (List Byte) :=
  if inBounds s s.cursor.toNat n then .ok (srcBytes s s.cursor.toNat n) (advance n s)
  else .bounds s.cursor

/-- `Read8()` (R62). -/
def read8 (s : State) : ReadResult Byte :=
  if inBounds s s.cursor.toNat 1 then .ok (srcByte s s.cursor.toNat) (advance 1 s)
  else .bounds s.cursor

/-- `Read16()` in the job's byte order (R63). -/
def read16 (s : State) : ReadResult (BitVec 16) :=
  let c := s.cursor.toNat
  if inBounds s c 2 then .ok (assemble16 s.jorder (srcByte s c) (srcByte s (c + 1))) (advance 2 s)
  else .bounds s.cursor

/-- `Read32()` in the job's byte order (R63). -/
def read32 (s : State) : ReadResult Word :=
  let c := s.cursor.toNat
  if inBounds s c 4 then
    .ok (assemble32 s.jorder (srcByte s c) (srcByte s (c + 1)) (srcByte s (c + 2)) (srcByte s (c + 3)))
      (advance 4 s)
  else .bounds s.cursor

/-! ### The output port -/

/-- `OutWrite(out, b); out <- out + 1` (R66, 41_job_control.md R116). -/
def emit (b : Byte) (s : State) : State :=
  { s with outMem := s.outMem.write s.out b, out := s.out + 1 }

/-- `Copy(count, disp)`: the forward copy, one byte at a time (42_lz.md R137). -/
def copyBack (disp : Nat) : Nat → State → State
  | 0, s => s
  | k + 1, s => copyBack disp k (emit (outRead s (s.out - disp)) s)

/-- The replicate run's writes: one byte, `len` times (44_rl.md R192). -/
def emitRun (b : Byte) : Nat → State → State
  | 0, s => s
  | k + 1, s => emitRun b k (emit b s)

/-! ### The end of a job -/

/-- The decompression errors (60_exceptions.md R222). -/
inductive JobError
  | bounds
  | type
  | depth
  | mode
  | negSrc
  | overrun
  | tree
  | noLeaf
  | capacity
  | badCodec
deriving DecidableEq, Repr

/-- The value of STATUS.ERRCODE for an error (R222). -/
def JobError.code : JobError → BitVec 4
  | .bounds => 1#4
  | .type => 2#4
  | .depth => 3#4
  | .mode => 4#4
  | .negSrc => 5#4
  | .overrun => 6#4
  | .tree => 7#4
  | .noLeaf => 8#4
  | .capacity => 9#4
  | .badCodec => 10#4

/-- CURSOR at the end of a job: restored in the offset form, kept in the cursor form (41_job_control.md
R117). -/
def endCursor (s : State) : Word := if s.jentry then s.saved else s.cursor

/-- `raise E(off)`: the job ends with the completion record of a failure (R226, R229, 41_job_control.md
R118). OUT becomes unspecified: no byte of it is known and a new draw of free bytes begins (R228). -/
def raise (e : JobError) (off : Word) (s : State) : State :=
  { s with
    outMem := []
    outDraw := s.outDraw + 1
    outCount := BitVec.ofNat 25 s.out
    errOffset := off
    errCode := e.code
    cursor := endCursor s
    err := true
    phase := .idle }

/-- The completion record of a success (R229, 41_job_control.md R118). The block has no return from an
error (R230): the host clears STATUS.ERR or starts the next job. -/
def finish (s : State) : State :=
  { s with
    outCount := s.L.setWidth 25
    cursor := endCursor s
    done := true
    phase := .idle }

end Sys2Proof.Machine
end

