-- ==== Sys2Proof/Machine/Diff.lean ====
section
/-! DEFINITION. The Diff elements (45_diff.md R201 to R203). -/

namespace Sys2Proof.Machine

/-- DIFF8.DELTA (R201): the low byte of the accumulator wraps mod 2^8 and is written. -/
def execDiff8Delta (d : Byte) (s : State) : Host.Outcome State Fault Refusal :=
  let v : Byte := s.acc.extractLsb' 0 8 + d
  .next (emit v { advance 1 s with acc := v.setWidth 16 })

/-- DIFF16.DELTA (R202): the accumulator wraps mod 2^16 and is written high byte first; the low byte of
the last unit is dropped when L is odd. -/
def execDiff16Delta (d : BitVec 16) (s : State) : Host.Outcome State Fault Refusal :=
  let v := s.acc + d
  let s1 := emit (v.extractLsb' 8 8) { advance 2 s with acc := v }
  .next (if s1.out < s1.L.toNat then emit (v.extractLsb' 0 8) s1 else s1)

end Sys2Proof.Machine
end

