-- ==== Sys2Proof/Machine/Header.lean ====
section
/-! DEFINITION. The headers (41_job_control.md R114, R115; 42_lz.md R130, R131; 43_huffman.md R160, R161;
44_rl.md R190; 45_diff.md R200). The type check is the decoder's (`decodeHeader`), since a header of
another type is no header of the codec; the block raises TYPE or MODE for it (`rejectRecord`). -/

namespace Sys2Proof.Machine

/-- The common header step (R114): the word is read, and `L` taken from it. -/
def takeHeader (W : Word) (len : BitVec 24) (s : State) : State :=
  { advance 4 s with W := W, L := len }

/-- The capacity check (R115): CAPACITY at the header, or OUT_LEN and the output index are set. -/
def openOutput (hoff : Word) (s : State) : State :=
  if s.outCap.toNat < s.L.toNat then raise .capacity hoff s
  else { s with outLen := s.L, out := 0 }

/-- The start of an LZ body: no flag bit is left over (R133). -/
def beginLz (s : State) : State := { s with pos := .body, fbit := 0 }

/-- The start of a Diff body: the accumulator is 0 (R203). -/
def beginDiff (mode : BitVec 4) (s : State) : State := { s with pos := .body, M := mode, acc := 0#16 }

/-- HDR.LZSS (R130). -/
def execHdrLzss (len : BitVec 24) (s : State) : Host.Outcome State Fault Refusal :=
  .next (openOutput s.cursor (beginLz (takeHeader (typedHeader 0x10#8 len) len s)))

/-- HDR.LZX (R131). -/
def execHdrLzx (len : BitVec 24) (s : State) : Host.Outcome State Fault Refusal :=
  .next (openOutput s.cursor (beginLz (takeHeader (typedHeader 0x11#8 len) len s)))

/-- HDR.HUFF (R160, R161): DEPTH before the capacity check. -/
def execHdrHuff (depth : BitVec 4) (len : BitVec 24) (s : State) : Host.Outcome State Fault Refusal :=
  let s1 := { takeHeader (huffHeader depth len) len s with D := depth, pos := .tree }
  .next (if depthLegal depth then openOutput s.cursor s1 else raise .depth s.cursor s1)

/-- HDR.RL (R190). -/
def execHdrRl (len : BitVec 24) (s : State) : Host.Outcome State Fault Refusal :=
  .next (openOutput s.cursor { takeHeader (typedHeader 0x30#8 len) len s with pos := .body })

/-- HDR.DIFF8 (R200 with M = 1). -/
def execHdrDiff8 (len : BitVec 24) (s : State) : Host.Outcome State Fault Refusal :=
  .next (openOutput s.cursor (beginDiff 1#4 (takeHeader (diffHeader 1#4 len) len s)))

/-- HDR.DIFF16 (R200 with M = 2). -/
def execHdrDiff16 (len : BitVec 24) (s : State) : Host.Outcome State Fault Refusal :=
  .next (openOutput s.cursor (beginDiff 2#4 (takeHeader (diffHeader 2#4 len) len s)))

end Sys2Proof.Machine
end

