-- ==== Sys2Proof/Machine/Huffman.lean ====
section
/-! DEFINITION. The Huffman elements (43_huffman.md R163 to R169). -/

namespace Sys2Proof.Machine

/-- The traversal restarts at the root, region byte 1 (R167, R169). -/
def restart (s : State) : State := { s with pos := .body, a := 1, steps := 0 }

/-- HUFF.TREE (R163): TSIZE into `T[0]`, then one range read of the other TS - 1 bytes; then the body
begins with no bit left and no symbol packed (R169). -/
def execHuffTree (n : Byte) (s : State) : Host.Outcome State Fault Refusal :=
  let s1 := { advance 1 s with TS := treeSize n, treeMem := s.treeMem.write 0 n }
  .next (match readRange (treeSize n - 1) s1 with
    | .ok bs s2 =>
      restart { s2 with
        treeMem := s2.treeMem.writeList 1 bs
        acc8 := 0#8
        nsym := 0
        bitsLeft := 0 }
    | .bounds c => raise .bounds c s1)

/-- HUFF.PATH (R164): NO_LEAF when the word before it ended inside a symbol's code. -/
def execHuffPath (p : Word) (s : State) : Host.Outcome State Fault Refusal :=
  .next (if s.steps ≠ 0 then raise .noLeaf s.wordOff s
    else { advance 4 s with wordOff := s.cursor, word := p, bitsLeft := 32 })

/-- One traversal step (R165, R166): a child outside the tree raises TREE at the path word; else the
step ends at a leaf when the node's flag for that side is set, and at an internal node when not. -/
def traverse (right : Bool) (s : State) : State :=
  let node := treeByte s s.a
  let c := childAddr s.a node right
  let s1 := { s with bitsLeft := s.bitsLeft - 1, steps := s.steps + 1 }
  if s.TS ≤ c then raise .tree s.wordOff s1
  else { s1 with a := c, pos := if leafFlag node right then .leaf else .body }

/-- HUFF.LEFT (R165). -/
def execHuffLeft (s : State) : Host.Outcome State Fault Refusal :=
  .next (traverse false s)

/-- HUFF.RIGHT (R166). -/
def execHuffRight (s : State) : Host.Outcome State Fault Refusal :=
  .next (traverse true s)

/-- Symbol packing (R168): the first symbol of a byte ends in its top bits; a full byte is written. -/
def packSymbol (sym : Byte) (s : State) : State :=
  let v : Byte := (s.acc8 <<< s.D.toNat) ||| sym
  if s.nsym + 1 = symbolsPerByte s.D then emit v { s with acc8 := 0#8, nsym := 0 }
  else { s with acc8 := v, nsym := s.nsym + 1 }

/-- HUFF.LEAF (R167, R168): the leaf's low D bits are packed and the traversal restarts. -/
def execHuffLeaf (b : Byte) (s : State) : Host.Outcome State Fault Refusal :=
  .next (restart (packSymbol (symbolOf s.D b) s))

end Sys2Proof.Machine
end

