-- ==== Sys2Proof/Machine/Lz.lean ====
section
/-! DEFINITION. The LZSS and LZX body elements (42_lz.md R132 to R142). -/

namespace Sys2Proof.Machine

/-- One LZ block of `n` bytes is consumed, and with it one flag bit (R133). -/
def takeBlock (n : Nat) (s : State) : State := { advance n s with fbit := s.fbit - 1 }

/-- A literal block (R134, R135). -/
def literal (b : Byte) (s : State) : State := emit b (takeBlock 1 s)

/-- A back-reference of `n` bytes (R136, R138 to R140): NEG_SRC first, then the overrun, which LZSS
clamps and LZX fails (R141), then the copy. Errors name the reference's first byte. -/
def backRef (clamp : Bool) (n count disp : Nat) (s : State) : State :=
  let s1 := takeBlock n s
  if s.out < disp then raise .negSrc s.cursor s1
  else if s.L.toNat < s.out + count then
    if clamp then copyBack disp (s.L.toNat - s.out) s1 else raise .overrun s.cursor s1
  else copyBack disp count s1

/-- LZ.FLAGS (R133). -/
def execLzFlags (f : Byte) (s : State) : Host.Outcome State Fault Refusal :=
  .next { advance 1 s with flags := f, fbit := 8 }

/-- LZSS.LIT (R134). -/
def execLzssLit (b : Byte) (s : State) : Host.Outcome State Fault Refusal :=
  .next (literal b s)

/-- LZX.LIT (R135). -/
def execLzxLit (b : Byte) (s : State) : Host.Outcome State Fault Refusal :=
  .next (literal b s)

/-- LZSS.REF (R136). -/
def execLzssRef (c : BitVec 4) (d : BitVec 12) (s : State) : Host.Outcome State Fault Refusal :=
  .next (backRef true 2 (countLzss c) (dispOf d) s)

/-- LZX.REF0 (R138). -/
def execLzxRef0 (c : BitVec 8) (d : BitVec 12) (s : State) : Host.Outcome State Fault Refusal :=
  .next (backRef false 3 (countRef0 c) (dispOf d) s)

/-- LZX.REF1 (R139). -/
def execLzxRef1 (c : BitVec 16) (d : BitVec 12) (s : State) : Host.Outcome State Fault Refusal :=
  .next (backRef false 4 (countRef1 c) (dispOf d) s)

/-- LZX.REFS (R140). -/
def execLzxRefs (ind : BitVec 4) (d : BitVec 12) (s : State) : Host.Outcome State Fault Refusal :=
  .next (backRef false 2 (countRefs ind) (dispOf d) s)

end Sys2Proof.Machine
end

