-- ==== Sys2Proof/Machine/Rl.lean ====
section
/-! DEFINITION. The run-length elements (44_rl.md R191 to R193). -/

namespace Sys2Proof.Machine

/-- The data bytes of a verbatim run: each is read and written before the next is read; a missing one
raises BOUNDS where it should stand (R191). -/
def copyRun : Nat → State → State
  | 0, s => s
  | k + 1, s =>
    match read8 s with
    | .ok b s1 => copyRun k (emit b s1)
    | .bounds c => raise .bounds c s

/-- RL.COPY (R191): the overrun test precedes the data reads. -/
def execRlCopy (n : BitVec 7) (s : State) : Host.Outcome State Fault Refusal :=
  .next (if s.L.toNat < s.out + copyLen n then raise .overrun s.cursor (advance 1 s)
    else copyRun (copyLen n) (advance 1 s))

/-- RL.FILL (R192): the overrun test precedes the data read. -/
def execRlFill (n : BitVec 7) (s : State) : Host.Outcome State Fault Refusal :=
  .next (if s.L.toNat < s.out + fillLen n then raise .overrun s.cursor (advance 1 s)
    else
      match read8 (advance 1 s) with
      | .ok b s1 => emitRun b (fillLen n) s1
      | .bounds c => raise .bounds c (advance 1 s))

end Sys2Proof.Machine
end

