-- ==== Sys2Proof/Machine/Start.lean ====
section
/-! DEFINITION. The commands (41_job_control.md R110 to R112, R119 to R124). A command is a write of
CTRL with START = 1; while STATUS.BUSY = 1 it is ignored in every field (10_state.md R42). A command accepts
the job; its codec check and entry form are the block's next turn, so that a host write may come before a
completion they lead to (60_exceptions.md R233). -/

namespace Sys2Proof.Machine

/-- An accepted START (R110). The output index starts at 0, so that a job that ends before its header is
accepted reports OUT_COUNT = 0 (R124, log entry 8). The job stands before its codec check (log entry 9). -/
def acceptStart (codec : BitVec 3) (entry ie : Bool) (s : State) : State :=
  { s with
    ctrlCodec := codec
    ctrlEntry := entry
    ctrlIe := ie
    jcodec := codec
    jentry := entry
    jorder := s.order
    saved := s.cursor
    done := false
    err := false
    errCode := 0#4
    outLen := 0#24
    outCount := 0#25
    errOffset := 0#32
    phase := .run
    pos := .entry
    out := 0 }

/-- A START (R110): accepted while idle, ignored while busy (10_state.md R42). -/
def startJob (codec : BitVec 3) (entry ie : Bool) (s : State) : State :=
  if s.busy then s else acceptStart codec entry ie s

/-- The first turn of an accepted job. A reserved codec fails with BAD_CODEC at `saved` before anything else
(R111, R124); the offset form repositions CURSOR, or fails with BOUNDS(OFFSET) when OFFSET is not below
BUF_SIZE (R112); then the header is next (R113). -/
def enterStream (s : State) : State :=
  if (Codec.ofBits s.jcodec).isNone then raise .badCodec s.saved s
  else if s.jentry then
    if s.bufSize.toNat ≤ s.offset.toNat then raise .bounds s.offset s
    else { s with cursor := s.offset, pos := .header }
  else { s with pos := .header }

/-- START.LZSS (R119). -/
def execStartLzss (entry ie : Bool) (s : State) : Host.Outcome State Fault Refusal :=
  .next (startJob 0#3 entry ie s)

/-- START.LZX (R120). -/
def execStartLzx (entry ie : Bool) (s : State) : Host.Outcome State Fault Refusal :=
  .next (startJob 1#3 entry ie s)

/-- START.HUFF (R121). -/
def execStartHuff (entry ie : Bool) (s : State) : Host.Outcome State Fault Refusal :=
  .next (startJob 2#3 entry ie s)

/-- START.RL (R122). -/
def execStartRl (entry ie : Bool) (s : State) : Host.Outcome State Fault Refusal :=
  .next (startJob 3#3 entry ie s)

/-- START.DIFF (R123). -/
def execStartDiff (entry ie : Bool) (s : State) : Host.Outcome State Fault Refusal :=
  .next (startJob 4#3 entry ie s)

/-- START.RSVD with CODEC = 5 (R124): the block's next turn is BAD_CODEC (`enterStream`). -/
def execStartRsvd5 (entry ie : Bool) (s : State) : Host.Outcome State Fault Refusal :=
  .next (startJob 5#3 entry ie s)

/-- START.RSVD with CODEC = 6 (R124): the block's next turn is BAD_CODEC (`enterStream`). -/
def execStartRsvd6 (entry ie : Bool) (s : State) : Host.Outcome State Fault Refusal :=
  .next (startJob 6#3 entry ie s)

/-- START.RSVD with CODEC = 7 (R124): the block's next turn is BAD_CODEC (`enterStream`). -/
def execStartRsvd7 (entry ie : Bool) (s : State) : Host.Outcome State Fault Refusal :=
  .next (startJob 7#3 entry ie s)

end Sys2Proof.Machine
end

