-- ==== Sys2Proof/Machine/Dispatch.lean ====
section
/-! DEFINITION. What each element does to the state: one direct call of its meaning for each
constructor of `Instr`. -/

namespace Sys2Proof.Machine

def exec (i : Instr) (s : State) : Host.Outcome State Fault Refusal :=
  match i with
  | .startLzss entry ie => Sys2Proof.Machine.execStartLzss entry ie s
  | .startLzx entry ie => Sys2Proof.Machine.execStartLzx entry ie s
  | .startHuff entry ie => Sys2Proof.Machine.execStartHuff entry ie s
  | .startRl entry ie => Sys2Proof.Machine.execStartRl entry ie s
  | .startDiff entry ie => Sys2Proof.Machine.execStartDiff entry ie s
  | .startRsvd5 entry ie => Sys2Proof.Machine.execStartRsvd5 entry ie s
  | .startRsvd6 entry ie => Sys2Proof.Machine.execStartRsvd6 entry ie s
  | .startRsvd7 entry ie => Sys2Proof.Machine.execStartRsvd7 entry ie s
  | .hdrLzss len => Sys2Proof.Machine.execHdrLzss len s
  | .hdrLzx len => Sys2Proof.Machine.execHdrLzx len s
  | .hdrHuff depth len => Sys2Proof.Machine.execHdrHuff depth len s
  | .hdrRl len => Sys2Proof.Machine.execHdrRl len s
  | .hdrDiff8 len => Sys2Proof.Machine.execHdrDiff8 len s
  | .hdrDiff16 len => Sys2Proof.Machine.execHdrDiff16 len s
  | .lzFlags f => Sys2Proof.Machine.execLzFlags f s
  | .lzssLit b => Sys2Proof.Machine.execLzssLit b s
  | .lzxLit b => Sys2Proof.Machine.execLzxLit b s
  | .lzssRef c d => Sys2Proof.Machine.execLzssRef c d s
  | .lzxRef0 c d => Sys2Proof.Machine.execLzxRef0 c d s
  | .lzxRef1 c d => Sys2Proof.Machine.execLzxRef1 c d s
  | .lzxRefs ind d => Sys2Proof.Machine.execLzxRefs ind d s
  | .rlCopy n => Sys2Proof.Machine.execRlCopy n s
  | .rlFill n => Sys2Proof.Machine.execRlFill n s
  | .huffTree n => Sys2Proof.Machine.execHuffTree n s
  | .huffPath p => Sys2Proof.Machine.execHuffPath p s
  | .huffLeft => Sys2Proof.Machine.execHuffLeft s
  | .huffRight => Sys2Proof.Machine.execHuffRight s
  | .huffLeaf b => Sys2Proof.Machine.execHuffLeaf b s
  | .diff8Delta d => Sys2Proof.Machine.execDiff8Delta d s
  | .diff16Delta d => Sys2Proof.Machine.execDiff16Delta d s

end Sys2Proof.Machine
end

