-- ==== Sys2Proof/Machine/Fetch.lean ====
section
/-! DEFINITION. Which element the running job reads next, and its fetch (30_encoding.md R104). -/

namespace Sys2Proof.Machine

/-- The slot of the grammar the job stands at, or before its entry form will stand at (R104): LZ by the flag byte (42_lz.md R133), Huffman by the
unconsumed bits (43_huffman.md R164, R169), Diff by the mode (45_diff.md R203). -/
def slotOf (c : Codec) (s : State) : Slot :=
  match s.pos with
  | .entry => .hdr c
  | .header => .hdr c
  | .tree => .hufTree
  | .leaf => .hufLeaf
  | .body =>
    match c with
    | .lzss => if s.fbit = 0 then .lzFlag else if blockFlag s then .lzRef false else .lzLit false
    | .lzx => if s.fbit = 0 then .lzFlag else if blockFlag s then .lzRef true else .lzLit true
    | .huff => if s.bitsLeft = 0 then .hufPath else .hufBit
    | .rl => .rlRun
    | .diff => if s.M = 1#4 then .delta8 else .delta16

/-- The body of the job is complete: `out = L`, tested before each element (41_job_control.md R116) and,
for Huffman, before each symbol (43_huffman.md R169). -/
def bodyDone (s : State) : Bool :=
  s.pos == .body && s.out == s.L.toNat && (s.jcodec != Codec.huff.bits || s.steps == 0)

/-- The bytes of the buffer from CURSOR on, at most `n` of them (R61). -/
def window (n : Nat) (s : State) : List Byte :=
  srcBytes s s.cursor.toNat (min n (s.bufSize.toNat - s.cursor.toNat))

/-- The bytes an element is decoded from: a path bit from the path word, a leaf from TREE, every other
element from the buffer. No element that the decoder reads is longer than 4 bytes. -/
def elementBytes (s : State) : Slot → List Byte
  | .hufBit => [if pathBit s then 1#8 else 0#8]
  | .hufLeaf => [treeByte s s.a]
  | _ => window 4 s

/-- What the fetch finds: an element to run, or an error to raise at an offset after `skip` bytes were
read by completed accesses. -/
inductive Fetched
  | element (i : Instr)
  | failed (e : JobError) (off : Word) (skip : Nat)
deriving DecidableEq, Repr

/-- The error of bytes that are no element: BOUNDS where the access that does not fit begins, after the
accesses that did (R221, 42_lz.md R132); TYPE and MODE at the header, read in full (R114, R223). A job
never stands at a command and a path bit is always a bit, so the last two do not occur
(`fetch_never_misread`). -/
def rejectRecord (s : State) : Reject → Fetched
  | .short k => .failed .bounds (BitVec.ofNat 32 (s.cursor.toNat + k)) k
  | .typeMismatch => .failed .type s.cursor 4
  | .badMode => .failed .mode s.cursor 4
  | .notStart => .failed .type s.cursor 0
  | .notABit => .failed .type s.cursor 0

/-- The next element of the running job. A symbol's code that reaches the end of its path word raises
NO_LEAF before the next word is read (43_huffman.md R164). -/
def fetch (s : State) : Fetched :=
  match Codec.ofBits s.jcodec with
  | none => .failed .badCodec s.saved 0
  | some c =>
    if slotOf c s = .hufPath ∧ s.steps ≠ 0 then .failed .noLeaf s.wordOff 0
    else
      match decode (slotOf c s) s.jorder (elementBytes s (slotOf c s)) with
      | .ok i => .element i
      | .error r => rejectRecord s r

/-! ### Placing one element where the next step fetches it -/

/-- The bytes of an element stored at the start of SRC, zeros after them up to the longest element (a
Huffman tree of 512 bytes), BUF_SIZE just past them and CURSOR at the first. -/
def placeBytes (bs : List Byte) (s : State) : State :=
  let all := bs ++ List.replicate (Config.treeBytes - bs.length) 0#8
  { s with
    srcMem := Memory.ofList 0 all
    bufSize := BitVec.ofNat 32 all.length
    cursor := 0#32 }

/-- A job of a codec in its body, with output still to write. -/
def placeBody (codec : BitVec 3) (s : State) : State :=
  { s with phase := .run, turns := [], jcodec := codec, jorder := .big, pos := .body, L := s.outCap, out := 0 }

/-- The state whose next step fetches the element `i`, its bytes `bs`, at the slot it stands in. -/
def placeElement (i : Instr) (bs : List Byte) (w : Nat) (s : State) : State :=
  match i.slot with
  | .cmd => { s with phase := .idle, turns := [.host (.regWrite 0 32 (BitVec.ofNat 32 w))] }
  | .hdr c => placeBytes bs { placeBody c.bits s with pos := .header }
  | .lzFlag => placeBytes bs { placeBody 0#3 s with fbit := 0 }
  | .lzLit ext => placeBytes bs { placeBody (if ext then 1#3 else 0#3) s with fbit := 1, flags := 0x00#8 }
  | .lzRef ext => placeBytes bs { placeBody (if ext then 1#3 else 0#3) s with fbit := 1, flags := 0x01#8 }
  | .rlRun => placeBytes bs (placeBody 3#3 s)
  | .hufTree => placeBytes bs { placeBody 2#3 s with pos := .tree }
  | .hufPath => placeBytes bs { placeBody 2#3 s with steps := 0, bitsLeft := 0 }
  | .hufBit =>
    { placeBody 2#3 s with
      bitsLeft := 1
      word := if i = .huffRight then 1#32 else 0#32
      steps := 0
      a := 1
      TS := 4
      treeMem := Memory.ofList 0 [1#8, 0#8, 0#8, 0#8] }
  | .hufLeaf => { placeBody 2#3 s with pos := .leaf, D := 8#4, nsym := 0, a := 2, treeMem := Memory.ofList 2 bs }
  | .delta8 => placeBytes bs { placeBody 4#3 s with M := 1#4 }
  | .delta16 => placeBytes bs { placeBody 4#3 s with M := 2#4 }

end Sys2Proof.Machine
end

