-- ==== Sys2Proof/Machine/Block.lean ====
section
/-! DEFINITION. One turn of the block (41_job_control.md R110 to R118). -/

namespace Sys2Proof.Machine

/-- A turn of the block: nothing while idle (60_exceptions.md R240); the codec check and entry form of an
accepted job (41_job_control.md R111, R112); the completion of a finished job (R118); else one element, or
the error that its fetch meets (60_exceptions.md R226). -/
def blockStep (s : State) : Host.Outcome State Fault Refusal :=
  match s.phase with
  | .idle => .next s
  | .run =>
    if s.pos = .entry then .next (enterStream s)
    else if bodyDone s then .next (finish s)
    else
      match fetch s with
      | .element i => exec i s
      | .failed e off skip => .next (raise e off (advance skip s))

end Sys2Proof.Machine
end

