-- ==== Sys2Proof/Machine/HostPort.lean ====
section
/-! DEFINITION. The host's operations on the register space, SRC and OUT, and reset (10_state.md R21 to
R32, R41 to R43; 41_job_control.md R125; 70_reset_and_hazards.md R250 to R258). -/

namespace Sys2Proof.Machine

/-- The eleven registers (R21). -/
inductive Reg
  | ctrl
  | status
  | bufSize
  | cursor
  | offset
  | bufCfg
  | outLen
  | outCount
  | errOffset
  | outCapR
  | maxSrcR
deriving DecidableEq, Repr

/-- The byte offset of a register (R21). -/
def Reg.addr : Reg → Nat
  | .ctrl => 0x00
  | .status => 0x04
  | .bufSize => 0x08
  | .cursor => 0x0C
  | .offset => 0x10
  | .bufCfg => 0x14
  | .outLen => 0x18
  | .outCount => 0x1C
  | .errOffset => 0x20
  | .outCapR => 0x24
  | .maxSrcR => 0x28

/-- The register at an offset; every other offset is reserved (R21, R32). -/
def Reg.ofAddr (off : Nat) : Option Reg :=
  if off = 0x00 then some .ctrl
  else if off = 0x04 then some .status
  else if off = 0x08 then some .bufSize
  else if off = 0x0C then some .cursor
  else if off = 0x10 then some .offset
  else if off = 0x14 then some .bufCfg
  else if off = 0x18 then some .outLen
  else if off = 0x1C then some .outCount
  else if off = 0x20 then some .errOffset
  else if off = 0x24 then some .outCapR
  else if off = 0x28 then some .maxSrcR
  else none

/-- The value a register holds, reserved bits 0 (R22 to R31). -/
def regValue (s : State) : Reg → Word
  | .ctrl => ctrlWord s
  | .status => statusWord s
  | .bufSize => s.bufSize
  | .cursor => s.cursor
  | .offset => s.offset
  | .bufCfg => if s.order = .little then 1#32 else 0#32
  | .outLen => s.outLen.setWidth 32
  | .outCount => s.outCount.setWidth 32
  | .errOffset => s.errOffset
  | .outCapR => s.outCap.setWidth 32
  | .maxSrcR => s.maxSrc

/-- The value of a host read returned, and one more free value drawn. -/
def freeRead (v : Word) (s : State) : State := { s with rdata := v, freeCtr := s.freeCtr + 1 }

/-- A read of a register. While busy, CURSOR, OUT_LEN and OUT_COUNT return any value of 32, 24 and 25
bits (R43); no read has a side effect on the block (20_memory.md R70). -/
def readReg (s : State) (r : Reg) : State :=
  let free := Config.busyWord s.inst s.freeCtr
  match s.busy, r with
  | true, .cursor => freeRead free s
  | true, .outLen => freeRead (free.extractLsb' 0 24 |>.setWidth 32) s
  | true, .outCount => freeRead (free.extractLsb' 0 25 |>.setWidth 32) s
  | _, _ => { s with rdata := regValue s r }

/-- A write of CTRL without START updates CODEC, ENTRY and IE (R22, R81). -/
def writeCtrl (v : Word) (s : State) : State :=
  { s with ctrlCodec := v.extractLsb' 1 3, ctrlEntry := v.getLsbD 4, ctrlIe := v.getLsbD 5 }

/-- A write of STATUS clears the W1C bits written 1 (R23). -/
def writeStatus (v : Word) (s : State) : State :=
  { s with
    done := s.done && !v.getLsbD 1
    err := s.err && !v.getLsbD 2
    ofsErr := s.ofsErr && !v.getLsbD 3 }

/-- A write of BUF_SIZE opens a new buffer: the smaller of the value and MAX_SRC, CURSOR 0 (R25). -/
def writeBufSize (v : Word) (s : State) : State :=
  { s with bufSize := if v.toNat ≤ s.maxSrc.toNat then v else s.maxSrc, cursor := 0#32 }

/-- A write of CURSOR is `setOffset`: taken below BUF_SIZE, else refused with OFS_ERR (R24). -/
def writeCursor (v : Word) (s : State) : State :=
  if v.toNat < s.bufSize.toNat then { s with cursor := v } else { s with ofsErr := true }

/-- A write of a register while idle, START apart (R22 to R31): a read-only register ignores it. -/
def writeReg (r : Reg) (v : Word) (s : State) : State :=
  match r with
  | .ctrl => writeCtrl v s
  | .status => writeStatus v s
  | .bufSize => writeBufSize v s
  | .cursor => writeCursor v s
  | .offset => { s with offset := v }
  | .bufCfg => { s with order := if v.getLsbD 0 then .little else .big }
  | .outLen => s
  | .outCount => s
  | .errOffset => s
  | .outCapR => s
  | .maxSrcR => s

/-- The register space takes naturally aligned 32-bit accesses only (R41). -/
def regAccessLegal (off bits : Nat) : Bool := bits == 32 && off % 4 == 0

/-- A host write of the register space. A CTRL value with START = 1 is a command (30_encoding.md R81)
and runs as an instruction; while busy every write is ignored (R42); a reserved offset ignores it (R32). -/
def hostRegWrite (off bits : Nat) (v : Word) (s : State) : Host.Outcome State Fault Refusal :=
  if regAccessLegal off bits then
    match Reg.ofAddr off with
    | none => .next s
    | some .ctrl =>
      match decodeCmd v with
      | .ok i => exec i s
      | .error _ => .next (if s.busy then s else writeReg .ctrl v s)
    | some r => .next (if s.busy then s else writeReg r v s)
  else .refused (.registerAccess off bits)

/-- A host read of the register space; a reserved offset reads 0 (R32). -/
def hostRegRead (off bits : Nat) (s : State) : Host.Outcome State Fault Refusal :=
  if regAccessLegal off bits then
    match Reg.ofAddr off with
    | none => .next { s with rdata := 0#32 }
    | some r => .next (readReg s r)
  else .refused (.registerAccess off bits)

/-- Reset (R250 to R252): a running job is abandoned; SRC, OUT and TREE become unspecified; the
parameters, the environment's schedule, the host's own data and the instance's number stay (log entry 12). -/
def resetNow (s : State) : State :=
  { State.resetWith s.maxSrc s.outCap with
    srcDraw := s.srcDraw + 1
    outDraw := s.outDraw + 1
    treeDraw := s.treeDraw + 1
    turns := s.turns
    rdata := s.rdata
    freeCtr := s.freeCtr
    inst := s.inst }

/-- One host operation. SRC is written by the host only while idle (R257); a read of SRC or OUT while
busy is a hazard and returns any byte (R258, 20_memory.md R74, log entry 6). -/
def hostStep (op : HostOp) (s : State) : Host.Outcome State Fault Refusal :=
  match op with
  | .regRead off bits => hostRegRead off bits s
  | .regWrite off bits v => hostRegWrite off bits v s
  | .srcRead i =>
    if i < s.maxSrc.toNat then
      .next (if s.busy then freeRead ((Config.busyWord s.inst s.freeCtr).extractLsb' 0 8 |>.setWidth 32) s
        else { s with rdata := (srcByte s i).setWidth 32 })
    else .fault (.srcAddress i)
  | .srcWrite i b =>
    if i < s.maxSrc.toNat then
      if s.busy then .refused (.srcWriteWhileBusy i)
      else .next { s with srcMem := s.srcMem.write i b }
    else .fault (.srcAddress i)
  | .outRead i =>
    if i < s.outCap.toNat then
      .next (if s.busy then freeRead ((Config.busyWord s.inst s.freeCtr).extractLsb' 0 8 |>.setWidth 32) s
        else { s with rdata := (outRead s i).setWidth 32 })
    else .fault (.outAddress i)
  | .reset => .next (resetNow s)

end Sys2Proof.Machine
end

