-- ==== Sys2Proof/Machine/Step.lean ====
section
/-! DEFINITION. One step of the machine: the agent whose turn it is moves (log entry 1). -/

namespace Sys2Proof.Machine

/-- The next turn of the schedule is taken; an empty schedule lets the block move (20_memory.md R74,
60_exceptions.md R233: a host operation may come before or after any turn of the block). -/
def step (s : State) : Host.Outcome State Fault Refusal :=
  match s.turns with
  | [] => blockStep s
  | .block :: rest => blockStep { s with turns := rest }
  | .host op :: rest => hostStep op { s with turns := rest }

/-- `s` with the opcode-table word `w` placed where the next step fetches it (log entry 7): a command as
the host's next write of CTRL, an element at the slot of a running job that reads it. -/
def State.withFetchWord (s : State) (nbits w : Nat) : State :=
  match decodeTableWord nbits w with
  | none => s
  | some i => placeElement i (wordBytes ((nbits + 7) / 8) w) w s

end Sys2Proof.Machine
end

