-- ==== Sys2Proof/Machine/Assembly.lean ====
section
/-! DEFINITION. The notation for streams and host programs (30_encoding.md R101 to R103): which bytes a
line stands for, and which host operations. An operand outside its range is an assembly error (none). -/

namespace Sys2Proof.Machine

/-- One line of a stream (R101, R102); numbers are as the notation writes them. -/
inductive AsmLine
  | hdrLzss (len : Nat)
  | hdrLzx (len : Nat)
  | hdrHuff (depth len : Nat)
  | hdrRl (len : Nat)
  | hdrDiff8 (len : Nat)
  | hdrDiff16 (len : Nat)
  | flags (f : Byte)
  | lit (b : Byte)
  | ref (count disp : Nat)
  | refx0 (count disp : Nat)
  | refx1 (count disp : Nat)
  | refxs (count disp : Nat)
  | refx (count disp : Nat)
  | copy (bs : List Byte)
  | fill (k : Nat) (b : Byte)
  | run (k : Nat) (b : Byte)
  | tsize (n : Byte)
  | node (off : Nat) (lleaf rleaf : Bool)
  | leaf (s : Byte)
  | path (p : Word)
  | d8 (v : Byte)
  | d16 (v : BitVec 16)
  | bytes (bs : List Byte)
deriving DecidableEq, Repr

/-- A value under a condition: none is an assembly error. -/
def asmCheck {α : Type} (ok : Bool) (v : α) : Option α := if ok then some v else none

/-- The displacements a back-reference can hold (R102, `DISP_MAX` of R8). -/
def dispLegal (disp : Nat) : Bool := decide (1 ≤ disp) && decide (disp ≤ Config.dispMax)

/-- `ref count, disp` (R101, R102). -/
def asmRef (count disp : Nat) : Option Instr :=
  asmCheck (decide (3 ≤ count) && decide (count ≤ 18) && dispLegal disp)
    (.lzssRef (BitVec.ofNat 4 (count - 3)) (BitVec.ofNat 12 (disp - 1)))

/-- `refx0 count, disp` (R91, R101). -/
def asmRefx0 (count disp : Nat) : Option Instr :=
  asmCheck (decide (17 ≤ count) && decide (count ≤ 272) && dispLegal disp)
    (.lzxRef0 (BitVec.ofNat 8 (count - 0x11)) (BitVec.ofNat 12 (disp - 1)))

/-- `refx1 count, disp` (R91, R101). -/
def asmRefx1 (count disp : Nat) : Option Instr :=
  asmCheck (decide (273 ≤ count) && decide (count ≤ 65808) && dispLegal disp)
    (.lzxRef1 (BitVec.ofNat 16 (count - 0x111)) (BitVec.ofNat 12 (disp - 1)))

/-- `refxs count, disp` (R91, R101). -/
def asmRefxs (count disp : Nat) : Option Instr :=
  asmCheck (decide (3 ≤ count) && decide (count ≤ 16) && dispLegal disp)
    (.lzxRefs (BitVec.ofNat 4 (count - 1)) (BitVec.ofNat 12 (disp - 1)))

/-- `refx count, disp` picks the form by the count (R102). -/
def asmRefx (count disp : Nat) : Option Instr :=
  if count ≤ 16 then asmRefxs count disp
  else if count ≤ 272 then asmRefx0 count disp
  else asmRefx1 count disp

/-- `copy b1, ..., bk` (R101): the flag byte and the data bytes. -/
def asmCopy (bs : List Byte) : Option (List Byte) :=
  asmCheck (decide (1 ≤ bs.length) && decide (bs.length ≤ 128))
    (encode .big (.rlCopy (BitVec.ofNat 7 (bs.length - 1))) ++ bs)

/-- `fill k, b` (R101): the flag byte and the data byte. -/
def asmFill (k : Nat) (b : Byte) : Option (List Byte) :=
  asmCheck (decide (3 ≤ k) && decide (k ≤ 130)) (encode .big (.rlFill (BitVec.ofNat 7 (k - 3))) ++ [b])

/-- A declared length fits its 24 bits (R82). -/
def lenLegal (len : Nat) : Bool := decide (len < 2 ^ 24)

/-- The bytes of a line in the order the stream is written for (R101, R102). -/
def assemble (o : ByteOrder) : AsmLine → Option (List Byte)
  | .hdrLzss len => asmCheck (lenLegal len) (encode o (.hdrLzss (BitVec.ofNat 24 len)))
  | .hdrLzx len => asmCheck (lenLegal len) (encode o (.hdrLzx (BitVec.ofNat 24 len)))
  | .hdrHuff depth len =>
    asmCheck (lenLegal len && decide (depth < 16)) (encode o (.hdrHuff (BitVec.ofNat 4 depth) (BitVec.ofNat 24 len)))
  | .hdrRl len => asmCheck (lenLegal len) (encode o (.hdrRl (BitVec.ofNat 24 len)))
  | .hdrDiff8 len => asmCheck (lenLegal len) (encode o (.hdrDiff8 (BitVec.ofNat 24 len)))
  | .hdrDiff16 len => asmCheck (lenLegal len) (encode o (.hdrDiff16 (BitVec.ofNat 24 len)))
  | .flags f => some (encode o (.lzFlags f))
  | .lit b => some (encode o (.lzssLit b))
  | .ref count disp => (asmRef count disp).map (encode o)
  | .refx0 count disp => (asmRefx0 count disp).map (encode o)
  | .refx1 count disp => (asmRefx1 count disp).map (encode o)
  | .refxs count disp => (asmRefxs count disp).map (encode o)
  | .refx count disp => (asmRefx count disp).map (encode o)
  | .copy bs => asmCopy bs
  | .fill k b => asmFill k b
  | .run k b => if k ≤ 2 then asmCopy (List.replicate k b) else asmFill k b
  | .tsize n => some (encode o (.huffTree n))
  | .node off lleaf rleaf =>
    asmCheck (decide (off < 64)) [BitVec.ofBool rleaf ++ (BitVec.ofBool lleaf ++ BitVec.ofNat 6 off)]
  | .leaf b => some (encode o (.huffLeaf b))
  | .path p => some (encode o (.huffPath p))
  | .d8 v => some (encode o (.diff8Delta v))
  | .d16 v => some (encode o (.diff16Delta v))
  | .bytes bs => some bs

/-- The bytes of a stream, line after line. -/
def assembleAll (o : ByteOrder) : List AsmLine → Option (List Byte)
  | [] => some []
  | l :: ls => (assemble o l).bind (fun bs => (assembleAll o ls).map (fun rest => bs ++ rest))

/-- `wr REG, v` (R103). -/
def hostWr (r : Reg) (v : Word) : Turn := .host (.regWrite r.addr 32 v)

/-- `rd REG` (R103). -/
def hostRd (r : Reg) : Turn := .host (.regRead r.addr 32)

/-- `start CODEC, cursor|offset[, ie]` (R103): a CTRL write of `(ie<<5)|(entry<<4)|(codec<<1)|1`. -/
def hostStart (codec : BitVec 3) (entry ie : Bool) : Turn := hostWr .ctrl (cmdWord codec entry ie)

/-- `src off: b, ...` (R103): host writes of SRC bytes. -/
def hostSrc : Nat → List Byte → List Turn
  | _, [] => []
  | off, b :: bs => .host (.srcWrite off b) :: hostSrc (off + 1) bs

/-- `wait` (R103) as a schedule: a number of turns of the block, a read of STATUS after each. -/
def hostWait : Nat → List Turn
  | 0 => []
  | n + 1 => .block :: hostRd .status :: hostWait n

end Sys2Proof.Machine
end

