-- ==== Sys2Proof/Machine/Instances.lean ====
section
/-! DEFINITION. A system of `N_INST` blocks that share nothing (20_memory.md R79, 60_exceptions.md R238,
70_reset_and_hazards.md R259). -/

namespace Sys2Proof.Machine

/-- One state for each instance; the length of the list is `N_INST` (00_scope.md R8). -/
abbrev System := List State

/-- A system of `n` instances right after reset. They are numbered apart, so that nothing makes the
unspecified values of two of them coincide (log entry 15). -/
def resetSystem (n : Nat) (maxSrc : Word) (outCap : BitVec 24) : System :=
  (List.range n).map (fun k => { State.resetWith maxSrc outCap with inst := k })

/-- Instance `k` takes a step; an index that names no instance changes nothing. -/
def stepInstance (k : Nat) (sys : System) : Host.Outcome System Fault Refusal :=
  match sys[k]? with
  | none => .next sys
  | some s =>
    match step s with
    | .next t => .next (sys.set k t)
    | .fault r => .fault r
    | .refused r => .refused r

end Sys2Proof.Machine
end

