-- ==== Sys2Proof/Safety.lean ====
section
/-! DEFINITION. The terms in which statements about the block are made: what is left unchanged, the
invariant of every step, and runs of the block alone. -/

namespace Sys2Proof.Machine

/-! ### What a step leaves unchanged -/

/-- The registers a host sees, CURSOR and the four that a completion writes apart (R21 to R31), and the
instance's number. -/
def SameSetup (s t : State) : Prop :=
  t.ctrlCodec = s.ctrlCodec ∧ t.ctrlEntry = s.ctrlEntry ∧ t.ctrlIe = s.ctrlIe ∧ t.ofsErr = s.ofsErr ∧
  t.bufSize = s.bufSize ∧ t.offset = s.offset ∧ t.order = s.order ∧ t.outCap = s.outCap ∧
  t.maxSrc = s.maxSrc ∧ t.inst = s.inst

/-- The registers that a job's acceptance and completion write: STATUS's job bits, OUT_LEN, OUT_COUNT,
ERR_OFFSET. -/
def SameReport (s t : State) : Prop :=
  t.done = s.done ∧ t.err = s.err ∧ t.errCode = s.errCode ∧ t.outLen = s.outLen ∧
  t.outCount = s.outCount ∧ t.errOffset = s.errOffset

/-- The latched job parameters (R36). -/
def SameLatch (s t : State) : Prop :=
  t.jcodec = s.jcodec ∧ t.jentry = s.jentry ∧ t.jorder = s.jorder ∧ t.saved = s.saved

/-- Every byte of SRC (R33). -/
def SameSrc (s t : State) : Prop := ∀ i, srcByte t i = srcByte s i

/-- Every byte of OUT outside the `n` bytes from `k` on (R35). -/
def SameOutExcept (k n : Nat) (s t : State) : Prop :=
  ∀ i, i < k ∨ k + n ≤ i → outRead t i = outRead s i

/-- Every byte of TREE from `n` on (R34). -/
def SameTreeFrom (n : Nat) (s t : State) : Prop := ∀ i, n ≤ i → treeByte t i = treeByte s i

/-- Every byte of OUT is unspecified: a free value of a new draw (60_exceptions.md R228, R252). -/
def ForgottenOut (s t : State) : Prop := ∀ i, outRead t i = Config.outByte s.inst (s.outDraw + 1) i

/-- The header word and the declared length (R37). -/
def SameHeader (s t : State) : Prop := t.W = s.W ∧ t.L = s.L

/-- The LZ working state (R37). -/
def SameLz (s t : State) : Prop := t.flags = s.flags ∧ t.fbit = s.fbit

/-- The Huffman working state (R37). -/
def SameHuff (s t : State) : Prop :=
  t.D = s.D ∧ t.TS = s.TS ∧ t.word = s.word ∧ t.bitsLeft = s.bitsLeft ∧ t.wordOff = s.wordOff ∧
  t.a = s.a ∧ t.steps = s.steps ∧ t.acc8 = s.acc8 ∧ t.nsym = s.nsym

/-- The Diff working state (R37). -/
def SameDiff (s t : State) : Prop := t.M = s.M ∧ t.acc = s.acc

/-- The environment's schedule and the host's read data (the model's own fields). -/
def SameHostSide (s t : State) : Prop := t.turns = s.turns ∧ t.rdata = s.rdata ∧ t.freeCtr = s.freeCtr

/-- What no body element that goes on changes: the set-up and report registers, the latch, the phase,
SRC, the header, and the host's side. -/
def SameOutside (s t : State) : Prop :=
  SameSetup s t ∧ SameReport s t ∧ SameLatch s t ∧ t.phase = s.phase ∧ SameSrc s t ∧ SameHeader s t ∧
  SameHostSide s t

/-- The record of a failed job (60_exceptions.md R229, R118): the error's code and offset, the output
count `n`, CURSOR restored in the offset form and at `cur` in the cursor form (R117); every byte of OUT a
new free value (R228); the set-up registers, DONE, OUT_LEN, the latch, SRC, the host's side and every byte of
TREE from `tree` on as they were: all of TREE (`tree` = 0), but for a truncated tree, which has loaded its size
byte (`tree` = 1). -/
def FailedJob (tree : Nat) (code : BitVec 4) (off cur : Word) (n : Nat) (s t : State) : Prop :=
  t.phase = .idle ∧ t.err = true ∧ t.done = s.done ∧ t.errCode = code ∧ t.errOffset = off ∧
  t.outCount = BitVec.ofNat 25 n ∧ t.cursor = (if s.jentry then s.saved else cur) ∧
  t.outLen = s.outLen ∧ SameSetup s t ∧ SameLatch s t ∧ SameSrc s t ∧ SameHostSide s t ∧
  SameTreeFrom tree s t ∧ ForgottenOut s t

/-! ### The fields of the back-references, read from 30_encoding.md R98 -/

/-- The length in bytes, the count and the displacement of a back-reference. -/
def refFields : Instr → Option (Nat × Nat × Nat)
  | .lzssRef c d => some (2, c.toNat + 3, d.toNat + 1)
  | .lzxRef0 c d => some (3, c.toNat + 17, d.toNat + 1)
  | .lzxRef1 c d => some (4, c.toNat + 273, d.toNat + 1)
  | .lzxRefs ind d => some (2, ind.toNat + 1, d.toNat + 1)
  | _ => none

/-- The LZX back-references (42_lz.md R138 to R140). -/
def isLzxRef : Instr → Bool
  | .lzxRef0 _ _ => true
  | .lzxRef1 _ _ => true
  | .lzxRefs _ _ => true
  | _ => false

/-- The commands with one of the five codecs, with CODEC, ENTRY and IE (R81). -/
def startFields : Instr → Option (BitVec 3 × Bool × Bool)
  | .startLzss e i => some (0#3, e, i)
  | .startLzx e i => some (1#3, e, i)
  | .startHuff e i => some (2#3, e, i)
  | .startRl e i => some (3#3, e, i)
  | .startDiff e i => some (4#3, e, i)
  | _ => none

/-- The commands with a reserved codec, with CODEC, ENTRY and IE (R124). -/
def reservedFields : Instr → Option (BitVec 3 × Bool × Bool)
  | .startRsvd5 e i => some (5#3, e, i)
  | .startRsvd6 e i => some (6#3, e, i)
  | .startRsvd7 e i => some (7#3, e, i)
  | _ => none

/-- The commands, with CODEC, ENTRY and IE (R81). -/
def commandFields (i : Instr) : Option (BitVec 3 × Bool × Bool) := startFields i <|> reservedFields i

/-- The headers, with the codec and the declared length (R82). -/
def headerFields : Instr → Option (Codec × BitVec 24)
  | .hdrLzss len => some (.lzss, len)
  | .hdrLzx len => some (.lzx, len)
  | .hdrHuff _ len => some (.huff, len)
  | .hdrRl len => some (.rl, len)
  | .hdrDiff8 len => some (.diff, len)
  | .hdrDiff16 len => some (.diff, len)
  | _ => none

/-- The type check of R82 on a header word. -/
def typeMatches : Codec → Word → Bool
  | .lzss, W => W.toNat / 2 ^ 24 == 0x10
  | .lzx, W => W.toNat / 2 ^ 24 == 0x11
  | .huff, W => W.toNat / 2 ^ 28 == 0x2
  | .rl, W => W.toNat / 2 ^ 24 == 0x30
  | .diff, W => W.toNat / 2 ^ 4 % 16 == 0x8

/-! ### Whose turn it is -/

/-- The block's turn with `rest` of the schedule after it. -/
def BlockTurn (s : State) (rest : List Turn) : Prop :=
  s.turns = .block :: rest ∨ s.turns = [] ∧ rest = []

/-- The host's turn for one operation, with `rest` of the schedule after it. -/
def HostTurn (s : State) (op : HostOp) (rest : List Turn) : Prop := s.turns = .host op :: rest

/-- The state with the turn taken off the schedule. -/
def takeTurn (rest : List Turn) (s : State) : State := { s with turns := rest }

/-! ### The invariant of every step -/

/-- The job has not had its header accepted (R110 to R115). -/
abbrev BeforeHeader (s : State) : Prop := s.pos = .entry ∨ s.pos = .header

/-- What holds of a running job. -/
structure JobInv (s : State) : Prop where
  /-- once the codec check is passed the latched codec is one of the five (R111) -/
  codecLegal : s.pos ≠ .entry → (Codec.ofBits s.jcodec).isSome
  /-- before the entry form CURSOR is as it was at START (R112) -/
  entryFresh : s.pos = .entry → s.cursor = s.saved
  /-- the cursor saved at START lies in the buffer (R24, R36) -/
  savedLe : s.saved.toNat ≤ s.bufSize.toNat
  /-- before the header nothing is declared and nothing is written (R110) -/
  headerFresh : BeforeHeader s → s.out = 0 ∧ s.outLen = 0#24
  /-- after it OUT_LEN is the declared length, which fits OUT, and the index is within it (R115, R116) -/
  lengthHeld : ¬ BeforeHeader s → s.outLen = s.L ∧ s.L.toNat ≤ s.outCap.toNat ∧ s.out ≤ s.L.toNat
  /-- every byte below the index was written by the job (R67) -/
  written : ¬ BeforeHeader s → ∀ i < s.out, (s.outMem.read i).isSome
  /-- a tree or a leaf is read in a Huffman job only (R104) -/
  huffPos : s.pos = .tree ∨ s.pos = .leaf → s.jcodec = Codec.huff.bits
  /-- at most eight flag bits are left over (R37) -/
  flagBits : s.pos = .body → s.jcodec = Codec.lzss.bits ∨ s.jcodec = Codec.lzx.bits → s.fbit ≤ 8
  /-- the depth passed its check (R161) -/
  depthOk : ¬ BeforeHeader s → s.jcodec = Codec.huff.bits → depthLegal s.D = true
  /-- the tree is loaded, and the traversal is inside it at a byte other than TSIZE (R163, R165) -/
  treeOk : s.pos = .body ∨ s.pos = .leaf → s.jcodec = Codec.huff.bits →
    2 ≤ s.TS ∧ s.TS ≤ 512 ∧ 1 ≤ s.a ∧ s.a < s.TS ∧ ∀ i < s.TS, (s.treeMem.read i).isSome
  /-- the bits left and the bits of the current symbol come from one path word (R164) -/
  bitsOk : s.pos = .body ∨ s.pos = .leaf → s.jcodec = Codec.huff.bits → s.bitsLeft + s.steps ≤ 32
  /-- the output byte in progress is not full (R168) -/
  packOk : s.pos = .body ∨ s.pos = .leaf → s.jcodec = Codec.huff.bits → s.nsym < symbolsPerByte s.D
  /-- inside a symbol, or inside an output byte, there is output left to write (R169) -/
  symbolNeeded : s.pos = .body ∨ s.pos = .leaf → s.jcodec = Codec.huff.bits →
    (s.pos = .leaf ∨ 0 < s.steps ∨ 0 < s.nsym) → s.out < s.L.toNat
  /-- the Diff mode passed its check (R200) -/
  modeOk : s.pos = .body → s.jcodec = Codec.diff.bits → s.M = 1#4 ∨ s.M = 2#4

/-- What holds of every state a run from reset reaches, and is kept by every step. -/
structure Inv (s : State) : Prop where
  /-- the memories are in canonical form -/
  srcWf : s.srcMem.wf
  outWf : s.outMem.wf
  treeWf : s.treeMem.wf
  /-- no memory lists an address past its end (R33 to R35) -/
  srcIn : ∀ c ∈ s.srcMem, c.1 < s.maxSrc.toNat
  outIn : ∀ c ∈ s.outMem, c.1 < s.outCap.toNat
  treeIn : ∀ c ∈ s.treeMem, c.1 < 512
  /-- BUF_SIZE is at most MAX_SRC (R25) -/
  bufLe : s.bufSize.toNat ≤ s.maxSrc.toNat
  /-- CURSOR is at most BUF_SIZE (R24) -/
  cursorLe : s.cursor.toNat ≤ s.bufSize.toNat
  /-- DONE and ERR are never both 1 (R23) -/
  oneOutcome : ¬ (s.done = true ∧ s.err = true)
  /-- the error codes 11 to 15 are never written (R222) -/
  codeLegal : s.errCode.toNat ≤ 10
  /-- while a job runs the last job's report is cleared (R23, R43, R110) -/
  busyClear : s.phase = .run →
    s.done = false ∧ s.err = false ∧ s.errCode = 0#4 ∧ s.errOffset = 0#32 ∧ s.outCount = 0#25
  /-- an error has a code (R222) -/
  errHasCode : s.err = true → s.errCode ≠ 0#4
  /-- a success reports no error and the whole length (R29, R229) -/
  doneClean : s.done = true →
    s.errCode = 0#4 ∧ s.errOffset = 0#32 ∧ s.outCount.toNat = s.outLen.toNat
  /-- no more bytes are reported than were declared (R29, R116) -/
  countLe : s.outCount.toNat ≤ s.outLen.toNat
  /-- a running job -/
  job : s.phase = .run → JobInv s

/-! ### Runs of the block alone -/

/-- `n` steps; none when one of them faults or is refused. -/
def stepN : Nat → State → Option State
  | 0, s => some s
  | n + 1, s =>
    match step s with
    | .next t => stepN n t
    | .fault _ => none
    | .refused _ => none

/-- Where in SRC a running job reads next: at OFFSET when its offset form is still to come (R112). -/
def streamOffset (s : State) : Nat :=
  if s.pos = .entry ∧ s.jentry = true then s.offset.toNat else s.cursor.toNat

/-- A bound on the turns a running job still takes (log entry 9): each byte of the buffer left counts 17
(a path word of 4 bytes is one load, at most 32 bits and 32 leaves), each unconsumed bit 2, a leaf not yet
read 1, an entry form not yet applied 1, the completion 1. -/
def jobBound (s : State) : Nat :=
  17 * (s.bufSize.toNat - streamOffset s) + 2 * s.bitsLeft + (if s.pos = .leaf then 1 else 0) +
    (if s.pos = .entry then 1 else 0) + 1

/-- The elements whose output bytes are copied or replicated (70_reset_and_hazards.md R254). -/
def copiesBytes : Instr → Bool
  | .rlCopy _ => true
  | .rlFill _ => true
  | i => (refFields i).isSome

/-- The element steps of R254 that a turn of a running block from `s` to `t` counts for (log entry 9): one for
an element, and one for each byte it copies or replicates; none for a path-word load or a leaf, which R164 and
R165 make part of a traversal step; one for the entry form, an error or the completion. -/
def elementStepsOf (s t : State) : Nat :=
  if s.pos = .entry ∨ bodyDone s = true then 1
  else
    match fetch s with
    | .element (.huffPath _) => 0
    | .element (.huffLeaf _) => 0
    | .element i => 1 + (if copiesBytes i then t.out - s.out else 0)
    | .failed _ _ _ => 1

/-- The element steps of the next `n` turns (R254). -/
def elementSteps : Nat → State → Nat
  | 0, _ => 0
  | n + 1, s =>
    match step s with
    | .next t => elementStepsOf s t + elementSteps n t
    | .fault _ => 0
    | .refused _ => 0

/-- The running sums of the bytes of SRC from `c` on, mod 2^8, starting from `v` (45_diff.md R201). -/
def runningSum (s : State) (c : Nat) (v : Byte) : Nat → Byte
  | 0 => v + srcByte s c
  | k + 1 => runningSum s c v k + srcByte s (c + (k + 1))

/-- Leaves read one after another (43_huffman.md R167, R168). -/
def execLeaves : List Byte → State → Option State
  | [], s => some s
  | b :: bs, s =>
    match exec (.huffLeaf b) s with
    | .next t => execLeaves bs t
    | .fault _ => none
    | .refused _ => none

/-- The number a list of digits of `D` bits stands for, first digit most significant (R168). -/
def packedValue (D : Nat) (bs : List Byte) : Nat :=
  bs.foldl (fun v b => v * 2 ^ D + b.toNat % 2 ^ D) 0

end Sys2Proof.Machine
end

