-- ==== Sys2Proof/Certificates/Slice0/Obligations.lean ====
section
/-! DEFINITION. The statements about the block, for the provers. -/

open Sys2Proof Sys2Proof.Machine

/-! ### Encoding -/

/-- Every well-formed element is read back from its own bytes, whatever follows them (R82 to R97, R104). -/
def Obligations.DecodeInvertsEncode : Prop :=
  ∀ (i : Instr) (o : ByteOrder) (rest : List Byte), i.wf = true →
    decode i.slot o (encode o i ++ rest) = .ok i

/-- Whatever the decoder accepts in a slot of the stream is well formed, belongs to that slot, and is
written by exactly the bytes it was read from (R99, R104). -/
def Obligations.EncodeInvertsDecode : Prop :=
  ∀ (slot : Slot) (o : ByteOrder) (bs : List Byte) (i : Instr), slot ≠ .cmd →
    decode slot o bs = .ok i → i.wf = true ∧ i.slot = slot ∧ ∃ rest, bs = encode o i ++ rest

/-- A few words written from the encodings of file 30 decode to what they stand for. -/
def Obligations.SpecWordsDecode : Prop :=
  decodeCmd 0x39#32 = .ok (.startDiff true true) ∧
  decodeCmd 0x0B#32 = .ok (.startRsvd5 false false) ∧
  decode (.hdr .lzss) .big [0x10#8, 0x00#8, 0x00#8, 0x07#8] = .ok (.hdrLzss 7#24) ∧
  decode (.hdr .huff) .little [0x28#8, 0x00#8, 0x00#8, 0x04#8] = .error .typeMismatch ∧
  decode (.hdr .diff) .big [0x00#8, 0x00#8, 0x07#8, 0x81#8] = .ok (.hdrDiff8 7#24) ∧
  decode (.lzRef false) .big [0x60#8, 0x00#8] = .ok (.lzssRef 6#4 0#12) ∧
  decode (.lzRef true) .big [0x0F#8, 0xF0#8, 0x01#8] = .ok (.lzxRef0 0xFF#8 1#12) ∧
  decode .rlRun .big [0x80#8] = .ok (.rlFill 0#7) ∧
  decode .hufPath .big [0x40#8, 0x00#8, 0x00#8, 0x00#8] = .ok (.huffPath 0x40000000#32) ∧
  decode .delta16 .little [0x34#8, 0x12#8] = .ok (.diff16Delta 0x1234#16)

/-- R81: bit 0 of a CTRL value makes it a command, bits 3:1 are its codec, bit 4 ENTRY, bit 5 IE, and the
bits above are ignored; codecs 5, 6 and 7 are the reserved commands. -/
def Obligations.CommandWordFields : Prop :=
  ∀ v : Word,
    (v.getLsbD 0 = false → decodeCmd v = .error .notStart) ∧
    (v.getLsbD 0 = true → (v.extractLsb' 1 3).toNat ≤ 4 →
      ∃ i, decodeCmd v = .ok i ∧ startFields i = some (v.extractLsb' 1 3, v.getLsbD 4, v.getLsbD 5)) ∧
    (v.getLsbD 0 = true → 5 ≤ (v.extractLsb' 1 3).toNat →
      ∃ i, decodeCmd v = .ok i ∧ reservedFields i = some (v.extractLsb' 1 3, v.getLsbD 4, v.getLsbD 5))

/-- R102: `refx` picks the form of a back-reference that holds the count and the displacement asked for,
over the whole range of both. -/
def Obligations.AssembledReferenceHoldsItsFields : Prop :=
  ∀ count disp : Nat, 3 ≤ count → count ≤ 65808 → 1 ≤ disp → disp ≤ 4096 →
    ∃ i n, asmRefx count disp = some i ∧ i.wf = true ∧ isLzxRef i = true ∧
      refFields i = some (n, count, disp) ∧
      n = (if count ≤ 16 then 2 else if count ≤ 272 then 3 else 4)

/-! ### What a step does -/

/-- A turn of the block at an element that decodes is the meaning of that element, on the state with the
turn taken; a header, a path word and a 16-bit delta decode from the value that Read32 or Read16 answers
(R63). That a turn is exactly one element, and that the turns are scheduled, are the model's choices (log
entries 9 and 1). -/
def Obligations.StepRunsDecodedElement : Prop :=
  ∀ (s : State) (rest : List Turn) (c : Codec) (i : Instr), BlockTurn s rest → s.phase = .run →
    s.pos ≠ .entry → bodyDone s = false → Codec.ofBits s.jcodec = some c →
    ¬ (slotOf c s = .hufPath ∧ s.steps ≠ 0) →
    decode (slotOf c s) s.jorder (elementBytes s (slotOf c s)) = .ok i →
    i.wf = true ∧ step s = exec i (takeTurn rest s) ∧
      (∀ d, slotOf c s = .hdr d → ∃ W s1, read32 s = .ok W s1 ∧ decodeHeader d W = .ok i) ∧
      (slotOf c s = .hufPath → ∃ p s1, read32 s = .ok p s1 ∧ i = .huffPath p) ∧
      (slotOf c s = .delta16 → ∃ d s1, read16 s = .ok d s1 ∧ i = .diff16Delta d)

/-- The host's write of a command word to CTRL is the meaning of the command, on the state with the turn
taken. -/
def Obligations.StepRunsCommand : Prop :=
  ∀ (s : State) (rest : List Turn) (v : Word) (i : Instr), HostTurn s (.regWrite 0 32 v) rest →
    decodeCmd v = .ok i → step s = exec i (takeTurn rest s)

/-! ### Commands -/

/-- R110 to R112: an accepted START, of a reserved codec too, latches the job and clears the report; the next
turn of the block, for one of the five codecs whose entry form succeeds, stands at the header, at OFFSET in the
offset form and at CURSOR in the cursor form, and changes nothing else. That the output index is 0 from START on
is log entry 8; that the entry form is a turn of its own is log entry 9. -/
def Obligations.StartLatchesJob : Prop :=
  ∀ (i : Instr) (codec : BitVec 3) (e ie : Bool) (s : State), commandFields i = some (codec, e, ie) →
    s.phase = .idle →
    ∃ t, exec i s = .next t ∧ t.phase = .run ∧ t.pos = .entry ∧
      t.ctrlCodec = codec ∧ t.ctrlEntry = e ∧ t.ctrlIe = ie ∧
      t.jcodec = codec ∧ t.jentry = e ∧ t.jorder = s.order ∧ t.saved = s.cursor ∧
      t.done = false ∧ t.err = false ∧ t.errCode = 0#4 ∧ t.outLen = 0#24 ∧ t.outCount = 0#25 ∧
      t.errOffset = 0#32 ∧ t.cursor = s.cursor ∧ t.out = 0 ∧
      t.ofsErr = s.ofsErr ∧ t.bufSize = s.bufSize ∧ t.offset = s.offset ∧ t.order = s.order ∧
      t.outCap = s.outCap ∧ t.maxSrc = s.maxSrc ∧ t.inst = s.inst ∧ SameSrc s t ∧ SameOutExcept 0 0 s t ∧
      SameTreeFrom 0 s t ∧ SameHeader s t ∧ SameLz s t ∧ SameHuff s t ∧ SameDiff s t ∧ SameHostSide s t ∧
      ∀ rest, BlockTurn s rest → codec.toNat ≤ 4 → (e = true → s.offset.toNat < s.bufSize.toNat) →
        step t = .next
          { takeTurn rest t with pos := .header, cursor := if e then s.offset else s.cursor }

/-- R112: in the offset form an OFFSET at or past BUF_SIZE ends the job with BOUNDS(OFFSET) in the turn of the
block after its START, CURSOR as it was; that OUT_COUNT is 0 is log entry 8, and that the failure is a turn of
its own is log entry 9. -/
def Obligations.StartOffsetPastBufferFails : Prop :=
  ∀ (i : Instr) (codec : BitVec 3) (ie : Bool) (s : State) (rest : List Turn),
    startFields i = some (codec, true, ie) → s.phase = .idle → BlockTurn s rest →
    s.bufSize.toNat ≤ s.offset.toNat →
    ∃ t u, exec i s = .next t ∧ step t = .next u ∧
      u.phase = .idle ∧ u.err = true ∧ u.done = false ∧ u.errCode = 1#4 ∧
      u.errOffset = s.offset ∧ u.cursor = s.cursor ∧ u.outLen = 0#24 ∧ u.outCount = 0#25 ∧
      u.ctrlCodec = codec ∧ u.ctrlEntry = true ∧ u.ctrlIe = ie ∧ u.ofsErr = s.ofsErr ∧
      u.bufSize = s.bufSize ∧ u.offset = s.offset ∧ u.order = s.order ∧ u.outCap = s.outCap ∧
      u.maxSrc = s.maxSrc ∧ u.inst = s.inst ∧ SameSrc s u ∧ SameTreeFrom 0 s u ∧
      SameHostSide (takeTurn rest s) u ∧ ForgottenOut s u

/-- R110, R111, R124, R225: a START with a reserved codec ends with BAD_CODEC at CURSOR in the turn of the block
after it, whatever the entry form, nothing read, the codec stored. That OUT_COUNT is 0 before a header is log
entry 8, and that the failure is a turn of its own is log entry 9. -/
def Obligations.ReservedCodecFails : Prop :=
  ∀ (i : Instr) (codec : BitVec 3) (e ie : Bool) (s : State) (rest : List Turn),
    reservedFields i = some (codec, e, ie) → s.phase = .idle → BlockTurn s rest →
    ∃ t u, exec i s = .next t ∧ step t = .next u ∧
      u.phase = .idle ∧ u.err = true ∧ u.done = false ∧ u.errCode = 10#4 ∧
      u.errOffset = s.cursor ∧ u.cursor = s.cursor ∧ u.outLen = 0#24 ∧ u.outCount = 0#25 ∧
      u.ctrlCodec = codec ∧ u.ctrlEntry = e ∧ u.ctrlIe = ie ∧ u.ofsErr = s.ofsErr ∧
      u.bufSize = s.bufSize ∧ u.offset = s.offset ∧ u.order = s.order ∧ u.outCap = s.outCap ∧
      u.maxSrc = s.maxSrc ∧ u.inst = s.inst ∧ SameSrc s u ∧ SameTreeFrom 0 s u ∧
      SameHostSide (takeTurn rest s) u ∧ ForgottenOut s u

/-! ### Headers -/

/-- R114, R115, R130, R131, R160, R161, R190, R200: a header whose length fits OUT is accepted: 4 bytes
consumed, `W` the word they are the encoding of, `L` and OUT_LEN the length, the output index 0, and the
codec's own fields set. -/
def Obligations.HeaderAccepted : Prop :=
  ∀ (i : Instr) (c : Codec) (len : BitVec 24) (s : State), headerFields i = some (c, len) →
    (∀ d, i = .hdrHuff d len → d = 1#4 ∨ d = 2#4 ∨ d = 4#4 ∨ d = 8#4) →
    len.toNat ≤ s.outCap.toNat →
    ∃ t, exec i s = .next t ∧ t.cursor = s.cursor + 4#32 ∧ encode .big i = bytes32 .big t.W ∧
      t.L = len ∧ t.outLen = len ∧ t.out = 0 ∧
      t.pos = (if c = .huff then .tree else .body) ∧
      t.fbit = (if c = .lzss ∨ c = .lzx then 0 else s.fbit) ∧
      (∀ d, i = .hdrHuff d len → t.D = d) ∧ (c ≠ .huff → t.D = s.D) ∧
      (i = .hdrDiff8 len → t.M = 1#4 ∧ t.acc = 0#16) ∧ (i = .hdrDiff16 len → t.M = 2#4 ∧ t.acc = 0#16) ∧
      (c ≠ .diff → SameDiff s t) ∧
      SameSetup s t ∧ t.done = s.done ∧ t.err = s.err ∧ t.errCode = s.errCode ∧
      t.outCount = s.outCount ∧ t.errOffset = s.errOffset ∧ SameLatch s t ∧ t.phase = s.phase ∧
      SameSrc s t ∧ SameOutExcept 0 0 s t ∧ SameTreeFrom 0 s t ∧ t.flags = s.flags ∧ t.TS = s.TS ∧
      t.word = s.word ∧ t.bitsLeft = s.bitsLeft ∧ t.wordOff = s.wordOff ∧ t.a = s.a ∧
      t.steps = s.steps ∧ t.acc8 = s.acc8 ∧ t.nsym = s.nsym ∧ SameHostSide s t

/-- R115, R224: a header whose length does not fit OUT ends the job with CAPACITY at the header. -/
def Obligations.HeaderOverCapacityFails : Prop :=
  ∀ (i : Instr) (c : Codec) (len : BitVec 24) (s : State), headerFields i = some (c, len) →
    (∀ d, i = .hdrHuff d len → d = 1#4 ∨ d = 2#4 ∨ d = 4#4 ∨ d = 8#4) →
    s.outCap.toNat < len.toNat →
    ∃ t, exec i s = .next t ∧ FailedJob 0 9#4 s.cursor (s.cursor + 4#32) s.out s t

/-- R161: a depth other than 1, 2, 4 and 8 ends the job with DEPTH at the header, whatever the length. -/
def Obligations.HuffmanDepthFails : Prop :=
  ∀ (d : BitVec 4) (len : BitVec 24) (s : State), d ≠ 1#4 → d ≠ 2#4 → d ≠ 4#4 → d ≠ 8#4 →
    ∃ t, exec (.hdrHuff d len) s = .next t ∧ FailedJob 0 3#4 s.cursor (s.cursor + 4#32) s.out s t

/-- R114, R130, R131, R160, R190, R200: a header word of another type ends the job with TYPE at the
header, after its 4 bytes. -/
def Obligations.HeaderTypeMismatchFails : Prop :=
  ∀ (s s1 : State) (rest : List Turn) (c : Codec) (W : Word), BlockTurn s rest → s.phase = .run →
    s.pos = .header → Codec.ofBits s.jcodec = some c → read32 s = .ok W s1 → typeMatches c W = false →
    ∃ t, step s = .next t ∧
      FailedJob 0 2#4 s.cursor (s.cursor + 4#32) s.out (takeTurn rest s) t

/-- R200: a Diff header of the right type with a mode other than 1 and 2 ends the job with MODE at the
header. -/
def Obligations.DiffModeFails : Prop :=
  ∀ (s s1 : State) (rest : List Turn) (W : Word), BlockTurn s rest → s.phase = .run →
    s.pos = .header → Codec.ofBits s.jcodec = some .diff → read32 s = .ok W s1 →
    typeMatches .diff W = true → W.toNat % 16 ≠ 1 → W.toNat % 16 ≠ 2 →
    ∃ t, step s = .next t ∧
      FailedJob 0 4#4 s.cursor (s.cursor + 4#32) s.out (takeTurn rest s) t

/-! ### Bounds -/

/-- R61 to R65: each read completes and advances CURSOR by its width, its value the bytes of SRC in the
job's order, exactly when it lies in the buffer; else it answers the offset it began at. -/
def Obligations.ReadsAreAtomic : Prop :=
  ∀ (s : State) (n : Nat),
    (s.cursor.toNat + n ≤ s.bufSize.toNat → ∃ bs t, readRange n s = .ok bs t ∧ bs.length = n ∧
      (∀ k < n, bs[k]? = some (srcByte s (s.cursor.toNat + k))) ∧
      t = { s with cursor := t.cursor } ∧ t.cursor.toNat = s.cursor.toNat + n) ∧
    (s.bufSize.toNat < s.cursor.toNat + n → readRange n s = .bounds s.cursor) ∧
    (s.cursor.toNat + 4 ≤ s.bufSize.toNat → ∃ v t, read32 s = .ok v t ∧
      t = { s with cursor := t.cursor } ∧ t.cursor.toNat = s.cursor.toNat + 4 ∧
      ∀ k < 4, v.extractLsb' (8 * k) 8 =
        srcByte s (s.cursor.toNat + (if s.jorder = .big then 3 - k else k))) ∧
    (s.bufSize.toNat < s.cursor.toNat + 4 → read32 s = .bounds s.cursor) ∧
    (s.cursor.toNat + 2 ≤ s.bufSize.toNat → ∃ v t, read16 s = .ok v t ∧
      t = { s with cursor := t.cursor } ∧ t.cursor.toNat = s.cursor.toNat + 2 ∧
      ∀ k < 2, v.extractLsb' (8 * k) 8 =
        srcByte s (s.cursor.toNat + (if s.jorder = .big then 1 - k else k))) ∧
    (s.bufSize.toNat < s.cursor.toNat + 2 → read16 s = .bounds s.cursor) ∧
    (s.cursor.toNat + 1 ≤ s.bufSize.toNat → ∃ t, read8 s = .ok (srcByte s s.cursor.toNat) t ∧
      t = { s with cursor := t.cursor } ∧ t.cursor.toNat = s.cursor.toNat + 1) ∧
    (s.bufSize.toNat < s.cursor.toNat + 1 → read8 s = .bounds s.cursor)

/-- R63, R65, R221: a header, a path word or a 16-bit delta that does not lie whole in the buffer ends the
job with BOUNDS at its first byte, and no part of it is read. -/
def Obligations.MultiByteReadIsAllOrNothing : Prop :=
  ∀ (s : State) (rest : List Turn) (c : Codec) (n : Nat), BlockTurn s rest → s.phase = .run →
    s.pos ≠ .entry → bodyDone s = false → Codec.ofBits s.jcodec = some c →
    ((∃ d, slotOf c s = .hdr d) ∧ n = 4 ∨ slotOf c s = .hufPath ∧ s.steps = 0 ∧ n = 4 ∨
      slotOf c s = .delta16 ∧ n = 2) →
    s.bufSize.toNat < s.cursor.toNat + n →
    ∃ t, step s = .next t ∧ FailedJob 0 1#4 s.cursor s.cursor s.out (takeTurn rest s) t

/-- R61, R62, R221: with no byte left, a flag byte, a literal, a back-reference, a run, a tree and an 8-bit
delta end the job with BOUNDS at CURSOR, which does not move. -/
def Obligations.MissingElementFails : Prop :=
  ∀ (s : State) (rest : List Turn) (c : Codec), BlockTurn s rest → s.phase = .run →
    s.pos ≠ .entry → bodyDone s = false → Codec.ofBits s.jcodec = some c →
    (slotOf c s = .lzFlag ∨ (∃ x, slotOf c s = .lzLit x) ∨ (∃ x, slotOf c s = .lzRef x) ∨
      slotOf c s = .rlRun ∨ slotOf c s = .hufTree ∨ slotOf c s = .delta8) →
    s.bufSize.toNat ≤ s.cursor.toNat →
    ∃ t, step s = .next t ∧ FailedJob 0 1#4 s.cursor s.cursor s.out (takeTurn rest s) t

/-- R132, R136, R138 to R140: a back-reference cut by the end of the buffer ends the job with BOUNDS at the
missing byte, CURSOR after the bytes that were read. -/
def Obligations.TruncatedReferenceFails : Prop :=
  ∀ (s : State) (rest : List Turn) (c : Codec) (ext : Bool) (avail need : Nat), BlockTurn s rest →
    s.phase = .run → s.pos ≠ .entry → bodyDone s = false → Codec.ofBits s.jcodec = some c →
    slotOf c s = .lzRef ext →
    s.cursor.toNat + avail = s.bufSize.toNat → 1 ≤ avail → avail < need →
    need = (if ext = false then 2
      else if (srcByte s s.cursor.toNat).toNat / 16 = 0 then 3
      else if (srcByte s s.cursor.toNat).toNat / 16 = 1 then 4 else 2) →
    ∃ t, step s = .next t ∧ FailedJob 0 1#4 s.bufSize s.bufSize s.out (takeTurn rest s) t

/-! ### LZ -/

/-- R133: a flag byte gives eight flag bits and consumes one byte. -/
def Obligations.FlagByteLoads : Prop :=
  ∀ (f : Byte) (s : State),
    ∃ t, exec (.lzFlags f) s = .next t ∧ t.flags = f ∧ t.fbit = 8 ∧ t.cursor = s.cursor + 1#32 ∧
      t.pos = s.pos ∧ t.out = s.out ∧ SameOutside s t ∧ SameOutExcept 0 0 s t ∧ SameTreeFrom 0 s t ∧
      SameHuff s t ∧ SameDiff s t

/-- R134, R135: a literal writes its byte at the output index, in LZSS and in LZX, and nothing else. -/
def Obligations.LiteralWritesItsByte : Prop :=
  ∀ (i : Instr) (b : Byte) (s : State), (i = .lzssLit b ∨ i = .lzxLit b) →
    ∃ t, exec i s = .next t ∧ outRead t s.out = b ∧ t.out = s.out + 1 ∧ t.cursor = s.cursor + 1#32 ∧
      t.fbit = s.fbit - 1 ∧ t.flags = s.flags ∧ t.pos = s.pos ∧ SameOutside s t ∧
      SameOutExcept s.out 1 s t ∧ SameTreeFrom 0 s t ∧ SameHuff s t ∧ SameDiff s t

/-- R136 to R140: a back-reference that begins in the output and does not overrun copies `count` bytes;
byte `k` is byte `k mod disp` of the `disp` bytes before the index, as they were before the copy. -/
def Obligations.BackReferenceCopies : Prop :=
  ∀ (i : Instr) (n count disp : Nat) (s : State), refFields i = some (n, count, disp) →
    disp ≤ s.out → s.out + count ≤ s.L.toNat →
    ∃ t, exec i s = .next t ∧ t.out = s.out + count ∧
      (∀ k < count, outRead t (s.out + k) = outRead s (s.out - disp + k % disp)) ∧
      t.cursor = s.cursor + BitVec.ofNat 32 n ∧ t.fbit = s.fbit - 1 ∧ t.flags = s.flags ∧
      t.pos = s.pos ∧ SameOutside s t ∧ SameOutExcept s.out count s t ∧ SameTreeFrom 0 s t ∧
      SameHuff s t ∧ SameDiff s t

/-- R136, R141: an overrunning LZSS back-reference is clamped to the bytes that remain, and ends the body
without an error. -/
def Obligations.LzssOverrunClamps : Prop :=
  ∀ (c : BitVec 4) (d : BitVec 12) (s : State), d.toNat + 1 ≤ s.out → s.out ≤ s.L.toNat →
    s.L.toNat < s.out + (c.toNat + 3) →
    ∃ t, exec (.lzssRef c d) s = .next t ∧ t.out = s.L.toNat ∧
      (∀ k, s.out + k < s.L.toNat →
        outRead t (s.out + k) = outRead s (s.out - (d.toNat + 1) + k % (d.toNat + 1))) ∧
      t.cursor = s.cursor + 2#32 ∧ t.fbit = s.fbit - 1 ∧ t.flags = s.flags ∧ t.pos = s.pos ∧
      SameOutside s t ∧ SameOutExcept s.out (s.L.toNat - s.out) s t ∧ SameTreeFrom 0 s t ∧
      SameHuff s t ∧ SameDiff s t

/-- R138 to R141: an overrunning LZX back-reference ends the job with OVERRUN at its first byte, and none
of its bytes is counted. -/
def Obligations.LzxOverrunFails : Prop :=
  ∀ (i : Instr) (n count disp : Nat) (s : State), isLzxRef i = true →
    refFields i = some (n, count, disp) → disp ≤ s.out → s.L.toNat < s.out + count →
    ∃ t, exec i s = .next t ∧ FailedJob 0 6#4 s.cursor (s.cursor + BitVec.ofNat 32 n) s.out s t

/-- R136, R138 to R140, R227: a back-reference before the output's start ends the job with NEG_SRC at its
first byte, whether or not it also overruns. -/
def Obligations.NegativeSourceFails : Prop :=
  ∀ (i : Instr) (n count disp : Nat) (s : State), refFields i = some (n, count, disp) → s.out < disp →
    ∃ t, exec i s = .next t ∧ FailedJob 0 5#4 s.cursor (s.cursor + BitVec.ofNat 32 n) s.out s t

/-- R132: a turn of an LZ body does the same under either byte order. -/
def Obligations.LzBodyIgnoresByteOrder : Prop :=
  ∀ (s : State) (rest : List Turn) (o : ByteOrder), BlockTurn s rest → s.phase = .run → s.pos = .body →
    (s.jcodec = 0#3 ∨ s.jcodec = 1#3) →
    ∃ t, step s = .next t ∧ step { s with jorder := o } = .next { t with jorder := o }

/-! ### RL -/

/-- R191: a verbatim run that fits the output and lies in the buffer copies its data bytes in order. -/
def Obligations.VerbatimRunCopies : Prop :=
  ∀ (n : BitVec 7) (s : State), s.out + (n.toNat + 1) ≤ s.L.toNat →
    s.cursor.toNat + 1 + (n.toNat + 1) ≤ s.bufSize.toNat →
    ∃ t, exec (.rlCopy n) s = .next t ∧ t.out = s.out + (n.toNat + 1) ∧
      (∀ k ≤ n.toNat, outRead t (s.out + k) = srcByte s (s.cursor.toNat + 1 + k)) ∧
      t.cursor.toNat = s.cursor.toNat + 1 + (n.toNat + 1) ∧ t.pos = s.pos ∧ SameOutside s t ∧
      SameOutExcept s.out (n.toNat + 1) s t ∧ SameTreeFrom 0 s t ∧ SameLz s t ∧ SameHuff s t ∧
      SameDiff s t

/-- R191, R192: a verbatim run cut by the end of the buffer ends the job with BOUNDS at the missing byte, the
bytes before it counted; a replicate run whose data byte is missing ends it with BOUNDS at the byte after the
flag, nothing written. -/
def Obligations.TruncatedRunFails : Prop :=
  ∀ (n : BitVec 7) (s : State),
    (∀ m, s.out + (n.toNat + 1) ≤ s.L.toNat → s.cursor.toNat + 1 + m = s.bufSize.toNat → m ≤ n.toNat →
      ∃ t, exec (.rlCopy n) s = .next t ∧ FailedJob 0 1#4 s.bufSize s.bufSize (s.out + m) s t) ∧
    (s.out + (n.toNat + 3) ≤ s.L.toNat → s.cursor.toNat + 1 = s.bufSize.toNat →
      ∃ t, exec (.rlFill n) s = .next t ∧ FailedJob 0 1#4 (s.cursor + 1#32) (s.cursor + 1#32) s.out s t)

/-- R192: a replicate run that fits the output and whose data byte is in the buffer writes that byte
`n + 3` times. -/
def Obligations.ReplicateRunFills : Prop :=
  ∀ (n : BitVec 7) (s : State), s.out + (n.toNat + 3) ≤ s.L.toNat →
    s.cursor.toNat + 2 ≤ s.bufSize.toNat →
    ∃ t, exec (.rlFill n) s = .next t ∧ t.out = s.out + (n.toNat + 3) ∧
      (∀ k < n.toNat + 3, outRead t (s.out + k) = srcByte s (s.cursor.toNat + 1)) ∧
      t.cursor.toNat = s.cursor.toNat + 2 ∧ t.pos = s.pos ∧ SameOutside s t ∧
      SameOutExcept s.out (n.toNat + 3) s t ∧ SameTreeFrom 0 s t ∧ SameLz s t ∧ SameHuff s t ∧
      SameDiff s t

/-- R191, R192, R227: a run that overruns the output ends the job with OVERRUN at its flag byte, before any
data byte is read. -/
def Obligations.RunOverrunFails : Prop :=
  ∀ (n : BitVec 7) (s : State),
    (s.L.toNat < s.out + (n.toNat + 1) →
      ∃ t, exec (.rlCopy n) s = .next t ∧ FailedJob 0 6#4 s.cursor (s.cursor + 1#32) s.out s t) ∧
    (s.L.toNat < s.out + (n.toNat + 3) →
      ∃ t, exec (.rlFill n) s = .next t ∧ FailedJob 0 6#4 s.cursor (s.cursor + 1#32) s.out s t)

/-! ### Huffman -/

/-- R163, R169: a tree that lies in the buffer is loaded whole, the size byte first; the bytes of TREE past
it are not written, and the traversal stands at the root with no bit read. -/
def Obligations.TreeLoads : Prop :=
  ∀ (n : Byte) (s : State), s.cursor.toNat + (n.toNat + 1) * 2 ≤ s.bufSize.toNat →
    ∃ t, exec (.huffTree n) s = .next t ∧ t.TS = (n.toNat + 1) * 2 ∧ treeByte t 0 = n ∧
      (∀ k, 1 ≤ k → k < (n.toNat + 1) * 2 → treeByte t k = srcByte s (s.cursor.toNat + k)) ∧
      SameTreeFrom ((n.toNat + 1) * 2) s t ∧ t.cursor.toNat = s.cursor.toNat + (n.toNat + 1) * 2 ∧
      t.pos = .body ∧ t.a = 1 ∧ t.steps = 0 ∧ t.bitsLeft = 0 ∧ t.acc8 = 0#8 ∧ t.nsym = 0 ∧
      t.out = s.out ∧ t.D = s.D ∧ t.word = s.word ∧ t.wordOff = s.wordOff ∧ SameOutside s t ∧
      SameOutExcept 0 0 s t ∧ SameLz s t ∧ SameDiff s t

/-- R163: a tree that the end of the buffer cuts ends the job with BOUNDS at the byte after TSIZE, where
CURSOR is left. -/
def Obligations.TruncatedTreeFails : Prop :=
  ∀ (n : Byte) (s : State), s.cursor.toNat + 1 ≤ s.bufSize.toNat →
    s.bufSize.toNat < s.cursor.toNat + (n.toNat + 1) * 2 →
    ∃ t, exec (.huffTree n) s = .next t ∧
      FailedJob 1 1#4 (s.cursor + 1#32) (s.cursor + 1#32) s.out s t

/-- R164: a path word between symbols is loaded, its 32 bits unread, its offset kept. -/
def Obligations.PathWordLoads : Prop :=
  ∀ (p : Word) (s : State), s.steps = 0 →
    ∃ t, exec (.huffPath p) s = .next t ∧ t.word = p ∧ t.bitsLeft = 32 ∧ t.wordOff = s.cursor ∧
      t.cursor = s.cursor + 4#32 ∧ t.pos = s.pos ∧ t.out = s.out ∧ t.D = s.D ∧ t.TS = s.TS ∧
      t.a = s.a ∧ t.steps = s.steps ∧ t.acc8 = s.acc8 ∧ t.nsym = s.nsym ∧ SameOutside s t ∧
      SameOutExcept 0 0 s t ∧ SameTreeFrom 0 s t ∧ SameLz s t ∧ SameDiff s t

/-- R164: a code that has not reached a leaf at the end of its path word ends the job with NO_LEAF at that
word, with nothing more read. -/
def Obligations.CodeNeverStraddlesWords : Prop :=
  ∀ (s : State) (rest : List Turn), BlockTurn s rest → s.phase = .run → s.pos = .body →
    s.jcodec = 2#3 → s.bitsLeft = 0 → 0 < s.steps →
    ∃ t, step s = .next t ∧ FailedJob 0 8#4 s.wordOff s.cursor s.out (takeTurn rest s) t

/-- R94, R165, R166: a path bit goes to the node's child on its side when the child is in the tree: to a
leaf when the side's flag is set (bit 6 left, bit 7 right), to an internal node when not. That `a` holds the
leaf's address and the leaf is read in a turn of its own is the model's choice (log entry 9). -/
def Obligations.PathBitGoesToChild : Prop :=
  ∀ (right : Bool) (s : State) (node : Byte) (c : Nat), node = treeByte s s.a →
    c = s.a - s.a % 2 + (node.toNat % 64 + 1) * 2 + (if right then 1 else 0) → c < s.TS →
    ∃ t, exec (if right then .huffRight else .huffLeft) s = .next t ∧ t.a = c ∧
      t.pos = (if node.getLsbD (if right then 7 else 6) then .leaf else .body) ∧
      t.bitsLeft = s.bitsLeft - 1 ∧ t.steps = s.steps + 1 ∧ t.cursor = s.cursor ∧ t.out = s.out ∧
      t.D = s.D ∧ t.TS = s.TS ∧ t.word = s.word ∧ t.wordOff = s.wordOff ∧ t.acc8 = s.acc8 ∧
      t.nsym = s.nsym ∧ SameOutside s t ∧ SameOutExcept 0 0 s t ∧ SameTreeFrom 0 s t ∧ SameLz s t ∧
      SameDiff s t

/-- R165, R166: a child at or past the end of the tree ends the job with TREE at the path word. -/
def Obligations.ChildOutsideTreeFails : Prop :=
  ∀ (right : Bool) (s : State),
    s.TS ≤ s.a - s.a % 2 + ((treeByte s s.a).toNat % 64 + 1) * 2 + (if right then 1 else 0) →
    ∃ t, exec (if right then .huffRight else .huffLeft) s = .next t ∧
      FailedJob 0 7#4 s.wordOff s.cursor s.out s t

/-- R167, R168: a leaf adds its low `D` bits below the symbols of the current byte; a byte with `8 / D`
symbols is written and the packing starts again; the traversal returns to the root. -/
def Obligations.LeafPacksItsSymbol : Prop :=
  ∀ (b : Byte) (s : State), (s.D = 1#4 ∨ s.D = 2#4 ∨ s.D = 4#4 ∨ s.D = 8#4) →
    ∃ t v, exec (.huffLeaf b) s = .next t ∧
      v = (s.acc8.toNat * 2 ^ s.D.toNat + b.toNat % 2 ^ s.D.toNat) % 256 ∧
      (s.nsym + 1 = 8 / s.D.toNat → t.out = s.out + 1 ∧ (outRead t s.out).toNat = v ∧
        SameOutExcept s.out 1 s t ∧ t.acc8 = 0#8 ∧ t.nsym = 0) ∧
      (s.nsym + 1 ≠ 8 / s.D.toNat → t.out = s.out ∧ SameOutExcept 0 0 s t ∧ t.acc8.toNat = v ∧
        t.nsym = s.nsym + 1) ∧
      t.pos = .body ∧ t.a = 1 ∧ t.steps = 0 ∧ t.cursor = s.cursor ∧ t.D = s.D ∧ t.TS = s.TS ∧
      t.word = s.word ∧ t.bitsLeft = s.bitsLeft ∧ t.wordOff = s.wordOff ∧ SameOutside s t ∧
      SameTreeFrom 0 s t ∧ SameLz s t ∧ SameDiff s t

/-- R162, R168: the `8 / D` leaves of an output byte give one byte, the first symbol in its top bits. -/
def Obligations.SymbolsPackFirstOnTop : Prop :=
  ∀ (s : State) (bs : List Byte), (s.D = 1#4 ∨ s.D = 2#4 ∨ s.D = 4#4 ∨ s.D = 8#4) →
    s.acc8 = 0#8 → s.nsym = 0 → bs.length = 8 / s.D.toNat →
    ∃ t, execLeaves bs s = some t ∧ t.out = s.out + 1 ∧
      (outRead t s.out).toNat = packedValue s.D.toNat bs ∧ SameOutExcept s.out 1 s t ∧
      t.acc8 = 0#8 ∧ t.nsym = 0

/-! ### Diff -/

/-- R201: an 8-bit delta advances the accumulator mod 2^8 and writes it. -/
def Obligations.Delta8WritesSum : Prop :=
  ∀ (d : Byte) (s : State),
    ∃ t, exec (.diff8Delta d) s = .next t ∧
      (outRead t s.out).toNat = (s.acc.toNat % 256 + d.toNat) % 256 ∧
      t.acc.toNat % 256 = (s.acc.toNat % 256 + d.toNat) % 256 ∧ t.out = s.out + 1 ∧
      t.cursor = s.cursor + 1#32 ∧ t.M = s.M ∧ t.pos = s.pos ∧ SameOutside s t ∧
      SameOutExcept s.out 1 s t ∧ SameTreeFrom 0 s t ∧ SameLz s t ∧ SameHuff s t

/-- R202: a 16-bit delta advances the accumulator mod 2^16 and writes its high byte, then its low byte
unless the output ends between them. -/
def Obligations.Delta16WritesSum : Prop :=
  ∀ (d : BitVec 16) (s : State),
    ∃ t, exec (.diff16Delta d) s = .next t ∧ t.acc.toNat = (s.acc.toNat + d.toNat) % 65536 ∧
      (outRead t s.out).toNat = t.acc.toNat / 256 ∧
      (s.out + 1 < s.L.toNat → (outRead t (s.out + 1)).toNat = t.acc.toNat % 256 ∧
        t.out = s.out + 2 ∧ SameOutExcept s.out 2 s t) ∧
      (s.L.toNat ≤ s.out + 1 → t.out = s.out + 1 ∧ SameOutExcept s.out 1 s t) ∧
      t.cursor = s.cursor + 2#32 ∧ t.M = s.M ∧ t.pos = s.pos ∧ SameOutside s t ∧ SameTreeFrom 0 s t ∧
      SameLz s t ∧ SameHuff s t

/-- R118, R201, R203: an 8-bit Diff job whose deltas all lie in the buffer writes their running sums and
completes with DONE, after one turn for each delta and one for the completion (the model's own count, log
entry 9). -/
def Obligations.Diff8BodyWritesRunningSums : Prop :=
  ∀ (n : Nat) (s : State), s.turns = [] → s.phase = .run → s.pos = .body → s.jcodec = 4#3 →
    s.M = 1#4 → s.out + n = s.L.toNat → s.cursor.toNat + n ≤ s.bufSize.toNat →
    ∃ t, stepN (n + 1) s = some t ∧ t.phase = .idle ∧ t.done = true ∧ t.err = s.err ∧
      t.outCount.toNat = s.L.toNat ∧
      (t.cursor.toNat = if s.jentry then s.saved.toNat else s.cursor.toNat + n) ∧
      (∀ k < n, outRead t (s.out + k) = runningSum s s.cursor.toNat (s.acc.extractLsb' 0 8) k) ∧
      SameOutExcept s.out n s t

/-! ### The end of a job -/

/-- R116 to R118, R229: a job whose body is complete ends with DONE, OUT_COUNT = L, CURSOR restored in the
offset form and kept in the cursor form, and no byte of OUT, SRC or TREE written. The completion is a turn
of its own (log entry 9). -/
def Obligations.CompletionRecord : Prop :=
  ∀ (s : State) (rest : List Turn), BlockTurn s rest → s.phase = .run → bodyDone s = true →
    ∃ t, step s = .next t ∧ t.phase = .idle ∧ t.done = true ∧ t.err = s.err ∧ t.errCode = s.errCode ∧
      t.errOffset = s.errOffset ∧ t.outLen = s.outLen ∧ t.outCount.toNat = s.L.toNat ∧
      t.cursor = (if s.jentry then s.saved else s.cursor) ∧ SameSetup s t ∧ SameLatch s t ∧
      SameSrc s t ∧ SameOutExcept 0 0 s t ∧ SameTreeFrom 0 s t ∧ t.turns = rest ∧ t.rdata = s.rdata ∧
      t.freeCtr = s.freeCtr

/-- R23, R222, R227, R233: a job that ends sets exactly one of DONE and ERR; with ERR goes a code 1 to 10,
with DONE the code 0. -/
def Obligations.JobEndsWithOneOutcome : Prop :=
  ∀ (s t : State) (rest : List Turn), Inv s → BlockTurn s rest → s.phase = .run → step s = .next t →
    t.phase = .idle →
    (t.done = true ∧ t.err = false ∧ t.errCode = 0#4 ∧ t.errOffset = 0#32 ∧
        t.outCount.toNat = t.outLen.toNat) ∨
      (t.done = false ∧ t.err = true ∧ 1 ≤ t.errCode.toNat ∧ t.errCode.toNat ≤ 10 ∧
        t.outCount.toNat ≤ t.outLen.toNat)

/-- R117: a job in the offset form that ends, with success or with an error, restores CURSOR. -/
def Obligations.OffsetFormRestoresCursor : Prop :=
  ∀ (s t : State) (rest : List Turn), BlockTurn s rest → s.phase = .run → s.jentry = true →
    step s = .next t → t.phase = .idle → t.cursor = s.saved

/-- R33, R36, R77, R256: no turn of the block changes SRC, the set-up registers, OFFSET, or, while the job
goes on, what the job latched; a turn of the block while idle changes nothing at all (R240, R251). -/
def Obligations.BlockLeavesSourceAndSetup : Prop :=
  ∀ (s t : State) (rest : List Turn), BlockTurn s rest → step s = .next t →
    SameSrc s t ∧ SameSetup s t ∧ SameLatch s t ∧ t.turns = rest ∧ t.rdata = s.rdata ∧
      t.freeCtr = s.freeCtr ∧ (s.phase = .idle → t = takeTurn rest s)

/-- R35, R66, R67, R116: a turn of the block that does not end in an error keeps every byte of OUT below the
output index and every byte at or past the index it ends with, never lets the index pass `L` or fall, and has
written every byte it moves the index past. -/
def Obligations.OutputGrowsInOrder : Prop :=
  ∀ (s t : State) (rest : List Turn), Inv s → BlockTurn s rest → s.phase = .run → step s = .next t →
    t.err = false →
    (∀ i, i < s.out ∨ t.out ≤ i → outRead t i = outRead s i) ∧ s.out ≤ t.out ∧
      t.out ≤ t.L.toNat ∧ (∀ i, s.out ≤ i → i < t.out → (t.outMem.read i).isSome)

/-- R61, R73: a turn of the block depends on no byte of SRC at or past BUF_SIZE. -/
def Obligations.BytesPastBufferUnseen : Prop :=
  ∀ (s t : State) (rest : List Turn) (m : Memory) (n : Nat), BlockTurn s rest → step s = .next t →
    (∀ i < s.bufSize.toNat, srcByte { s with srcMem := m, srcDraw := n } i = srcByte s i) →
    step { s with srcMem := m, srcDraw := n } = .next { t with srcMem := m, srcDraw := n }

/-- R254: with the block left alone, every running job has ended after at most `jobBound` turns, which is the
model's own count; a job at its START has taken, by R254's count of element steps as log entry 9 reads it, at
most 8 · (BUF_SIZE - start) + L + 2 of them. -/
def Obligations.EveryJobEnds : Prop :=
  ∀ s : State, s.turns = [] → s.phase = .run →
    ∃ n t, n ≤ jobBound s ∧ stepN n s = some t ∧ t.phase = .idle ∧
      (s.pos = .entry →
        elementSteps n s ≤ 8 * (s.bufSize.toNat - streamOffset s) + t.L.toNat + 2)

/-! ### The invariant -/

/-- Every step from a state with the invariant leads to a state with it. -/
def Obligations.EveryStepKeepsInvariant : Prop :=
  ∀ s t : State, Inv s → step s = .next t → Inv t

/-- R40, R250: reset, for every value of the parameters and in every instance, satisfies the invariant, is idle with every
register 0, its interrupt off, and every byte of its memories a free value. -/
def Obligations.ResetState : Prop :=
  ∀ (maxSrc : Word) (outCap : BitVec 24) (k : Nat) (s : State),
    s = { State.resetWith maxSrc outCap with inst := k } →
    Inv s ∧ s.phase = .idle ∧ s.irq = false ∧
      (∀ r, r ≠ .outCapR → r ≠ .maxSrcR → regValue s r = 0#32) ∧
      regValue s .outCapR = outCap.setWidth 32 ∧ regValue s .maxSrcR = maxSrc ∧
      (∀ i, srcByte s i = Config.srcByte k 0 i) ∧ (∀ i, outRead s i = Config.outByte k 0 i) ∧
      (∀ i, treeByte s i = Config.treeByte k 0 i)

/-- R250 to R252: reset abandons a running job: every register at its reset value, the parameters kept,
the block idle, every byte of its memories a new free value. -/
def Obligations.ResetAbandonsJob : Prop :=
  ∀ (s : State) (rest : List Turn), HostTurn s .reset rest →
    ∃ t, step s = .next t ∧ t.phase = .idle ∧ t.irq = false ∧
      (∀ r, r ≠ .outCapR → r ≠ .maxSrcR → regValue t r = 0#32) ∧
      regValue t .outCapR = regValue s .outCapR ∧ regValue t .maxSrcR = regValue s .maxSrcR ∧
      (∀ i, srcByte t i = Config.srcByte s.inst (s.srcDraw + 1) i) ∧ ForgottenOut s t ∧
      (∀ i, treeByte t i = Config.treeByte s.inst (s.treeDraw + 1) i) ∧ t.turns = rest ∧
      t.inst = s.inst

/-! ### The host's registers -/

/-- R42: while a job runs, every aligned 32-bit write of the register space, of any register and any value,
changes nothing. -/
def Obligations.WriteWhileBusyIgnored : Prop :=
  ∀ (s : State) (rest : List Turn) (off : Nat) (v : Word), HostTurn s (.regWrite off 32 v) rest →
    s.phase = .run → off % 4 = 0 → step s = .next (takeTurn rest s)

/-- R41: an access of the register space of another width or alignment is refused, read or write. -/
def Obligations.OtherRegisterAccessRefused : Prop :=
  ∀ (s : State) (rest : List Turn) (off bits : Nat) (v : Word), bits ≠ 32 ∨ off % 4 ≠ 0 →
    (HostTurn s (.regRead off bits) rest → step s = .refused (.registerAccess off bits)) ∧
    (HostTurn s (.regWrite off bits v) rest → step s = .refused (.registerAccess off bits))

/-- R21, R32: a write to an offset that is no register's changes nothing, and a read of it returns 0. -/
def Obligations.ReservedOffsetReadsZero : Prop :=
  ∀ (s : State) (rest : List Turn) (off : Nat) (v : Word), off % 4 = 0 → 0x2C ≤ off →
    (HostTurn s (.regWrite off 32 v) rest → step s = .next (takeTurn rest s)) ∧
    (HostTurn s (.regRead off 32) rest → step s = .next { takeTurn rest s with rdata := 0#32 })

/-- R22 to R27, R31, R231: what an idle block's registers read after each write, bit for bit. -/
def Obligations.RegisterWriteReadsBack : Prop :=
  ∀ (s : State) (rest : List Turn) (r : Reg) (v : Word), HostTurn s (.regWrite r.addr 32 v) rest →
    s.phase = .idle → (r = .ctrl → v.getLsbD 0 = false) →
    ∃ t, step s = .next t ∧
      (r = .ctrl → (regValue t .ctrl).toNat = v.toNat % 64) ∧
      (r = .status → (regValue t .status).toNat =
        (regValue s .status).toNat - ((regValue s .status) &&& v &&& 0xE#32).toNat) ∧
      (r = .bufSize → (regValue t .bufSize).toNat = min v.toNat s.maxSrc.toNat ∧
        regValue t .cursor = 0#32) ∧
      (r = .cursor → if v.toNat < s.bufSize.toNat then regValue t .cursor = v ∧ t.ofsErr = s.ofsErr
        else regValue t .cursor = s.cursor ∧ t.ofsErr = true) ∧
      (r = .cursor → t.done = s.done ∧ t.err = s.err ∧ t.errCode = s.errCode) ∧
      (r = .offset → regValue t .offset = v) ∧
      (r = .bufCfg → (regValue t .bufCfg).toNat = v.toNat % 2) ∧
      (∀ q, q ≠ r → ¬ (r = .bufSize ∧ q = .cursor) → ¬ (r = .cursor ∧ q = .status) →
        regValue t q = regValue s q) ∧
      (r = .outLen ∨ r = .outCount ∨ r = .errOffset ∨ r = .outCapR ∨ r = .maxSrcR →
        t = takeTurn rest s) ∧
      t.phase = .idle ∧ SameSrc s t ∧ SameOutExcept 0 0 s t ∧ SameTreeFrom 0 s t ∧ SameLatch s t ∧
      SameHeader s t ∧ SameLz s t ∧ SameHuff s t ∧ SameDiff s t ∧ t.pos = s.pos ∧ t.out = s.out ∧
      t.inst = s.inst ∧ SameHostSide (takeTurn rest s) t

/-- R43, R70: a register read returns the register's value, except that a busy block's CURSOR, OUT_LEN and
OUT_COUNT return some value of 32, 24 and 25 bits; it changes nothing of the block. -/
def Obligations.RegisterReadHasNoSideEffect : Prop :=
  ∀ (s : State) (rest : List Turn) (r : Reg), HostTurn s (.regRead r.addr 32) rest →
    ∃ t, step s = .next t ∧
      (s.phase = .idle ∨ r ≠ .cursor ∧ r ≠ .outLen ∧ r ≠ .outCount → t.rdata = regValue s r) ∧
      (s.phase = .run → r = .outLen → t.rdata.toNat < 2 ^ 24) ∧
      (s.phase = .run → r = .outCount → t.rdata.toNat < 2 ^ 25) ∧
      t = { takeTurn rest s with rdata := t.rdata, freeCtr := t.freeCtr }

/-- R38, R232: irq is high exactly while IE is set and DONE or ERR is; clearing both bits, or IE, or an
accepted START, or reset, lowers it. -/
def Obligations.InterruptFollowsStatus : Prop :=
  ∀ (s t : State) (rest : List Turn) (v : Word),
    (s.irq = true ↔ s.ctrlIe = true ∧ (s.done = true ∨ s.err = true)) ∧
    State.reset.irq = false ∧
    (s.phase = .idle → HostTurn s (.regWrite 0x04 32 v) rest → v.getLsbD 1 = true → v.getLsbD 2 = true →
      step s = .next t → t.irq = false) ∧
    (s.phase = .idle → HostTurn s (.regWrite 0x00 32 v) rest → v.getLsbD 0 = false → v.getLsbD 5 = false →
      step s = .next t → t.irq = false) ∧
    (s.phase = .idle → HostTurn s (.regWrite 0x00 32 v) rest → v.getLsbD 0 = true → step s = .next t →
      t.irq = false) ∧
    (HostTurn s .reset rest → step s = .next t → t.irq = false)

/-! ### The host's memories -/

/-- R33, R60, R257: while idle the host's write of a SRC byte is what SRC then holds there, and no other
byte or register changes; while busy it is refused (log entry 17); past MAX_SRC there is no byte, and the model
faults (log entry 11). -/
def Obligations.HostWritesSource : Prop :=
  ∀ (s : State) (rest : List Turn) (i : Nat) (b : Byte), HostTurn s (.srcWrite i b) rest →
    (i < s.maxSrc.toNat → s.phase = .idle →
      ∃ t, step s = .next t ∧ srcByte t i = b ∧ (∀ j, j ≠ i → srcByte t j = srcByte s j) ∧
        t = { takeTurn rest s with srcMem := t.srcMem }) ∧
    (i < s.maxSrc.toNat → s.phase = .run → step s = .refused (.srcWriteWhileBusy i)) ∧
    (s.maxSrc.toNat ≤ i → step s = .fault (.srcAddress i))

/-- R35, R60, R74: while idle the host reads OUT's and SRC's bytes as they are, and changes nothing. -/
def Obligations.HostReadsMemories : Prop :=
  ∀ (s : State) (rest : List Turn) (i : Nat), s.phase = .idle →
    (HostTurn s (.outRead i) rest → i < s.outCap.toNat →
      step s = .next { takeTurn rest s with rdata := (outRead s i).setWidth 32 }) ∧
    (HostTurn s (.srcRead i) rest → i < s.maxSrc.toNat →
      step s = .next { takeTurn rest s with rdata := (srcByte s i).setWidth 32 })

/-! ### Instances -/

/-- R79, R238, R259: a step of one instance leaves every other instance as it was, and the number of them;
the instance itself takes its own step, and every number stays (log entry 15). -/
def Obligations.InstancesShareNothing : Prop :=
  ∀ (k : Nat) (sys sys' : System), stepInstance k sys = .next sys' →
    sys'.length = sys.length ∧ sys'.map State.inst = sys.map State.inst ∧ (∀ j, j ≠ k → sys'[j]? = sys[j]?) ∧
      ∀ s, sys[k]? = some s → ∃ t, step s = .next t ∧ sys'[k]? = some t
end

