-- ==== Sys2Proof/Laws/Memory.lean ====
section
/-! SUPPORT. What the memory operations do, and that each keeps the canonical form. -/

namespace Sys2Proof.Machine

theorem Memory.read_write (m : Memory) (i : Nat) (b : Byte) (j : Nat) :
    (m.write i b).read j = if j = i then some b else m.read j := by
  induction m with
  | nil =>
    by_cases h : j = i
    · simp [Memory.write, Memory.read, h]
    · simp [Memory.write, Memory.read, h, Ne.symm h]
  | cons e m ih =>
    obtain ⟨x, c⟩ := e
    simp only [Memory.write]
    split
    · rename_i hlt
      by_cases h : j = i
      · simp [Memory.read, h]
      · simp [Memory.read, h, Ne.symm h]
    · split
      · rename_i _ heq
        by_cases h : j = i
        · simp [Memory.read, h]
        · simp [Memory.read, h, ← heq, Ne.symm h]
      · rename_i _ hne
        by_cases hx : x = j
        · have hj : j ≠ i := fun hc => hne (by rw [← hc, hx])
          simp [Memory.read, hx, hj]
        · simp [Memory.read, hx, ih]

theorem Memory.mem_write {m : Memory} {i : Nat} {b : Byte} {c : Host.Cell} (h : c ∈ m.write i b) :
    c = (i, b) ∨ c ∈ m := by
  induction m with
  | nil => simpa [Memory.write] using h
  | cons e m ih =>
    simp only [Memory.write] at h
    split at h
    · simpa using h
    · split at h
      · rcases List.mem_cons.mp h with h | h
        · exact .inl h
        · exact .inr (List.mem_cons_of_mem _ h)
      · rcases List.mem_cons.mp h with h | h
        · exact .inr (h ▸ List.mem_cons_self)
        · exact (ih h).imp id (List.mem_cons_of_mem _)

theorem Memory.write_wf {m : Memory} (i : Nat) (b : Byte) (h : m.wf) : (m.write i b).wf := by
  induction m with
  | nil => simp [Memory.write, Memory.wf]
  | cons e m ih =>
    obtain ⟨x, c⟩ := e
    have hm := List.pairwise_cons.mp h
    simp only [Memory.write]
    split
    · rename_i hlt
      refine List.pairwise_cons.mpr ⟨fun d hd => ?_, h⟩
      rcases List.mem_cons.mp hd with rfl | hd
      · exact hlt
      · exact Nat.lt_trans hlt (hm.1 d hd)
    · split
      · rename_i _ heq
        exact List.pairwise_cons.mpr ⟨fun d hd => by simpa [heq] using hm.1 d hd, hm.2⟩
      · rename_i hge hne
        refine List.pairwise_cons.mpr ⟨fun d hd => ?_, ih hm.2⟩
        rcases Memory.mem_write hd with rfl | hd
        · show x < i
          omega
        · exact hm.1 d hd

theorem Memory.mem_writeList {m : Memory} {i : Nat} {bs : List Byte} {c : Host.Cell}
    (h : c ∈ m.writeList i bs) : c ∈ m ∨ i ≤ c.1 ∧ c.1 < i + bs.length := by
  induction bs generalizing m i with
  | nil => exact .inl h
  | cons b bs ih =>
    rcases ih h with h | h
    · rcases Memory.mem_write h with rfl | h
      · exact .inr ⟨Nat.le_refl _, by simp⟩
      · exact .inl h
    · exact .inr (by simp only [List.length_cons]; omega)

theorem Memory.writeList_wf {m : Memory} (i : Nat) (bs : List Byte) (h : m.wf) :
    (m.writeList i bs).wf := by
  induction bs generalizing m i with
  | nil => exact h
  | cons b bs ih => exact ih (i + 1) (Memory.write_wf i b h)

theorem Memory.read_writeList (m : Memory) (i : Nat) (bs : List Byte) (j : Nat) :
    (m.writeList i bs).read j =
      if i ≤ j ∧ j < i + bs.length then bs[j - i]? else m.read j := by
  induction bs generalizing m i with
  | nil =>
    have : ¬ (i ≤ j ∧ j < i + ([] : List Byte).length) := by simp
    rw [if_neg this]
    rfl
  | cons b bs ih =>
    rw [Memory.writeList, ih, Memory.read_write]
    simp only [List.length_cons]
    by_cases h : j = i
    · subst h
      rw [if_neg (by omega), if_pos rfl, if_pos (by omega)]
      simp
    · by_cases hi : i + 1 ≤ j ∧ j < i + 1 + bs.length
      · rw [if_pos hi, if_pos (by omega)]
        obtain ⟨k, rfl⟩ := Nat.exists_eq_add_of_le hi.1
        have h1 : i + 1 + k - (i + 1) = k := by omega
        have h2 : i + 1 + k - i = k + 1 := by omega
        rw [h1, h2, List.getElem?_cons_succ]
      · rw [if_neg hi, if_neg h, if_neg (by omega)]

theorem Memory.mem_ofList {i : Nat} {bs : List Byte} {c : Host.Cell} (h : c ∈ Memory.ofList i bs) :
    i ≤ c.1 ∧ c.1 < i + bs.length := by
  induction bs generalizing i with
  | nil => simp [Memory.ofList] at h
  | cons b bs ih =>
    rcases List.mem_cons.mp h with rfl | h
    · exact ⟨Nat.le_refl _, by simp⟩
    · have := ih h
      simp only [List.length_cons]
      omega

theorem Memory.ofList_wf (i : Nat) (bs : List Byte) : (Memory.ofList i bs).wf := by
  induction bs generalizing i with
  | nil => exact List.Pairwise.nil
  | cons b bs ih =>
    exact List.pairwise_cons.mpr ⟨fun c hc => (Memory.mem_ofList hc).1, ih (i + 1)⟩

/-- Equal canonical memories read alike only when they are equal data. -/
theorem Memory.read_eq_none_of_lt {m : Memory} {i : Nat} (h : ∀ c ∈ m, i < c.1) : m.read i = none := by
  induction m with
  | nil => rfl
  | cons e m ih =>
    have he : i < e.1 := h e List.mem_cons_self
    simp [Memory.read, Nat.ne_of_gt he, ih (fun c hc => h c (List.mem_cons_of_mem _ hc))]

theorem Memory.ext_of_wf {m n : Memory} (hm : m.wf) (hn : n.wf) (h : ∀ i, m.read i = n.read i) :
    m = n := by
  induction m generalizing n with
  | nil =>
    cases n with
    | nil => rfl
    | cons e n => simpa [Memory.read] using h e.1
  | cons e m ih =>
    cases n with
    | nil => simpa [Memory.read] using h e.1
    | cons f n =>
      obtain ⟨x, b⟩ := e
      obtain ⟨y, c⟩ := f
      have hm' := List.pairwise_cons.mp hm
      have hn' := List.pairwise_cons.mp hn
      have hxy : x = y := by
        rcases Nat.lt_trichotomy x y with hlt | heq | hgt
        · have hnone : Memory.read ((y, c) :: n) x = none := by
            refine Memory.read_eq_none_of_lt (fun d hd => ?_)
            rcases List.mem_cons.mp hd with rfl | hd
            · exact hlt
            · exact Nat.lt_trans hlt (hn'.1 d hd)
          have := h x
          rw [hnone] at this
          simp [Memory.read] at this
        · exact heq
        · have hnone : Memory.read ((x, b) :: m) y = none := by
            refine Memory.read_eq_none_of_lt (fun d hd => ?_)
            rcases List.mem_cons.mp hd with rfl | hd
            · exact hgt
            · exact Nat.lt_trans hgt (hm'.1 d hd)
          have := h y
          rw [hnone] at this
          simp [Memory.read] at this
      subst hxy
      have hbc : b = c := by simpa [Memory.read] using h x
      subst hbc
      have : m = n := ih hm'.2 hn'.2 (fun i => by
        by_cases hi : x = i
        · subst hi
          rw [Memory.read_eq_none_of_lt hm'.1, Memory.read_eq_none_of_lt hn'.1]
        · simpa [Memory.read, hi] using h i)
      rw [this]

end Sys2Proof.Machine
end

