-- ==== Sys2Proof/Laws/State.lean ====
section
/-! SUPPORT. One lemma for each field and each named update of the state. -/

namespace Sys2Proof.Machine

variable (s : State)

/-! ### `advance` -/

@[simp] theorem advance_ctrlCodec (n : Nat) : (advance n s).ctrlCodec = s.ctrlCodec := rfl
@[simp] theorem advance_ctrlEntry (n : Nat) : (advance n s).ctrlEntry = s.ctrlEntry := rfl
@[simp] theorem advance_ctrlIe (n : Nat) : (advance n s).ctrlIe = s.ctrlIe := rfl
@[simp] theorem advance_done (n : Nat) : (advance n s).done = s.done := rfl
@[simp] theorem advance_err (n : Nat) : (advance n s).err = s.err := rfl
@[simp] theorem advance_ofsErr (n : Nat) : (advance n s).ofsErr = s.ofsErr := rfl
@[simp] theorem advance_errCode (n : Nat) : (advance n s).errCode = s.errCode := rfl
@[simp] theorem advance_bufSize (n : Nat) : (advance n s).bufSize = s.bufSize := rfl
@[simp] theorem advance_cursor (n : Nat) : (advance n s).cursor = BitVec.ofNat 32 (s.cursor.toNat + n) := rfl
@[simp] theorem advance_offset (n : Nat) : (advance n s).offset = s.offset := rfl
@[simp] theorem advance_order (n : Nat) : (advance n s).order = s.order := rfl
@[simp] theorem advance_outLen (n : Nat) : (advance n s).outLen = s.outLen := rfl
@[simp] theorem advance_outCount (n : Nat) : (advance n s).outCount = s.outCount := rfl
@[simp] theorem advance_errOffset (n : Nat) : (advance n s).errOffset = s.errOffset := rfl
@[simp] theorem advance_outCap (n : Nat) : (advance n s).outCap = s.outCap := rfl
@[simp] theorem advance_maxSrc (n : Nat) : (advance n s).maxSrc = s.maxSrc := rfl
@[simp] theorem advance_srcMem (n : Nat) : (advance n s).srcMem = s.srcMem := rfl
@[simp] theorem advance_outMem (n : Nat) : (advance n s).outMem = s.outMem := rfl
@[simp] theorem advance_treeMem (n : Nat) : (advance n s).treeMem = s.treeMem := rfl
@[simp] theorem advance_srcDraw (n : Nat) : (advance n s).srcDraw = s.srcDraw := rfl
@[simp] theorem advance_outDraw (n : Nat) : (advance n s).outDraw = s.outDraw := rfl
@[simp] theorem advance_treeDraw (n : Nat) : (advance n s).treeDraw = s.treeDraw := rfl
@[simp] theorem advance_phase (n : Nat) : (advance n s).phase = s.phase := rfl
@[simp] theorem advance_jcodec (n : Nat) : (advance n s).jcodec = s.jcodec := rfl
@[simp] theorem advance_jentry (n : Nat) : (advance n s).jentry = s.jentry := rfl
@[simp] theorem advance_jorder (n : Nat) : (advance n s).jorder = s.jorder := rfl
@[simp] theorem advance_saved (n : Nat) : (advance n s).saved = s.saved := rfl
@[simp] theorem advance_pos (n : Nat) : (advance n s).pos = s.pos := rfl
@[simp] theorem advance_W (n : Nat) : (advance n s).W = s.W := rfl
@[simp] theorem advance_L (n : Nat) : (advance n s).L = s.L := rfl
@[simp] theorem advance_out (n : Nat) : (advance n s).out = s.out := rfl
@[simp] theorem advance_flags (n : Nat) : (advance n s).flags = s.flags := rfl
@[simp] theorem advance_fbit (n : Nat) : (advance n s).fbit = s.fbit := rfl
@[simp] theorem advance_D (n : Nat) : (advance n s).D = s.D := rfl
@[simp] theorem advance_TS (n : Nat) : (advance n s).TS = s.TS := rfl
@[simp] theorem advance_word (n : Nat) : (advance n s).word = s.word := rfl
@[simp] theorem advance_bitsLeft (n : Nat) : (advance n s).bitsLeft = s.bitsLeft := rfl
@[simp] theorem advance_wordOff (n : Nat) : (advance n s).wordOff = s.wordOff := rfl
@[simp] theorem advance_a (n : Nat) : (advance n s).a = s.a := rfl
@[simp] theorem advance_steps (n : Nat) : (advance n s).steps = s.steps := rfl
@[simp] theorem advance_acc8 (n : Nat) : (advance n s).acc8 = s.acc8 := rfl
@[simp] theorem advance_nsym (n : Nat) : (advance n s).nsym = s.nsym := rfl
@[simp] theorem advance_M (n : Nat) : (advance n s).M = s.M := rfl
@[simp] theorem advance_acc (n : Nat) : (advance n s).acc = s.acc := rfl
@[simp] theorem advance_turns (n : Nat) : (advance n s).turns = s.turns := rfl
@[simp] theorem advance_rdata (n : Nat) : (advance n s).rdata = s.rdata := rfl
@[simp] theorem advance_freeCtr (n : Nat) : (advance n s).freeCtr = s.freeCtr := rfl
@[simp] theorem advance_inst (n : Nat) : (advance n s).inst = s.inst := rfl

/-! ### `emit` -/

@[simp] theorem emit_ctrlCodec (b : Byte) : (emit b s).ctrlCodec = s.ctrlCodec := rfl
@[simp] theorem emit_ctrlEntry (b : Byte) : (emit b s).ctrlEntry = s.ctrlEntry := rfl
@[simp] theorem emit_ctrlIe (b : Byte) : (emit b s).ctrlIe = s.ctrlIe := rfl
@[simp] theorem emit_done (b : Byte) : (emit b s).done = s.done := rfl
@[simp] theorem emit_err (b : Byte) : (emit b s).err = s.err := rfl
@[simp] theorem emit_ofsErr (b : Byte) : (emit b s).ofsErr = s.ofsErr := rfl
@[simp] theorem emit_errCode (b : Byte) : (emit b s).errCode = s.errCode := rfl
@[simp] theorem emit_bufSize (b : Byte) : (emit b s).bufSize = s.bufSize := rfl
@[simp] theorem emit_cursor (b : Byte) : (emit b s).cursor = s.cursor := rfl
@[simp] theorem emit_offset (b : Byte) : (emit b s).offset = s.offset := rfl
@[simp] theorem emit_order (b : Byte) : (emit b s).order = s.order := rfl
@[simp] theorem emit_outLen (b : Byte) : (emit b s).outLen = s.outLen := rfl
@[simp] theorem emit_outCount (b : Byte) : (emit b s).outCount = s.outCount := rfl
@[simp] theorem emit_errOffset (b : Byte) : (emit b s).errOffset = s.errOffset := rfl
@[simp] theorem emit_outCap (b : Byte) : (emit b s).outCap = s.outCap := rfl
@[simp] theorem emit_maxSrc (b : Byte) : (emit b s).maxSrc = s.maxSrc := rfl
@[simp] theorem emit_srcMem (b : Byte) : (emit b s).srcMem = s.srcMem := rfl
@[simp] theorem emit_outMem (b : Byte) : (emit b s).outMem = s.outMem.write s.out b := rfl
@[simp] theorem emit_treeMem (b : Byte) : (emit b s).treeMem = s.treeMem := rfl
@[simp] theorem emit_srcDraw (b : Byte) : (emit b s).srcDraw = s.srcDraw := rfl
@[simp] theorem emit_outDraw (b : Byte) : (emit b s).outDraw = s.outDraw := rfl
@[simp] theorem emit_treeDraw (b : Byte) : (emit b s).treeDraw = s.treeDraw := rfl
@[simp] theorem emit_phase (b : Byte) : (emit b s).phase = s.phase := rfl
@[simp] theorem emit_jcodec (b : Byte) : (emit b s).jcodec = s.jcodec := rfl
@[simp] theorem emit_jentry (b : Byte) : (emit b s).jentry = s.jentry := rfl
@[simp] theorem emit_jorder (b : Byte) : (emit b s).jorder = s.jorder := rfl
@[simp] theorem emit_saved (b : Byte) : (emit b s).saved = s.saved := rfl
@[simp] theorem emit_pos (b : Byte) : (emit b s).pos = s.pos := rfl
@[simp] theorem emit_W (b : Byte) : (emit b s).W = s.W := rfl
@[simp] theorem emit_L (b : Byte) : (emit b s).L = s.L := rfl
@[simp] theorem emit_out (b : Byte) : (emit b s).out = s.out + 1 := rfl
@[simp] theorem emit_flags (b : Byte) : (emit b s).flags = s.flags := rfl
@[simp] theorem emit_fbit (b : Byte) : (emit b s).fbit = s.fbit := rfl
@[simp] theorem emit_D (b : Byte) : (emit b s).D = s.D := rfl
@[simp] theorem emit_TS (b : Byte) : (emit b s).TS = s.TS := rfl
@[simp] theorem emit_word (b : Byte) : (emit b s).word = s.word := rfl
@[simp] theorem emit_bitsLeft (b : Byte) : (emit b s).bitsLeft = s.bitsLeft := rfl
@[simp] theorem emit_wordOff (b : Byte) : (emit b s).wordOff = s.wordOff := rfl
@[simp] theorem emit_a (b : Byte) : (emit b s).a = s.a := rfl
@[simp] theorem emit_steps (b : Byte) : (emit b s).steps = s.steps := rfl
@[simp] theorem emit_acc8 (b : Byte) : (emit b s).acc8 = s.acc8 := rfl
@[simp] theorem emit_nsym (b : Byte) : (emit b s).nsym = s.nsym := rfl
@[simp] theorem emit_M (b : Byte) : (emit b s).M = s.M := rfl
@[simp] theorem emit_acc (b : Byte) : (emit b s).acc = s.acc := rfl
@[simp] theorem emit_turns (b : Byte) : (emit b s).turns = s.turns := rfl
@[simp] theorem emit_rdata (b : Byte) : (emit b s).rdata = s.rdata := rfl
@[simp] theorem emit_freeCtr (b : Byte) : (emit b s).freeCtr = s.freeCtr := rfl
@[simp] theorem emit_inst (b : Byte) : (emit b s).inst = s.inst := rfl

/-! ### `raise` -/

@[simp] theorem raise_ctrlCodec (e : JobError) (off : Word) : (raise e off s).ctrlCodec = s.ctrlCodec := rfl
@[simp] theorem raise_ctrlEntry (e : JobError) (off : Word) : (raise e off s).ctrlEntry = s.ctrlEntry := rfl
@[simp] theorem raise_ctrlIe (e : JobError) (off : Word) : (raise e off s).ctrlIe = s.ctrlIe := rfl
@[simp] theorem raise_done (e : JobError) (off : Word) : (raise e off s).done = s.done := rfl
@[simp] theorem raise_err (e : JobError) (off : Word) : (raise e off s).err = true := rfl
@[simp] theorem raise_ofsErr (e : JobError) (off : Word) : (raise e off s).ofsErr = s.ofsErr := rfl
@[simp] theorem raise_errCode (e : JobError) (off : Word) : (raise e off s).errCode = e.code := rfl
@[simp] theorem raise_bufSize (e : JobError) (off : Word) : (raise e off s).bufSize = s.bufSize := rfl
@[simp] theorem raise_cursor (e : JobError) (off : Word) : (raise e off s).cursor = endCursor s := rfl
@[simp] theorem raise_offset (e : JobError) (off : Word) : (raise e off s).offset = s.offset := rfl
@[simp] theorem raise_order (e : JobError) (off : Word) : (raise e off s).order = s.order := rfl
@[simp] theorem raise_outLen (e : JobError) (off : Word) : (raise e off s).outLen = s.outLen := rfl
@[simp] theorem raise_outCount (e : JobError) (off : Word) : (raise e off s).outCount = BitVec.ofNat 25 s.out := rfl
@[simp] theorem raise_errOffset (e : JobError) (off : Word) : (raise e off s).errOffset = off := rfl
@[simp] theorem raise_outCap (e : JobError) (off : Word) : (raise e off s).outCap = s.outCap := rfl
@[simp] theorem raise_maxSrc (e : JobError) (off : Word) : (raise e off s).maxSrc = s.maxSrc := rfl
@[simp] theorem raise_srcMem (e : JobError) (off : Word) : (raise e off s).srcMem = s.srcMem := rfl
@[simp] theorem raise_outMem (e : JobError) (off : Word) : (raise e off s).outMem = [] := rfl
@[simp] theorem raise_treeMem (e : JobError) (off : Word) : (raise e off s).treeMem = s.treeMem := rfl
@[simp] theorem raise_srcDraw (e : JobError) (off : Word) : (raise e off s).srcDraw = s.srcDraw := rfl
@[simp] theorem raise_outDraw (e : JobError) (off : Word) : (raise e off s).outDraw = s.outDraw + 1 := rfl
@[simp] theorem raise_treeDraw (e : JobError) (off : Word) : (raise e off s).treeDraw = s.treeDraw := rfl
@[simp] theorem raise_phase (e : JobError) (off : Word) : (raise e off s).phase = .idle := rfl
@[simp] theorem raise_jcodec (e : JobError) (off : Word) : (raise e off s).jcodec = s.jcodec := rfl
@[simp] theorem raise_jentry (e : JobError) (off : Word) : (raise e off s).jentry = s.jentry := rfl
@[simp] theorem raise_jorder (e : JobError) (off : Word) : (raise e off s).jorder = s.jorder := rfl
@[simp] theorem raise_saved (e : JobError) (off : Word) : (raise e off s).saved = s.saved := rfl
@[simp] theorem raise_pos (e : JobError) (off : Word) : (raise e off s).pos = s.pos := rfl
@[simp] theorem raise_W (e : JobError) (off : Word) : (raise e off s).W = s.W := rfl
@[simp] theorem raise_L (e : JobError) (off : Word) : (raise e off s).L = s.L := rfl
@[simp] theorem raise_out (e : JobError) (off : Word) : (raise e off s).out = s.out := rfl
@[simp] theorem raise_flags (e : JobError) (off : Word) : (raise e off s).flags = s.flags := rfl
@[simp] theorem raise_fbit (e : JobError) (off : Word) : (raise e off s).fbit = s.fbit := rfl
@[simp] theorem raise_D (e : JobError) (off : Word) : (raise e off s).D = s.D := rfl
@[simp] theorem raise_TS (e : JobError) (off : Word) : (raise e off s).TS = s.TS := rfl
@[simp] theorem raise_word (e : JobError) (off : Word) : (raise e off s).word = s.word := rfl
@[simp] theorem raise_bitsLeft (e : JobError) (off : Word) : (raise e off s).bitsLeft = s.bitsLeft := rfl
@[simp] theorem raise_wordOff (e : JobError) (off : Word) : (raise e off s).wordOff = s.wordOff := rfl
@[simp] theorem raise_a (e : JobError) (off : Word) : (raise e off s).a = s.a := rfl
@[simp] theorem raise_steps (e : JobError) (off : Word) : (raise e off s).steps = s.steps := rfl
@[simp] theorem raise_acc8 (e : JobError) (off : Word) : (raise e off s).acc8 = s.acc8 := rfl
@[simp] theorem raise_nsym (e : JobError) (off : Word) : (raise e off s).nsym = s.nsym := rfl
@[simp] theorem raise_M (e : JobError) (off : Word) : (raise e off s).M = s.M := rfl
@[simp] theorem raise_acc (e : JobError) (off : Word) : (raise e off s).acc = s.acc := rfl
@[simp] theorem raise_turns (e : JobError) (off : Word) : (raise e off s).turns = s.turns := rfl
@[simp] theorem raise_rdata (e : JobError) (off : Word) : (raise e off s).rdata = s.rdata := rfl
@[simp] theorem raise_freeCtr (e : JobError) (off : Word) : (raise e off s).freeCtr = s.freeCtr := rfl
@[simp] theorem raise_inst (e : JobError) (off : Word) : (raise e off s).inst = s.inst := rfl

/-! ### `finish` -/

@[simp] theorem finish_ctrlCodec : (finish s).ctrlCodec = s.ctrlCodec := rfl
@[simp] theorem finish_ctrlEntry : (finish s).ctrlEntry = s.ctrlEntry := rfl
@[simp] theorem finish_ctrlIe : (finish s).ctrlIe = s.ctrlIe := rfl
@[simp] theorem finish_done : (finish s).done = true := rfl
@[simp] theorem finish_err : (finish s).err = s.err := rfl
@[simp] theorem finish_ofsErr : (finish s).ofsErr = s.ofsErr := rfl
@[simp] theorem finish_errCode : (finish s).errCode = s.errCode := rfl
@[simp] theorem finish_bufSize : (finish s).bufSize = s.bufSize := rfl
@[simp] theorem finish_cursor : (finish s).cursor = endCursor s := rfl
@[simp] theorem finish_offset : (finish s).offset = s.offset := rfl
@[simp] theorem finish_order : (finish s).order = s.order := rfl
@[simp] theorem finish_outLen : (finish s).outLen = s.outLen := rfl
@[simp] theorem finish_outCount : (finish s).outCount = s.L.setWidth 25 := rfl
@[simp] theorem finish_errOffset : (finish s).errOffset = s.errOffset := rfl
@[simp] theorem finish_outCap : (finish s).outCap = s.outCap := rfl
@[simp] theorem finish_maxSrc : (finish s).maxSrc = s.maxSrc := rfl
@[simp] theorem finish_srcMem : (finish s).srcMem = s.srcMem := rfl
@[simp] theorem finish_outMem : (finish s).outMem = s.outMem := rfl
@[simp] theorem finish_treeMem : (finish s).treeMem = s.treeMem := rfl
@[simp] theorem finish_srcDraw : (finish s).srcDraw = s.srcDraw := rfl
@[simp] theorem finish_outDraw : (finish s).outDraw = s.outDraw := rfl
@[simp] theorem finish_treeDraw : (finish s).treeDraw = s.treeDraw := rfl
@[simp] theorem finish_phase : (finish s).phase = .idle := rfl
@[simp] theorem finish_jcodec : (finish s).jcodec = s.jcodec := rfl
@[simp] theorem finish_jentry : (finish s).jentry = s.jentry := rfl
@[simp] theorem finish_jorder : (finish s).jorder = s.jorder := rfl
@[simp] theorem finish_saved : (finish s).saved = s.saved := rfl
@[simp] theorem finish_pos : (finish s).pos = s.pos := rfl
@[simp] theorem finish_W : (finish s).W = s.W := rfl
@[simp] theorem finish_L : (finish s).L = s.L := rfl
@[simp] theorem finish_out : (finish s).out = s.out := rfl
@[simp] theorem finish_flags : (finish s).flags = s.flags := rfl
@[simp] theorem finish_fbit : (finish s).fbit = s.fbit := rfl
@[simp] theorem finish_D : (finish s).D = s.D := rfl
@[simp] theorem finish_TS : (finish s).TS = s.TS := rfl
@[simp] theorem finish_word : (finish s).word = s.word := rfl
@[simp] theorem finish_bitsLeft : (finish s).bitsLeft = s.bitsLeft := rfl
@[simp] theorem finish_wordOff : (finish s).wordOff = s.wordOff := rfl
@[simp] theorem finish_a : (finish s).a = s.a := rfl
@[simp] theorem finish_steps : (finish s).steps = s.steps := rfl
@[simp] theorem finish_acc8 : (finish s).acc8 = s.acc8 := rfl
@[simp] theorem finish_nsym : (finish s).nsym = s.nsym := rfl
@[simp] theorem finish_M : (finish s).M = s.M := rfl
@[simp] theorem finish_acc : (finish s).acc = s.acc := rfl
@[simp] theorem finish_turns : (finish s).turns = s.turns := rfl
@[simp] theorem finish_rdata : (finish s).rdata = s.rdata := rfl
@[simp] theorem finish_freeCtr : (finish s).freeCtr = s.freeCtr := rfl
@[simp] theorem finish_inst : (finish s).inst = s.inst := rfl

/-! ### `acceptStart` -/

@[simp] theorem acceptStart_ctrlCodec (codec : BitVec 3) (entry ie : Bool) : (acceptStart codec entry ie s).ctrlCodec = codec := rfl
@[simp] theorem acceptStart_ctrlEntry (codec : BitVec 3) (entry ie : Bool) : (acceptStart codec entry ie s).ctrlEntry = entry := rfl
@[simp] theorem acceptStart_ctrlIe (codec : BitVec 3) (entry ie : Bool) : (acceptStart codec entry ie s).ctrlIe = ie := rfl
@[simp] theorem acceptStart_done (codec : BitVec 3) (entry ie : Bool) : (acceptStart codec entry ie s).done = false := rfl
@[simp] theorem acceptStart_err (codec : BitVec 3) (entry ie : Bool) : (acceptStart codec entry ie s).err = false := rfl
@[simp] theorem acceptStart_ofsErr (codec : BitVec 3) (entry ie : Bool) : (acceptStart codec entry ie s).ofsErr = s.ofsErr := rfl
@[simp] theorem acceptStart_errCode (codec : BitVec 3) (entry ie : Bool) : (acceptStart codec entry ie s).errCode = 0#4 := rfl
@[simp] theorem acceptStart_bufSize (codec : BitVec 3) (entry ie : Bool) : (acceptStart codec entry ie s).bufSize = s.bufSize := rfl
@[simp] theorem acceptStart_cursor (codec : BitVec 3) (entry ie : Bool) : (acceptStart codec entry ie s).cursor = s.cursor := rfl
@[simp] theorem acceptStart_offset (codec : BitVec 3) (entry ie : Bool) : (acceptStart codec entry ie s).offset = s.offset := rfl
@[simp] theorem acceptStart_order (codec : BitVec 3) (entry ie : Bool) : (acceptStart codec entry ie s).order = s.order := rfl
@[simp] theorem acceptStart_outLen (codec : BitVec 3) (entry ie : Bool) : (acceptStart codec entry ie s).outLen = 0#24 := rfl
@[simp] theorem acceptStart_outCount (codec : BitVec 3) (entry ie : Bool) : (acceptStart codec entry ie s).outCount = 0#25 := rfl
@[simp] theorem acceptStart_errOffset (codec : BitVec 3) (entry ie : Bool) : (acceptStart codec entry ie s).errOffset = 0#32 := rfl
@[simp] theorem acceptStart_outCap (codec : BitVec 3) (entry ie : Bool) : (acceptStart codec entry ie s).outCap = s.outCap := rfl
@[simp] theorem acceptStart_maxSrc (codec : BitVec 3) (entry ie : Bool) : (acceptStart codec entry ie s).maxSrc = s.maxSrc := rfl
@[simp] theorem acceptStart_srcMem (codec : BitVec 3) (entry ie : Bool) : (acceptStart codec entry ie s).srcMem = s.srcMem := rfl
@[simp] theorem acceptStart_outMem (codec : BitVec 3) (entry ie : Bool) : (acceptStart codec entry ie s).outMem = s.outMem := rfl
@[simp] theorem acceptStart_treeMem (codec : BitVec 3) (entry ie : Bool) : (acceptStart codec entry ie s).treeMem = s.treeMem := rfl
@[simp] theorem acceptStart_srcDraw (codec : BitVec 3) (entry ie : Bool) : (acceptStart codec entry ie s).srcDraw = s.srcDraw := rfl
@[simp] theorem acceptStart_outDraw (codec : BitVec 3) (entry ie : Bool) : (acceptStart codec entry ie s).outDraw = s.outDraw := rfl
@[simp] theorem acceptStart_treeDraw (codec : BitVec 3) (entry ie : Bool) : (acceptStart codec entry ie s).treeDraw = s.treeDraw := rfl
@[simp] theorem acceptStart_phase (codec : BitVec 3) (entry ie : Bool) : (acceptStart codec entry ie s).phase = .run := rfl
@[simp] theorem acceptStart_jcodec (codec : BitVec 3) (entry ie : Bool) : (acceptStart codec entry ie s).jcodec = codec := rfl
@[simp] theorem acceptStart_jentry (codec : BitVec 3) (entry ie : Bool) : (acceptStart codec entry ie s).jentry = entry := rfl
@[simp] theorem acceptStart_jorder (codec : BitVec 3) (entry ie : Bool) : (acceptStart codec entry ie s).jorder = s.order := rfl
@[simp] theorem acceptStart_saved (codec : BitVec 3) (entry ie : Bool) : (acceptStart codec entry ie s).saved = s.cursor := rfl
@[simp] theorem acceptStart_pos (codec : BitVec 3) (entry ie : Bool) : (acceptStart codec entry ie s).pos = .entry := rfl
@[simp] theorem acceptStart_W (codec : BitVec 3) (entry ie : Bool) : (acceptStart codec entry ie s).W = s.W := rfl
@[simp] theorem acceptStart_L (codec : BitVec 3) (entry ie : Bool) : (acceptStart codec entry ie s).L = s.L := rfl
@[simp] theorem acceptStart_out (codec : BitVec 3) (entry ie : Bool) : (acceptStart codec entry ie s).out = 0 := rfl
@[simp] theorem acceptStart_flags (codec : BitVec 3) (entry ie : Bool) : (acceptStart codec entry ie s).flags = s.flags := rfl
@[simp] theorem acceptStart_fbit (codec : BitVec 3) (entry ie : Bool) : (acceptStart codec entry ie s).fbit = s.fbit := rfl
@[simp] theorem acceptStart_D (codec : BitVec 3) (entry ie : Bool) : (acceptStart codec entry ie s).D = s.D := rfl
@[simp] theorem acceptStart_TS (codec : BitVec 3) (entry ie : Bool) : (acceptStart codec entry ie s).TS = s.TS := rfl
@[simp] theorem acceptStart_word (codec : BitVec 3) (entry ie : Bool) : (acceptStart codec entry ie s).word = s.word := rfl
@[simp] theorem acceptStart_bitsLeft (codec : BitVec 3) (entry ie : Bool) : (acceptStart codec entry ie s).bitsLeft = s.bitsLeft := rfl
@[simp] theorem acceptStart_wordOff (codec : BitVec 3) (entry ie : Bool) : (acceptStart codec entry ie s).wordOff = s.wordOff := rfl
@[simp] theorem acceptStart_a (codec : BitVec 3) (entry ie : Bool) : (acceptStart codec entry ie s).a = s.a := rfl
@[simp] theorem acceptStart_steps (codec : BitVec 3) (entry ie : Bool) : (acceptStart codec entry ie s).steps = s.steps := rfl
@[simp] theorem acceptStart_acc8 (codec : BitVec 3) (entry ie : Bool) : (acceptStart codec entry ie s).acc8 = s.acc8 := rfl
@[simp] theorem acceptStart_nsym (codec : BitVec 3) (entry ie : Bool) : (acceptStart codec entry ie s).nsym = s.nsym := rfl
@[simp] theorem acceptStart_M (codec : BitVec 3) (entry ie : Bool) : (acceptStart codec entry ie s).M = s.M := rfl
@[simp] theorem acceptStart_acc (codec : BitVec 3) (entry ie : Bool) : (acceptStart codec entry ie s).acc = s.acc := rfl
@[simp] theorem acceptStart_turns (codec : BitVec 3) (entry ie : Bool) : (acceptStart codec entry ie s).turns = s.turns := rfl
@[simp] theorem acceptStart_rdata (codec : BitVec 3) (entry ie : Bool) : (acceptStart codec entry ie s).rdata = s.rdata := rfl
@[simp] theorem acceptStart_freeCtr (codec : BitVec 3) (entry ie : Bool) : (acceptStart codec entry ie s).freeCtr = s.freeCtr := rfl
@[simp] theorem acceptStart_inst (codec : BitVec 3) (entry ie : Bool) : (acceptStart codec entry ie s).inst = s.inst := rfl

/-! ### `takeHeader` -/

@[simp] theorem takeHeader_ctrlCodec (hw : Word) (len : BitVec 24) : (takeHeader hw len s).ctrlCodec = s.ctrlCodec := rfl
@[simp] theorem takeHeader_ctrlEntry (hw : Word) (len : BitVec 24) : (takeHeader hw len s).ctrlEntry = s.ctrlEntry := rfl
@[simp] theorem takeHeader_ctrlIe (hw : Word) (len : BitVec 24) : (takeHeader hw len s).ctrlIe = s.ctrlIe := rfl
@[simp] theorem takeHeader_done (hw : Word) (len : BitVec 24) : (takeHeader hw len s).done = s.done := rfl
@[simp] theorem takeHeader_err (hw : Word) (len : BitVec 24) : (takeHeader hw len s).err = s.err := rfl
@[simp] theorem takeHeader_ofsErr (hw : Word) (len : BitVec 24) : (takeHeader hw len s).ofsErr = s.ofsErr := rfl
@[simp] theorem takeHeader_errCode (hw : Word) (len : BitVec 24) : (takeHeader hw len s).errCode = s.errCode := rfl
@[simp] theorem takeHeader_bufSize (hw : Word) (len : BitVec 24) : (takeHeader hw len s).bufSize = s.bufSize := rfl
@[simp] theorem takeHeader_cursor (hw : Word) (len : BitVec 24) : (takeHeader hw len s).cursor = BitVec.ofNat 32 (s.cursor.toNat + 4) := rfl
@[simp] theorem takeHeader_offset (hw : Word) (len : BitVec 24) : (takeHeader hw len s).offset = s.offset := rfl
@[simp] theorem takeHeader_order (hw : Word) (len : BitVec 24) : (takeHeader hw len s).order = s.order := rfl
@[simp] theorem takeHeader_outLen (hw : Word) (len : BitVec 24) : (takeHeader hw len s).outLen = s.outLen := rfl
@[simp] theorem takeHeader_outCount (hw : Word) (len : BitVec 24) : (takeHeader hw len s).outCount = s.outCount := rfl
@[simp] theorem takeHeader_errOffset (hw : Word) (len : BitVec 24) : (takeHeader hw len s).errOffset = s.errOffset := rfl
@[simp] theorem takeHeader_outCap (hw : Word) (len : BitVec 24) : (takeHeader hw len s).outCap = s.outCap := rfl
@[simp] theorem takeHeader_maxSrc (hw : Word) (len : BitVec 24) : (takeHeader hw len s).maxSrc = s.maxSrc := rfl
@[simp] theorem takeHeader_srcMem (hw : Word) (len : BitVec 24) : (takeHeader hw len s).srcMem = s.srcMem := rfl
@[simp] theorem takeHeader_outMem (hw : Word) (len : BitVec 24) : (takeHeader hw len s).outMem = s.outMem := rfl
@[simp] theorem takeHeader_treeMem (hw : Word) (len : BitVec 24) : (takeHeader hw len s).treeMem = s.treeMem := rfl
@[simp] theorem takeHeader_srcDraw (hw : Word) (len : BitVec 24) : (takeHeader hw len s).srcDraw = s.srcDraw := rfl
@[simp] theorem takeHeader_outDraw (hw : Word) (len : BitVec 24) : (takeHeader hw len s).outDraw = s.outDraw := rfl
@[simp] theorem takeHeader_treeDraw (hw : Word) (len : BitVec 24) : (takeHeader hw len s).treeDraw = s.treeDraw := rfl
@[simp] theorem takeHeader_phase (hw : Word) (len : BitVec 24) : (takeHeader hw len s).phase = s.phase := rfl
@[simp] theorem takeHeader_jcodec (hw : Word) (len : BitVec 24) : (takeHeader hw len s).jcodec = s.jcodec := rfl
@[simp] theorem takeHeader_jentry (hw : Word) (len : BitVec 24) : (takeHeader hw len s).jentry = s.jentry := rfl
@[simp] theorem takeHeader_jorder (hw : Word) (len : BitVec 24) : (takeHeader hw len s).jorder = s.jorder := rfl
@[simp] theorem takeHeader_saved (hw : Word) (len : BitVec 24) : (takeHeader hw len s).saved = s.saved := rfl
@[simp] theorem takeHeader_pos (hw : Word) (len : BitVec 24) : (takeHeader hw len s).pos = s.pos := rfl
@[simp] theorem takeHeader_W (hw : Word) (len : BitVec 24) : (takeHeader hw len s).W = hw := rfl
@[simp] theorem takeHeader_L (hw : Word) (len : BitVec 24) : (takeHeader hw len s).L = len := rfl
@[simp] theorem takeHeader_out (hw : Word) (len : BitVec 24) : (takeHeader hw len s).out = s.out := rfl
@[simp] theorem takeHeader_flags (hw : Word) (len : BitVec 24) : (takeHeader hw len s).flags = s.flags := rfl
@[simp] theorem takeHeader_fbit (hw : Word) (len : BitVec 24) : (takeHeader hw len s).fbit = s.fbit := rfl
@[simp] theorem takeHeader_D (hw : Word) (len : BitVec 24) : (takeHeader hw len s).D = s.D := rfl
@[simp] theorem takeHeader_TS (hw : Word) (len : BitVec 24) : (takeHeader hw len s).TS = s.TS := rfl
@[simp] theorem takeHeader_word (hw : Word) (len : BitVec 24) : (takeHeader hw len s).word = s.word := rfl
@[simp] theorem takeHeader_bitsLeft (hw : Word) (len : BitVec 24) : (takeHeader hw len s).bitsLeft = s.bitsLeft := rfl
@[simp] theorem takeHeader_wordOff (hw : Word) (len : BitVec 24) : (takeHeader hw len s).wordOff = s.wordOff := rfl
@[simp] theorem takeHeader_a (hw : Word) (len : BitVec 24) : (takeHeader hw len s).a = s.a := rfl
@[simp] theorem takeHeader_steps (hw : Word) (len : BitVec 24) : (takeHeader hw len s).steps = s.steps := rfl
@[simp] theorem takeHeader_acc8 (hw : Word) (len : BitVec 24) : (takeHeader hw len s).acc8 = s.acc8 := rfl
@[simp] theorem takeHeader_nsym (hw : Word) (len : BitVec 24) : (takeHeader hw len s).nsym = s.nsym := rfl
@[simp] theorem takeHeader_M (hw : Word) (len : BitVec 24) : (takeHeader hw len s).M = s.M := rfl
@[simp] theorem takeHeader_acc (hw : Word) (len : BitVec 24) : (takeHeader hw len s).acc = s.acc := rfl
@[simp] theorem takeHeader_turns (hw : Word) (len : BitVec 24) : (takeHeader hw len s).turns = s.turns := rfl
@[simp] theorem takeHeader_rdata (hw : Word) (len : BitVec 24) : (takeHeader hw len s).rdata = s.rdata := rfl
@[simp] theorem takeHeader_freeCtr (hw : Word) (len : BitVec 24) : (takeHeader hw len s).freeCtr = s.freeCtr := rfl
@[simp] theorem takeHeader_inst (hw : Word) (len : BitVec 24) : (takeHeader hw len s).inst = s.inst := rfl

/-! ### `takeBlock` -/

@[simp] theorem takeBlock_ctrlCodec (n : Nat) : (takeBlock n s).ctrlCodec = s.ctrlCodec := rfl
@[simp] theorem takeBlock_ctrlEntry (n : Nat) : (takeBlock n s).ctrlEntry = s.ctrlEntry := rfl
@[simp] theorem takeBlock_ctrlIe (n : Nat) : (takeBlock n s).ctrlIe = s.ctrlIe := rfl
@[simp] theorem takeBlock_done (n : Nat) : (takeBlock n s).done = s.done := rfl
@[simp] theorem takeBlock_err (n : Nat) : (takeBlock n s).err = s.err := rfl
@[simp] theorem takeBlock_ofsErr (n : Nat) : (takeBlock n s).ofsErr = s.ofsErr := rfl
@[simp] theorem takeBlock_errCode (n : Nat) : (takeBlock n s).errCode = s.errCode := rfl
@[simp] theorem takeBlock_bufSize (n : Nat) : (takeBlock n s).bufSize = s.bufSize := rfl
@[simp] theorem takeBlock_cursor (n : Nat) : (takeBlock n s).cursor = BitVec.ofNat 32 (s.cursor.toNat + n) := rfl
@[simp] theorem takeBlock_offset (n : Nat) : (takeBlock n s).offset = s.offset := rfl
@[simp] theorem takeBlock_order (n : Nat) : (takeBlock n s).order = s.order := rfl
@[simp] theorem takeBlock_outLen (n : Nat) : (takeBlock n s).outLen = s.outLen := rfl
@[simp] theorem takeBlock_outCount (n : Nat) : (takeBlock n s).outCount = s.outCount := rfl
@[simp] theorem takeBlock_errOffset (n : Nat) : (takeBlock n s).errOffset = s.errOffset := rfl
@[simp] theorem takeBlock_outCap (n : Nat) : (takeBlock n s).outCap = s.outCap := rfl
@[simp] theorem takeBlock_maxSrc (n : Nat) : (takeBlock n s).maxSrc = s.maxSrc := rfl
@[simp] theorem takeBlock_srcMem (n : Nat) : (takeBlock n s).srcMem = s.srcMem := rfl
@[simp] theorem takeBlock_outMem (n : Nat) : (takeBlock n s).outMem = s.outMem := rfl
@[simp] theorem takeBlock_treeMem (n : Nat) : (takeBlock n s).treeMem = s.treeMem := rfl
@[simp] theorem takeBlock_srcDraw (n : Nat) : (takeBlock n s).srcDraw = s.srcDraw := rfl
@[simp] theorem takeBlock_outDraw (n : Nat) : (takeBlock n s).outDraw = s.outDraw := rfl
@[simp] theorem takeBlock_treeDraw (n : Nat) : (takeBlock n s).treeDraw = s.treeDraw := rfl
@[simp] theorem takeBlock_phase (n : Nat) : (takeBlock n s).phase = s.phase := rfl
@[simp] theorem takeBlock_jcodec (n : Nat) : (takeBlock n s).jcodec = s.jcodec := rfl
@[simp] theorem takeBlock_jentry (n : Nat) : (takeBlock n s).jentry = s.jentry := rfl
@[simp] theorem takeBlock_jorder (n : Nat) : (takeBlock n s).jorder = s.jorder := rfl
@[simp] theorem takeBlock_saved (n : Nat) : (takeBlock n s).saved = s.saved := rfl
@[simp] theorem takeBlock_pos (n : Nat) : (takeBlock n s).pos = s.pos := rfl
@[simp] theorem takeBlock_W (n : Nat) : (takeBlock n s).W = s.W := rfl
@[simp] theorem takeBlock_L (n : Nat) : (takeBlock n s).L = s.L := rfl
@[simp] theorem takeBlock_out (n : Nat) : (takeBlock n s).out = s.out := rfl
@[simp] theorem takeBlock_flags (n : Nat) : (takeBlock n s).flags = s.flags := rfl
@[simp] theorem takeBlock_fbit (n : Nat) : (takeBlock n s).fbit = s.fbit - 1 := rfl
@[simp] theorem takeBlock_D (n : Nat) : (takeBlock n s).D = s.D := rfl
@[simp] theorem takeBlock_TS (n : Nat) : (takeBlock n s).TS = s.TS := rfl
@[simp] theorem takeBlock_word (n : Nat) : (takeBlock n s).word = s.word := rfl
@[simp] theorem takeBlock_bitsLeft (n : Nat) : (takeBlock n s).bitsLeft = s.bitsLeft := rfl
@[simp] theorem takeBlock_wordOff (n : Nat) : (takeBlock n s).wordOff = s.wordOff := rfl
@[simp] theorem takeBlock_a (n : Nat) : (takeBlock n s).a = s.a := rfl
@[simp] theorem takeBlock_steps (n : Nat) : (takeBlock n s).steps = s.steps := rfl
@[simp] theorem takeBlock_acc8 (n : Nat) : (takeBlock n s).acc8 = s.acc8 := rfl
@[simp] theorem takeBlock_nsym (n : Nat) : (takeBlock n s).nsym = s.nsym := rfl
@[simp] theorem takeBlock_M (n : Nat) : (takeBlock n s).M = s.M := rfl
@[simp] theorem takeBlock_acc (n : Nat) : (takeBlock n s).acc = s.acc := rfl
@[simp] theorem takeBlock_turns (n : Nat) : (takeBlock n s).turns = s.turns := rfl
@[simp] theorem takeBlock_rdata (n : Nat) : (takeBlock n s).rdata = s.rdata := rfl
@[simp] theorem takeBlock_freeCtr (n : Nat) : (takeBlock n s).freeCtr = s.freeCtr := rfl
@[simp] theorem takeBlock_inst (n : Nat) : (takeBlock n s).inst = s.inst := rfl

/-! ### `restart` -/

@[simp] theorem restart_ctrlCodec : (restart s).ctrlCodec = s.ctrlCodec := rfl
@[simp] theorem restart_ctrlEntry : (restart s).ctrlEntry = s.ctrlEntry := rfl
@[simp] theorem restart_ctrlIe : (restart s).ctrlIe = s.ctrlIe := rfl
@[simp] theorem restart_done : (restart s).done = s.done := rfl
@[simp] theorem restart_err : (restart s).err = s.err := rfl
@[simp] theorem restart_ofsErr : (restart s).ofsErr = s.ofsErr := rfl
@[simp] theorem restart_errCode : (restart s).errCode = s.errCode := rfl
@[simp] theorem restart_bufSize : (restart s).bufSize = s.bufSize := rfl
@[simp] theorem restart_cursor : (restart s).cursor = s.cursor := rfl
@[simp] theorem restart_offset : (restart s).offset = s.offset := rfl
@[simp] theorem restart_order : (restart s).order = s.order := rfl
@[simp] theorem restart_outLen : (restart s).outLen = s.outLen := rfl
@[simp] theorem restart_outCount : (restart s).outCount = s.outCount := rfl
@[simp] theorem restart_errOffset : (restart s).errOffset = s.errOffset := rfl
@[simp] theorem restart_outCap : (restart s).outCap = s.outCap := rfl
@[simp] theorem restart_maxSrc : (restart s).maxSrc = s.maxSrc := rfl
@[simp] theorem restart_srcMem : (restart s).srcMem = s.srcMem := rfl
@[simp] theorem restart_outMem : (restart s).outMem = s.outMem := rfl
@[simp] theorem restart_treeMem : (restart s).treeMem = s.treeMem := rfl
@[simp] theorem restart_srcDraw : (restart s).srcDraw = s.srcDraw := rfl
@[simp] theorem restart_outDraw : (restart s).outDraw = s.outDraw := rfl
@[simp] theorem restart_treeDraw : (restart s).treeDraw = s.treeDraw := rfl
@[simp] theorem restart_phase : (restart s).phase = s.phase := rfl
@[simp] theorem restart_jcodec : (restart s).jcodec = s.jcodec := rfl
@[simp] theorem restart_jentry : (restart s).jentry = s.jentry := rfl
@[simp] theorem restart_jorder : (restart s).jorder = s.jorder := rfl
@[simp] theorem restart_saved : (restart s).saved = s.saved := rfl
@[simp] theorem restart_pos : (restart s).pos = .body := rfl
@[simp] theorem restart_W : (restart s).W = s.W := rfl
@[simp] theorem restart_L : (restart s).L = s.L := rfl
@[simp] theorem restart_out : (restart s).out = s.out := rfl
@[simp] theorem restart_flags : (restart s).flags = s.flags := rfl
@[simp] theorem restart_fbit : (restart s).fbit = s.fbit := rfl
@[simp] theorem restart_D : (restart s).D = s.D := rfl
@[simp] theorem restart_TS : (restart s).TS = s.TS := rfl
@[simp] theorem restart_word : (restart s).word = s.word := rfl
@[simp] theorem restart_bitsLeft : (restart s).bitsLeft = s.bitsLeft := rfl
@[simp] theorem restart_wordOff : (restart s).wordOff = s.wordOff := rfl
@[simp] theorem restart_a : (restart s).a = 1 := rfl
@[simp] theorem restart_steps : (restart s).steps = 0 := rfl
@[simp] theorem restart_acc8 : (restart s).acc8 = s.acc8 := rfl
@[simp] theorem restart_nsym : (restart s).nsym = s.nsym := rfl
@[simp] theorem restart_M : (restart s).M = s.M := rfl
@[simp] theorem restart_acc : (restart s).acc = s.acc := rfl
@[simp] theorem restart_turns : (restart s).turns = s.turns := rfl
@[simp] theorem restart_rdata : (restart s).rdata = s.rdata := rfl
@[simp] theorem restart_freeCtr : (restart s).freeCtr = s.freeCtr := rfl
@[simp] theorem restart_inst : (restart s).inst = s.inst := rfl

/-! ### `takeTurn` -/

@[simp] theorem takeTurn_ctrlCodec (rest : List Turn) : (takeTurn rest s).ctrlCodec = s.ctrlCodec := rfl
@[simp] theorem takeTurn_ctrlEntry (rest : List Turn) : (takeTurn rest s).ctrlEntry = s.ctrlEntry := rfl
@[simp] theorem takeTurn_ctrlIe (rest : List Turn) : (takeTurn rest s).ctrlIe = s.ctrlIe := rfl
@[simp] theorem takeTurn_done (rest : List Turn) : (takeTurn rest s).done = s.done := rfl
@[simp] theorem takeTurn_err (rest : List Turn) : (takeTurn rest s).err = s.err := rfl
@[simp] theorem takeTurn_ofsErr (rest : List Turn) : (takeTurn rest s).ofsErr = s.ofsErr := rfl
@[simp] theorem takeTurn_errCode (rest : List Turn) : (takeTurn rest s).errCode = s.errCode := rfl
@[simp] theorem takeTurn_bufSize (rest : List Turn) : (takeTurn rest s).bufSize = s.bufSize := rfl
@[simp] theorem takeTurn_cursor (rest : List Turn) : (takeTurn rest s).cursor = s.cursor := rfl
@[simp] theorem takeTurn_offset (rest : List Turn) : (takeTurn rest s).offset = s.offset := rfl
@[simp] theorem takeTurn_order (rest : List Turn) : (takeTurn rest s).order = s.order := rfl
@[simp] theorem takeTurn_outLen (rest : List Turn) : (takeTurn rest s).outLen = s.outLen := rfl
@[simp] theorem takeTurn_outCount (rest : List Turn) : (takeTurn rest s).outCount = s.outCount := rfl
@[simp] theorem takeTurn_errOffset (rest : List Turn) : (takeTurn rest s).errOffset = s.errOffset := rfl
@[simp] theorem takeTurn_outCap (rest : List Turn) : (takeTurn rest s).outCap = s.outCap := rfl
@[simp] theorem takeTurn_maxSrc (rest : List Turn) : (takeTurn rest s).maxSrc = s.maxSrc := rfl
@[simp] theorem takeTurn_srcMem (rest : List Turn) : (takeTurn rest s).srcMem = s.srcMem := rfl
@[simp] theorem takeTurn_outMem (rest : List Turn) : (takeTurn rest s).outMem = s.outMem := rfl
@[simp] theorem takeTurn_treeMem (rest : List Turn) : (takeTurn rest s).treeMem = s.treeMem := rfl
@[simp] theorem takeTurn_srcDraw (rest : List Turn) : (takeTurn rest s).srcDraw = s.srcDraw := rfl
@[simp] theorem takeTurn_outDraw (rest : List Turn) : (takeTurn rest s).outDraw = s.outDraw := rfl
@[simp] theorem takeTurn_treeDraw (rest : List Turn) : (takeTurn rest s).treeDraw = s.treeDraw := rfl
@[simp] theorem takeTurn_phase (rest : List Turn) : (takeTurn rest s).phase = s.phase := rfl
@[simp] theorem takeTurn_jcodec (rest : List Turn) : (takeTurn rest s).jcodec = s.jcodec := rfl
@[simp] theorem takeTurn_jentry (rest : List Turn) : (takeTurn rest s).jentry = s.jentry := rfl
@[simp] theorem takeTurn_jorder (rest : List Turn) : (takeTurn rest s).jorder = s.jorder := rfl
@[simp] theorem takeTurn_saved (rest : List Turn) : (takeTurn rest s).saved = s.saved := rfl
@[simp] theorem takeTurn_pos (rest : List Turn) : (takeTurn rest s).pos = s.pos := rfl
@[simp] theorem takeTurn_W (rest : List Turn) : (takeTurn rest s).W = s.W := rfl
@[simp] theorem takeTurn_L (rest : List Turn) : (takeTurn rest s).L = s.L := rfl
@[simp] theorem takeTurn_out (rest : List Turn) : (takeTurn rest s).out = s.out := rfl
@[simp] theorem takeTurn_flags (rest : List Turn) : (takeTurn rest s).flags = s.flags := rfl
@[simp] theorem takeTurn_fbit (rest : List Turn) : (takeTurn rest s).fbit = s.fbit := rfl
@[simp] theorem takeTurn_D (rest : List Turn) : (takeTurn rest s).D = s.D := rfl
@[simp] theorem takeTurn_TS (rest : List Turn) : (takeTurn rest s).TS = s.TS := rfl
@[simp] theorem takeTurn_word (rest : List Turn) : (takeTurn rest s).word = s.word := rfl
@[simp] theorem takeTurn_bitsLeft (rest : List Turn) : (takeTurn rest s).bitsLeft = s.bitsLeft := rfl
@[simp] theorem takeTurn_wordOff (rest : List Turn) : (takeTurn rest s).wordOff = s.wordOff := rfl
@[simp] theorem takeTurn_a (rest : List Turn) : (takeTurn rest s).a = s.a := rfl
@[simp] theorem takeTurn_steps (rest : List Turn) : (takeTurn rest s).steps = s.steps := rfl
@[simp] theorem takeTurn_acc8 (rest : List Turn) : (takeTurn rest s).acc8 = s.acc8 := rfl
@[simp] theorem takeTurn_nsym (rest : List Turn) : (takeTurn rest s).nsym = s.nsym := rfl
@[simp] theorem takeTurn_M (rest : List Turn) : (takeTurn rest s).M = s.M := rfl
@[simp] theorem takeTurn_acc (rest : List Turn) : (takeTurn rest s).acc = s.acc := rfl
@[simp] theorem takeTurn_turns (rest : List Turn) : (takeTurn rest s).turns = rest := rfl
@[simp] theorem takeTurn_rdata (rest : List Turn) : (takeTurn rest s).rdata = s.rdata := rfl
@[simp] theorem takeTurn_freeCtr (rest : List Turn) : (takeTurn rest s).freeCtr = s.freeCtr := rfl
@[simp] theorem takeTurn_inst (rest : List Turn) : (takeTurn rest s).inst = s.inst := rfl

end Sys2Proof.Machine
end

