-- ==== Sys2Proof/Laws/Ops.lean ====
section
/-! SUPPORT. For each shared operation, one lemma that says what it can do. -/

namespace Sys2Proof.Machine

/-! ### Ports -/

theorem outRead_emit (b : Byte) (s : State) (i : Nat) :
    outRead (emit b s) i = if i = s.out then b else outRead s i := by
  simp only [outRead, emit_outMem, emit_outDraw, Memory.read_write]
  split <;> rfl

theorem outRead_emit_self (b : Byte) (s : State) : outRead (emit b s) s.out = b := by
  rw [outRead_emit, if_pos rfl]

theorem outRead_emit_ne (b : Byte) {s : State} {i : Nat} (h : i ≠ s.out) :
    outRead (emit b s) i = outRead s i := by
  rw [outRead_emit, if_neg h]

@[simp] theorem outRead_advance (n : Nat) (s : State) (i : Nat) : outRead (advance n s) i = outRead s i := rfl

@[simp] theorem srcByte_emit (b : Byte) (s : State) (i : Nat) : srcByte (emit b s) i = srcByte s i := rfl

@[simp] theorem srcByte_advance (n : Nat) (s : State) (i : Nat) : srcByte (advance n s) i = srcByte s i := rfl

@[simp] theorem srcByte_takeTurn (r : List Turn) (s : State) (i : Nat) :
    srcByte (takeTurn r s) i = srcByte s i := rfl

@[simp] theorem srcByte_raise (e : JobError) (off : Word) (s : State) (i : Nat) :
    srcByte (raise e off s) i = srcByte s i := rfl

@[simp] theorem outRead_raise (e : JobError) (off : Word) (s : State) (i : Nat) :
    outRead (raise e off s) i = Config.outByte s.inst (s.outDraw + 1) i := rfl

/-- What a byte read can answer (R62). -/
theorem read8_cases (s : State) :
    (s.cursor.toNat + 1 ≤ s.bufSize.toNat ∧ read8 s = .ok (srcByte s s.cursor.toNat) (advance 1 s)) ∨
    (s.bufSize.toNat < s.cursor.toNat + 1 ∧ read8 s = .bounds s.cursor) := by
  by_cases h : s.cursor.toNat + 1 ≤ s.bufSize.toNat
  · exact .inl ⟨h, by simp [read8, inBounds, h]⟩
  · exact .inr ⟨by omega, by simp [read8, inBounds, h]⟩

/-- What a 16-bit read can answer (R63). -/
theorem read16_cases (s : State) :
    (s.cursor.toNat + 2 ≤ s.bufSize.toNat ∧
      read16 s = .ok (assemble16 s.jorder (srcByte s s.cursor.toNat) (srcByte s (s.cursor.toNat + 1)))
        (advance 2 s)) ∨
    (s.bufSize.toNat < s.cursor.toNat + 2 ∧ read16 s = .bounds s.cursor) := by
  by_cases h : s.cursor.toNat + 2 ≤ s.bufSize.toNat
  · exact .inl ⟨h, by simp [read16, inBounds, h]⟩
  · exact .inr ⟨by omega, by simp [read16, inBounds, h]⟩

/-- What a 32-bit read can answer (R63). -/
theorem read32_cases (s : State) :
    (s.cursor.toNat + 4 ≤ s.bufSize.toNat ∧
      read32 s = .ok (assemble32 s.jorder (srcByte s s.cursor.toNat) (srcByte s (s.cursor.toNat + 1))
        (srcByte s (s.cursor.toNat + 2)) (srcByte s (s.cursor.toNat + 3))) (advance 4 s)) ∨
    (s.bufSize.toNat < s.cursor.toNat + 4 ∧ read32 s = .bounds s.cursor) := by
  by_cases h : s.cursor.toNat + 4 ≤ s.bufSize.toNat
  · exact .inl ⟨h, by simp [read32, inBounds, h]⟩
  · exact .inr ⟨by omega, by simp [read32, inBounds, h]⟩

/-- What a range read can answer (R64). -/
theorem readRange_cases (n : Nat) (s : State) :
    (s.cursor.toNat + n ≤ s.bufSize.toNat ∧
      readRange n s = .ok (srcBytes s s.cursor.toNat n) (advance n s)) ∨
    (s.bufSize.toNat < s.cursor.toNat + n ∧ readRange n s = .bounds s.cursor) := by
  by_cases h : s.cursor.toNat + n ≤ s.bufSize.toNat
  · exact .inl ⟨h, by simp [readRange, inBounds, h]⟩
  · exact .inr ⟨by omega, by simp [readRange, inBounds, h]⟩

/-- A completed read inside the buffer moves CURSOR by exactly its width (R65). -/
theorem advance_cursor_toNat {n : Nat} {s : State} (h : s.cursor.toNat + n ≤ s.bufSize.toNat) :
    (advance n s).cursor.toNat = s.cursor.toNat + n := by
  have := s.bufSize.isLt
  simp only [advance_cursor, BitVec.toNat_ofNat]
  exact Nat.mod_eq_of_lt (by omega)

theorem advance_cursor_eq (n : Nat) (s : State) :
    (advance n s).cursor = s.cursor + BitVec.ofNat 32 n := by
  apply BitVec.eq_of_toNat_eq
  simp [BitVec.toNat_add]

theorem advance_advance (m n : Nat) (s : State) : advance n (advance m s) = advance (m + n) s := by
  simp only [advance, State.mk.injEq, true_and, and_true]
  apply BitVec.eq_of_toNat_eq
  simp [Nat.add_assoc]

@[simp] theorem srcBytes_length (s : State) (c n : Nat) : (srcBytes s c n).length = n := by
  simp [srcBytes]

theorem srcBytes_getElem? (s : State) (c n k : Nat) (h : k < n) :
    (srcBytes s c n)[k]? = some (srcByte s (c + k)) := by
  simp [srcBytes, h]

theorem window_length (n : Nat) (s : State) :
    (window n s).length = min n (s.bufSize.toNat - s.cursor.toNat) := by
  simp [window]

/-! ### The copies -/

/-- A copy changes OUT and the output index only (R137). -/
theorem copyBack_eq (disp n : Nat) (s : State) :
    copyBack disp n s =
      { s with outMem := (copyBack disp n s).outMem, out := s.out + n } := by
  induction n generalizing s with
  | zero => rfl
  | succ n ih =>
    simp only [copyBack]
    rw [ih]
    simp [emit, Nat.add_assoc, Nat.add_comm 1 n]

theorem succ_mod {k d : Nat} (h : 1 ≤ d) :
    (k + 1) % d = if k % d + 1 = d then 0 else k % d + 1 := by
  have hk : k % d < d := Nat.mod_lt _ h
  have hq := Nat.div_add_mod k d
  split
  · rename_i hd
    have : k + 1 = d * (k / d + 1) := by rw [Nat.mul_add]; omega
    rw [this, Nat.mul_mod_right]
  · have : k + 1 = k % d + 1 + d * (k / d) := by omega
    rw [this, Nat.add_mul_mod_self_left]
    exact Nat.mod_eq_of_lt (by omega)

/-- Byte `k` of a copy is byte `k mod disp` of the `disp` bytes before it (R137). -/
theorem copyBack_outRead (disp n : Nat) (s : State) (h1 : 1 ≤ disp) (h2 : disp ≤ s.out) (i : Nat) :
    outRead (copyBack disp n s) i =
      if s.out ≤ i ∧ i < s.out + n then outRead s (s.out - disp + (i - s.out) % disp)
      else outRead s i := by
  induction n generalizing s with
  | zero => rw [if_neg (by omega)]; rfl
  | succ n ih =>
    rw [copyBack, ih _ (by rw [emit_out]; omega), emit_out]
    by_cases hi : i = s.out
    · subst hi
      rw [if_neg (by omega), if_pos (by omega), outRead_emit_self, Nat.sub_self, Nat.zero_mod,
        Nat.add_zero]
    · by_cases hr : s.out + 1 ≤ i ∧ i < s.out + 1 + n
      · rw [if_pos hr, if_pos (by omega)]
        obtain ⟨k, rfl⟩ := Nat.exists_eq_add_of_le hr.1
        have e1 : s.out + 1 + k - (s.out + 1) = k := by omega
        have e2 : s.out + 1 + k - s.out = k + 1 := by omega
        rw [e1, e2, succ_mod h1]
        have hk : k % disp < disp := Nat.mod_lt _ h1
        by_cases hd : k % disp + 1 = disp
        · have e3 : s.out + 1 - disp + k % disp = s.out := by omega
          rw [if_pos hd, e3, outRead_emit_self, Nat.add_zero]
        · have e3 : s.out + 1 - disp + k % disp = s.out - disp + (k % disp + 1) := by omega
          rw [if_neg hd, e3, outRead_emit_ne _ (by omega)]
      · rw [if_neg hr, if_neg (by omega), outRead_emit_ne _ hi]

/-- A replicate run changes OUT and the output index only (R192). -/
theorem emitRun_eq (b : Byte) (n : Nat) (s : State) :
    emitRun b n s = { s with outMem := (emitRun b n s).outMem, out := s.out + n } := by
  induction n generalizing s with
  | zero => rfl
  | succ n ih =>
    simp only [emitRun]
    rw [ih]
    simp [emit, Nat.add_assoc, Nat.add_comm 1 n]

theorem emitRun_outRead (b : Byte) (n : Nat) (s : State) (i : Nat) :
    outRead (emitRun b n s) i = if s.out ≤ i ∧ i < s.out + n then b else outRead s i := by
  induction n generalizing s with
  | zero => rw [if_neg (by omega)]; rfl
  | succ n ih =>
    rw [emitRun, ih, emit_out]
    by_cases hi : i = s.out
    · subst hi
      rw [if_neg (by omega), if_pos (by omega), outRead_emit_self]
    · rw [outRead_emit_ne _ hi]
      by_cases hr : s.out + 1 ≤ i ∧ i < s.out + 1 + n
      · rw [if_pos hr, if_pos (by omega)]
      · rw [if_neg hr, if_neg (by omega)]

/-- A verbatim run whose data bytes are all in the buffer (R191). -/
theorem copyRun_eq (n : Nat) (s : State) (h : s.cursor.toNat + n ≤ s.bufSize.toNat) :
    copyRun n s =
      { s with outMem := (copyRun n s).outMem, out := s.out + n,
               cursor := BitVec.ofNat 32 (s.cursor.toNat + n) } := by
  induction n generalizing s with
  | zero => simp [copyRun]
  | succ n ih =>
    rcases read8_cases s with ⟨hb, hr⟩ | ⟨hb, _⟩
    · have hc := advance_cursor_toNat hb
      have hrec := ih (emit (srcByte s s.cursor.toNat) (advance 1 s)) (by simp only [emit_cursor, emit_bufSize, hc, advance_bufSize]; omega)
      simp only [copyRun, hr]
      rw [hrec]
      simp only [emit_cursor, hc, emit_out, advance_out]
      simp only [emit, advance, State.mk.injEq, true_and, and_true]
      refine ⟨?_, ?_⟩
      · congr 1; omega
      · omega
    · omega

theorem copyRun_outRead (n : Nat) (s : State) (h : s.cursor.toNat + n ≤ s.bufSize.toNat) (i : Nat) :
    outRead (copyRun n s) i =
      if s.out ≤ i ∧ i < s.out + n then srcByte s (s.cursor.toNat + (i - s.out)) else outRead s i := by
  induction n generalizing s with
  | zero => rw [if_neg (by omega)]; rfl
  | succ n ih =>
    rcases read8_cases s with ⟨hb, hr⟩ | ⟨hb, _⟩
    · have hc := advance_cursor_toNat hb
      have ho : (emit (srcByte s s.cursor.toNat) (advance 1 s)).out = s.out + 1 := rfl
      have hcur : (emit (srcByte s s.cursor.toNat) (advance 1 s)).cursor.toNat = s.cursor.toNat + 1 := hc
      simp only [copyRun, hr]
      rw [ih _ (by rw [hcur, emit_bufSize, advance_bufSize]; omega), ho, hcur]
      by_cases hi : i = s.out
      · subst hi
        rw [if_neg (by omega), if_pos (by omega), Nat.sub_self, Nat.add_zero]
        exact outRead_emit_self _ (advance 1 s)
      · rw [outRead_emit_ne _ (by exact hi), srcByte_emit, srcByte_advance, outRead_advance]
        by_cases hq : s.out + 1 ≤ i ∧ i < s.out + 1 + n
        · rw [if_pos hq, if_pos (by omega)]
          congr 1
          omega
        · rw [if_neg hq, if_neg (by omega)]
    · omega

/-- A verbatim run that the end of the buffer cuts after `m` of its data bytes (R191). -/
theorem copyRun_truncated (n m : Nat) (s : State) (h : s.cursor.toNat + m = s.bufSize.toNat)
    (hlt : m < n) :
    copyRun n s = raise .bounds (copyRun m s).cursor (copyRun m s) := by
  induction m generalizing n s with
  | zero =>
    cases n with
    | zero => omega
    | succ n =>
      rcases read8_cases s with ⟨hb, _⟩ | ⟨_, hr⟩
      · omega
      · simp [copyRun, hr]
  | succ m ih =>
    cases n with
    | zero => omega
    | succ n =>
      rcases read8_cases s with ⟨hb, hr⟩ | ⟨hb, _⟩
      · have hc := advance_cursor_toNat hb
        simp only [copyRun, hr]
        exact ih n _ (by simp only [emit_cursor, emit_bufSize, hc, advance_bufSize]; omega) (by omega)
      · omega

/-! ### The block never stops -/

/-- Every meaning answers a next state. -/
theorem exec_next (i : Instr) (s : State) : ∃ t, exec i s = .next t := by
  cases i <;> exact ⟨_, rfl⟩

/-- A turn of the block answers a next state. -/
theorem blockStep_next (s : State) : ∃ t, blockStep s = .next t := by
  unfold blockStep
  split
  · exact ⟨_, rfl⟩
  · split
    · exact ⟨_, rfl⟩
    · split
      · exact ⟨_, rfl⟩
      · split
        · exact exec_next _ s
        · exact ⟨_, rfl⟩

/-- What a fetch can find (R104, R164). -/
theorem fetch_cases (s : State) :
    (Codec.ofBits s.jcodec = none ∧ fetch s = .failed .badCodec s.saved 0) ∨
    (∃ c, Codec.ofBits s.jcodec = some c ∧ slotOf c s = .hufPath ∧ s.steps ≠ 0 ∧
      fetch s = .failed .noLeaf s.wordOff 0) ∨
    (∃ c i, Codec.ofBits s.jcodec = some c ∧ ¬ (slotOf c s = .hufPath ∧ s.steps ≠ 0) ∧
      decode (slotOf c s) s.jorder (elementBytes s (slotOf c s)) = .ok i ∧ fetch s = .element i) ∨
    (∃ c r, Codec.ofBits s.jcodec = some c ∧ ¬ (slotOf c s = .hufPath ∧ s.steps ≠ 0) ∧
      decode (slotOf c s) s.jorder (elementBytes s (slotOf c s)) = .error r ∧
      fetch s = rejectRecord s r) := by
  unfold fetch
  cases hc : Codec.ofBits s.jcodec with
  | none => exact .inl ⟨rfl, rfl⟩
  | some c =>
    dsimp only
    by_cases hn : slotOf c s = .hufPath ∧ s.steps ≠ 0
    · rw [if_pos hn]
      exact .inr (.inl ⟨c, rfl, hn.1, hn.2, rfl⟩)
    · rw [if_neg hn]
      cases hd : decode (slotOf c s) s.jorder (elementBytes s (slotOf c s)) with
      | ok i => exact .inr (.inr (.inl ⟨c, i, rfl, hn, hd, rfl⟩))
      | error r => exact .inr (.inr (.inr ⟨c, r, rfl, hn, hd, rfl⟩))

/-- A job that is complete stands in its body. -/
theorem bodyDone_pos {s : State} (h : bodyDone s = true) : s.pos = .body := by
  simp only [bodyDone, Bool.and_eq_true, beq_iff_eq] at h
  exact h.1.1

/-- A turn of an idle block changes nothing (60_exceptions.md R240). -/
theorem blockStep_idle {s : State} (h : s.phase = .idle) : blockStep s = .next s := by
  unfold blockStep
  rw [h]

/-- What a turn of a running block can be (41_job_control.md R111, R112, R116, R118, R226). -/
theorem blockStep_run_cases {s : State} (h : s.phase = .run) :
    (s.pos = .entry ∧ blockStep s = .next (enterStream s)) ∨
    (s.pos ≠ .entry ∧ bodyDone s = true ∧ blockStep s = .next (finish s)) ∨
    (∃ i, s.pos ≠ .entry ∧ bodyDone s = false ∧ fetch s = .element i ∧ blockStep s = exec i s) ∨
    (∃ e off k, s.pos ≠ .entry ∧ bodyDone s = false ∧ fetch s = .failed e off k ∧
      blockStep s = .next (raise e off (advance k s))) := by
  unfold blockStep
  rw [h]
  dsimp only
  by_cases hp : s.pos = .entry
  · exact .inl ⟨hp, if_pos hp⟩
  · rw [if_neg hp]
    cases hb : bodyDone s with
    | true => exact .inr (.inl ⟨hp, rfl, rfl⟩)
    | false =>
      cases hf : fetch s with
      | element i => exact .inr (.inr (.inl ⟨i, hp, rfl, rfl, rfl⟩))
      | failed e off k => exact .inr (.inr (.inr ⟨e, off, k, hp, rfl, rfl, rfl⟩))

/-- What a step can be. -/
theorem step_cases (s : State) :
    (∃ rest, BlockTurn s rest ∧ step s = blockStep (takeTurn rest s)) ∨
    (∃ op rest, HostTurn s op rest ∧ step s = hostStep op (takeTurn rest s)) := by
  unfold step BlockTurn HostTurn takeTurn
  cases ht : s.turns with
  | nil =>
    refine .inl ⟨[], .inr ⟨rfl, rfl⟩, ?_⟩
    have : { s with turns := [] } = s := by rw [← ht]
    rw [this]
  | cons t rest =>
    cases t with
    | block => exact .inl ⟨rest, .inl rfl, rfl⟩
    | host op => exact .inr ⟨op, rest, rfl, rfl⟩

/-- A turn of the block is a turn of the block whether it is scheduled or nothing is. -/
theorem step_blockTurn {s : State} {rest : List Turn} (h : BlockTurn s rest) :
    step s = blockStep (takeTurn rest s) := by
  unfold step takeTurn
  rcases h with h | ⟨h, rfl⟩
  · rw [h]
  · rw [h]
    have : { s with turns := [] } = s := by rw [← h]
    rw [this]

/-- The turn of the block after an accepted START (R111, R112). -/
theorem step_entryTurn {s : State} {rest : List Turn} (h : BlockTurn s rest) (hrun : s.phase = .run)
    (hpos : s.pos = .entry) : step s = .next (enterStream (takeTurn rest s)) := by
  rw [step_blockTurn h]
  rcases blockStep_run_cases (s := takeTurn rest s) hrun with ⟨_, he⟩ | ⟨hn, _⟩ | ⟨_, hn, _⟩ | ⟨_, _, _, hn, _⟩
  · exact he
  all_goals exact absurd hpos hn

theorem step_hostTurn {s : State} {op : HostOp} {rest : List Turn} (h : HostTurn s op rest) :
    step s = hostStep op (takeTurn rest s) := by
  unfold step takeTurn
  rw [h]

end Sys2Proof.Machine
end

