-- ==== Sys2Proof/Laws/Bits.lean ====
section
/-! SUPPORT. The bit-field helpers as arithmetic: one lemma for each, in terms of `toNat`. -/

namespace Sys2Proof

/-- `a ‖ b` as a number (00_scope.md R10). -/
theorem cat_toNat {m n : Nat} (a : BitVec m) (b : BitVec n) :
    (a ++ b).toNat = a.toNat * 2 ^ n + b.toNat := by
  rw [BitVec.toNat_append, ← Nat.shiftLeft_add_eq_or_of_lt b.isLt, Nat.shiftLeft_eq]

/-- `v[hi:lo]` as a number (R10). -/
theorem field_toNat {w : Nat} (v : BitVec w) (lo n : Nat) :
    (v.extractLsb' lo n).toNat = v.toNat / 2 ^ lo % 2 ^ n := by
  rw [BitVec.extractLsb'_toNat, Nat.shiftRight_eq_div_pow]

theorem ofBool_toNat (b : Bool) : (BitVec.ofBool b).toNat = b.toNat := by cases b <;> rfl

theorem dispField_toNat (hi lo : Byte) :
    (dispField hi lo).toNat = hi.toNat % 16 * 256 + lo.toNat := by
  refine (cat_toNat (hi.extractLsb' 0 4) lo).trans ?_
  rw [field_toNat]
  simp

theorem assemble16_big (b0 b1 : Byte) :
    (assemble16 .big b0 b1).toNat = b0.toNat * 2 ^ 8 + b1.toNat := cat_toNat b0 b1

theorem assemble16_little (b0 b1 : Byte) :
    (assemble16 .little b0 b1).toNat = b1.toNat * 2 ^ 8 + b0.toNat := cat_toNat b1 b0

theorem assemble32_big (b0 b1 b2 b3 : Byte) :
    (assemble32 .big b0 b1 b2 b3).toNat =
      ((b0.toNat * 2 ^ 8 + b1.toNat) * 2 ^ 8 + b2.toNat) * 2 ^ 8 + b3.toNat := by
  refine (cat_toNat (b0 ++ b1 ++ b2) b3).trans ?_
  rw [cat_toNat, cat_toNat]

theorem assemble32_little (b0 b1 b2 b3 : Byte) :
    (assemble32 .little b0 b1 b2 b3).toNat =
      ((b3.toNat * 2 ^ 8 + b2.toNat) * 2 ^ 8 + b1.toNat) * 2 ^ 8 + b0.toNat := by
  refine (cat_toNat (b3 ++ b2 ++ b1) b0).trans ?_
  rw [cat_toNat, cat_toNat]

theorem typedHeader_toNat (t : Byte) (len : BitVec 24) :
    (typedHeader t len).toNat = t.toNat * 2 ^ 24 + len.toNat := cat_toNat t len

theorem huffHeader_toNat (d : BitVec 4) (len : BitVec 24) :
    (huffHeader d len).toNat = 2 * 2 ^ 28 + (d.toNat * 2 ^ 24 + len.toNat) := by
  refine (cat_toNat 0x2#4 (d ++ len)).trans ?_
  rw [cat_toNat]
  rfl

theorem diffHeader_toNat (mode : BitVec 4) (len : BitVec 24) :
    (diffHeader mode len).toNat = len.toNat * 2 ^ 8 + (8 * 2 ^ 4 + mode.toNat) := by
  refine (cat_toNat len (Config.diffType ++ mode)).trans ?_
  rw [cat_toNat]
  rfl

theorem cmdWord_toNat (codec : BitVec 3) (e i : Bool) :
    (cmdWord codec e i).toNat = i.toNat * 2 ^ 5 + (e.toNat * 2 ^ 4 + (codec.toNat * 2 + 1)) := by
  refine (cat_toNat 0#26 (BitVec.ofBool i ++ (BitVec.ofBool e ++ (codec ++ 1#1)))).trans ?_
  rw [cat_toNat, cat_toNat, cat_toNat, ofBool_toNat, ofBool_toNat]
  simp

/-- Four bytes written in an order are assembled back in it (20_memory.md R63). -/
theorem assemble32_bytes32 (o : ByteOrder) (v : Word) (rest : List Byte) :
    ∃ a b c d, bytes32 o v ++ rest = a :: b :: c :: d :: rest ∧ assemble32 o a b c d = v := by
  have hv := v.isLt
  cases o
  · refine ⟨_, _, _, _, rfl, BitVec.eq_of_toNat_eq ?_⟩
    rw [assemble32_big, field_toNat, field_toNat, field_toNat, field_toNat]
    omega
  · refine ⟨_, _, _, _, rfl, BitVec.eq_of_toNat_eq ?_⟩
    rw [assemble32_little, field_toNat, field_toNat, field_toNat, field_toNat]
    omega

/-- Two bytes written in an order are assembled back in it (R63). -/
theorem assemble16_bytes16 (o : ByteOrder) (v : BitVec 16) (rest : List Byte) :
    ∃ a b, bytes16 o v ++ rest = a :: b :: rest ∧ assemble16 o a b = v := by
  have hv := v.isLt
  cases o
  · refine ⟨_, _, rfl, BitVec.eq_of_toNat_eq ?_⟩
    rw [assemble16_big, field_toNat, field_toNat]
    omega
  · refine ⟨_, _, rfl, BitVec.eq_of_toNat_eq ?_⟩
    rw [assemble16_little, field_toNat, field_toNat]
    omega

end Sys2Proof

namespace Sys2Proof.Machine

theorem symbolOf_toNat (D : BitVec 4) (b : Byte) :
    (symbolOf D b).toNat = b.toNat % 2 ^ D.toNat % 256 := by
  simp [symbolOf]

theorem childAddr_eq (n : Nat) (node : Byte) (right : Bool) :
    childAddr n node right = n - n % 2 + (node.toNat % 64 + 1) * 2 + right.toNat := by
  unfold childAddr
  rw [field_toNat]
  simp only [Nat.pow_zero, Nat.div_one]
  omega

theorem treeSize_bounds (n : Byte) : 2 ≤ treeSize n ∧ treeSize n ≤ 512 := by
  have := n.isLt
  unfold treeSize
  omega

theorem dispOf_bounds (d : BitVec 12) : 1 ≤ dispOf d ∧ dispOf d ≤ 4096 := by
  have := d.isLt
  unfold dispOf
  omega

/-- The legal depths (43_huffman.md R161). -/
theorem depthLegal_iff (D : BitVec 4) :
    depthLegal D = true ↔ D = 1#4 ∨ D = 2#4 ∨ D = 4#4 ∨ D = 8#4 := by
  simp [depthLegal, or_assoc]

theorem ctrlWord_toNat (s : State) :
    (ctrlWord s).toNat =
      s.ctrlIe.toNat * 2 ^ 5 + (s.ctrlEntry.toNat * 2 ^ 4 + s.ctrlCodec.toNat * 2) := by
  refine (cat_toNat 0#26
    (BitVec.ofBool s.ctrlIe ++ (BitVec.ofBool s.ctrlEntry ++ (s.ctrlCodec ++ 0#1)))).trans ?_
  rw [cat_toNat, cat_toNat, cat_toNat, ofBool_toNat, ofBool_toNat]
  simp

theorem statusWord_toNat (s : State) :
    (statusWord s).toNat = s.errCode.toNat * 2 ^ 4 + (s.ofsErr.toNat * 2 ^ 3 + (s.err.toNat * 2 ^ 2 +
      (s.done.toNat * 2 + s.busy.toNat))) := by
  refine (cat_toNat 0#24 (s.errCode ++ (BitVec.ofBool s.ofsErr ++ (BitVec.ofBool s.err ++
    (BitVec.ofBool s.done ++ BitVec.ofBool s.busy))))).trans ?_
  rw [cat_toNat, cat_toNat, cat_toNat, cat_toNat, ofBool_toNat, ofBool_toNat, ofBool_toNat, ofBool_toNat]
  simp

end Sys2Proof.Machine
end

