-- ==== Sys2Proof/Laws/Decode.lean ====
section
/-! SUPPORT. What the decoder can answer, and what a fetch therefore finds. -/

namespace Sys2Proof

theorem decodeCmd_slot {v : Word} {i : Instr} (h : decodeCmd v = .ok i) : i.slot = .cmd := by
  unfold decodeCmd at h
  dsimp only at h
  split at h
  · split at h
    all_goals first | (cases h; rfl) | skip
    split at h
    · cases h; rfl
    · split at h <;> (cases h; rfl)
  · cases h

theorem decodeHeader_slot {c : Codec} {W : Word} {i : Instr} (h : decodeHeader c W = .ok i) :
    i.slot = .hdr c := by
  unfold decodeHeader at h
  cases c <;> dsimp only at h
  case diff =>
    split at h
    · split at h
      · cases h; rfl
      · split at h
        · cases h; rfl
        · cases h
    · cases h
  all_goals
    split at h
    · cases h; rfl
    · cases h

theorem decodeLzssRef_slot {bs : List Byte} {i : Instr} (h : decodeLzssRef bs = .ok i) :
    i.slot = .lzRef false := by
  unfold decodeLzssRef at h
  split at h <;> cases h
  rfl

theorem decodeLzxRef_slot {bs : List Byte} {i : Instr} (h : decodeLzxRef bs = .ok i) :
    i.slot = .lzRef true := by
  unfold decodeLzxRef at h
  split at h
  · cases h
  · split at h
    · split at h <;> cases h
      rfl
    · split at h
      · split at h <;> cases h
        rfl
      · split at h <;> cases h
        rfl

/-- What the decoder reads in a slot stands in that slot (R104). -/
theorem decode_slot {slot : Slot} {o : ByteOrder} {bs : List Byte} {i : Instr}
    (h : decode slot o bs = .ok i) : i.slot = slot := by
  cases slot <;> simp only [decode] at h
  case cmd =>
    split at h
    · exact decodeCmd_slot h
    · cases h
  case hdr c =>
    split at h
    · exact decodeHeader_slot h
    · cases h
  case lzLit ext =>
    split at h <;> cases h
    cases ext <;> rfl
  case lzRef ext =>
    cases ext
    · exact decodeLzssRef_slot h
    · exact decodeLzxRef_slot h
  case rlRun =>
    split at h <;> cases h
    unfold decodeRun
    split <;> rfl
  case hufBit =>
    split at h
    · split at h
      · cases h; rfl
      · split at h <;> cases h
        rfl
    · cases h
  all_goals
    split at h <;> cases h
    rfl

/-- The bytes of the buffer that an element takes when it is decoded (R99). -/
def elementLength : Slot → Instr → Nat
  | .hdr _, _ => 4
  | .hufPath, _ => 4
  | .delta16, _ => 2
  | .lzRef _, .lzxRef0 _ _ => 3
  | .lzRef _, .lzxRef1 _ _ => 4
  | .lzRef _, _ => 2
  | _, _ => 1

/-- The decoder reads no byte that is not there (R61). -/
theorem decode_length {slot : Slot} {o : ByteOrder} {bs : List Byte} {i : Instr}
    (h : decode slot o bs = .ok i) : elementLength slot i ≤ bs.length := by
  cases slot <;> simp only [decode] at h
  case lzRef ext =>
    cases ext
    · simp only [decodeLzssRef, Bool.false_eq_true, if_false] at h
      split at h <;> cases h
      simp [elementLength]
    · simp only [decodeLzxRef, if_true] at h
      split at h
      · cases h
      · split at h
        · split at h <;> cases h
          simp [elementLength]
        · split at h
          · split at h <;> cases h
            simp [elementLength]
          · split at h <;> cases h
            simp [elementLength]
  case hufBit =>
    split at h
    · simp [elementLength]
    · cases h
  all_goals
    split at h
    · simp [elementLength]
    · cases h

end Sys2Proof

namespace Sys2Proof.Machine

/-- A job never stands at a command. -/
theorem slotOf_ne_cmd (c : Codec) (s : State) : slotOf c s ≠ .cmd := by
  unfold slotOf
  split
  · simp
  · simp
  · simp
  · simp
  · split
    · split
      · simp
      · split <;> simp
    · split
      · simp
      · split <;> simp
    · split <;> simp
    · simp
    · split <;> simp

/-- A job never reads a command or a value that is no bit: the two rejections that `rejectRecord` names
last do not occur. -/
theorem fetch_never_misread (c : Codec) (s : State) (r : Reject)
    (h : decode (slotOf c s) s.jorder (elementBytes s (slotOf c s)) = .error r) :
    r ≠ .notStart ∧ r ≠ .notABit := by
  have hc := slotOf_ne_cmd c s
  generalize slotOf c s = slot at h hc
  cases slot <;> simp only [decode] at h
  case cmd => exact absurd rfl hc
  case hdr d =>
    split at h
    · cases d <;> simp only [decodeHeader] at h
      case diff =>
        split at h
        · split at h
          · cases h
          · split at h <;> cases h
            simp
        · cases h; simp
      all_goals
        split at h <;> cases h
        simp
    · cases h; simp
  case lzRef ext =>
    cases ext
    · simp only [decodeLzssRef, Bool.false_eq_true, if_false] at h
      split at h <;> cases h <;> simp
    · simp only [decodeLzxRef, if_true] at h
      split at h
      · cases h; simp
      · split at h
        · split at h <;> cases h <;> simp
        · split at h
          · split at h <;> cases h <;> simp
          · (split at h <;> cases h); simp
  case hufBit =>
    cases hb : pathBit s <;> simp [elementBytes, hb] at h
  all_goals
    split at h <;> cases h
    simp

/-- What a fetched element is: no command, and read whole from the buffer where it comes from there. -/
theorem fetch_element {s : State} {i : Instr} (h : fetch s = .element i) :
    ∃ c, Codec.ofBits s.jcodec = some c ∧ i.slot = slotOf c s ∧ i.slot ≠ .cmd ∧
      ¬ (slotOf c s = .hufPath ∧ s.steps ≠ 0) ∧
      decode (slotOf c s) s.jorder (elementBytes s (slotOf c s)) = .ok i ∧
      (slotOf c s ≠ .hufBit → slotOf c s ≠ .hufLeaf →
        s.cursor.toNat + elementLength (slotOf c s) i ≤ s.bufSize.toNat) := by
  rcases fetch_cases s with ⟨_, hf⟩ | ⟨c, _, _, _, hf⟩ | ⟨c, j, hc, hn, hd, hf⟩ | ⟨c, r, _, _, _, hf⟩
  · rw [h] at hf; cases hf
  · rw [h] at hf; cases hf
  · rw [h] at hf
    cases hf
    refine ⟨c, hc, decode_slot hd, ?_, hn, hd, fun h1 h2 => ?_⟩
    · rw [decode_slot hd]; exact slotOf_ne_cmd c s
    · have hl := decode_length hd
      have hw : elementBytes s (slotOf c s) = window 4 s := by
        generalize slotOf c s = slot at h1 h2
        cases slot <;> first | rfl | exact absurd rfl h1 | exact absurd rfl h2
      rw [hw, window_length] at hl
      have hpos : 1 ≤ elementLength (slotOf c s) i := by
        unfold elementLength
        split <;> omega
      omega
  · rw [h] at hf
    cases r <;> cases hf

end Sys2Proof.Machine
end

