-- ==== Sys2Proof/Laws/Meanings.lean ====
section
/-! SUPPORT. For each operation that several meanings share, one lemma that says what it can do, and the
facts about unchanged state that the statements use. -/

namespace Sys2Proof.Machine

/-! ### Unchanged state -/

theorem SameOutExcept.of_eq {k n : Nat} {s t : State} (hm : t.outMem = s.outMem) (hd : t.outDraw = s.outDraw)
    (hi : t.inst = s.inst) :
    SameOutExcept k n s t := fun i _ => by simp only [outRead, hm, hd, hi]

theorem SameTreeFrom.of_eq {n : Nat} {s t : State} (hm : t.treeMem = s.treeMem)
    (hd : t.treeDraw = s.treeDraw) (hi : t.inst = s.inst) : SameTreeFrom n s t := fun i _ => by simp only [treeByte, hm, hd, hi]

theorem SameSrc.of_eq {s t : State} (hm : t.srcMem = s.srcMem) (hd : t.srcDraw = s.srcDraw)
    (hi : t.inst = s.inst) :
    SameSrc s t := fun i => by simp only [srcByte, hm, hd, hi]

theorem SameOutExcept.trans {k n : Nat} {s t u : State} (h1 : SameOutExcept k n s t)
    (h2 : SameOutExcept k n t u) : SameOutExcept k n s u := fun i hi => (h2 i hi).trans (h1 i hi)

/-- One byte written at the output index leaves every other byte of OUT (R66). -/
theorem SameOutExcept.emit (b : Byte) (s : State) : SameOutExcept s.out 1 s (emit b s) :=
  fun i hi => outRead_emit_ne b (by omega)

/-- The record of a failure raised after reads and index changes that left the rest as it was (R226, R229). -/
theorem raise_failedJob {s s1 : State} {tree : Nat} (e : JobError) (off : Word) (hsetup : SameSetup s s1)
    (hlatch : SameLatch s s1) (hsrc : SameSrc s s1) (hside : SameHostSide s s1)
    (hdone : s1.done = s.done) (hlen : s1.outLen = s.outLen) (htree : SameTreeFrom tree s s1)
    (hdraw : s1.outDraw = s.outDraw) :
    FailedJob tree e.code off s1.cursor s1.out s (raise e off s1) := by
  refine ⟨rfl, rfl, hdone, rfl, rfl, rfl, ?_, hlen, hsetup, hlatch, fun i => ?_, hside,
    htree, fun i => ?_⟩
  · simp only [raise_cursor, endCursor, hlatch.2.1, hlatch.2.2.2]
  · rw [srcByte_raise]
    exact hsrc i
  · rw [outRead_raise, hdraw, hsetup.2.2.2.2.2.2.2.2.2]

/-! ### Job control -/

/-- What a START can do (41_job_control.md R110, 10_state.md R42). -/
theorem startJob_cases (codec : BitVec 3) (entry ie : Bool) (s : State) :
    (s.phase = .run ∧ startJob codec entry ie s = s) ∨
    (s.phase = .idle ∧ startJob codec entry ie s = acceptStart codec entry ie s) := by
  cases h : s.phase with
  | run => exact .inl ⟨rfl, by simp [startJob, State.busy, h]⟩
  | idle => exact .inr ⟨rfl, by simp [startJob, State.busy, h]⟩

/-- Every command is a START of its codec with its fields (R119 to R124). -/
theorem exec_command {i : Instr} {codec : BitVec 3} {e ie : Bool}
    (h : commandFields i = some (codec, e, ie)) (s : State) :
    exec i s = .next (startJob codec e ie s) := by
  cases i <;> simp [commandFields, startFields, reservedFields] at h <;>
    obtain ⟨rfl, rfl, rfl⟩ := h <;> rfl

/-- What the codec check and the entry form can do (R111, R112). -/
theorem enterStream_cases (s : State) :
    (Codec.ofBits s.jcodec = none ∧ enterStream s = raise .badCodec s.saved s) ∨
    ((Codec.ofBits s.jcodec).isSome ∧ s.jentry = false ∧ enterStream s = { s with pos := .header }) ∨
    ((Codec.ofBits s.jcodec).isSome ∧ s.jentry = true ∧ s.bufSize.toNat ≤ s.offset.toNat ∧
      enterStream s = raise .bounds s.offset s) ∨
    ((Codec.ofBits s.jcodec).isSome ∧ s.jentry = true ∧ s.offset.toNat < s.bufSize.toNat ∧
      enterStream s = { s with cursor := s.offset, pos := .header }) := by
  unfold enterStream
  cases hc : Codec.ofBits s.jcodec with
  | none => exact .inl ⟨rfl, rfl⟩
  | some c =>
    cases hj : s.jentry with
    | false => exact .inr (.inl ⟨rfl, rfl, rfl⟩)
    | true =>
      by_cases hb : s.bufSize.toNat ≤ s.offset.toNat
      · exact .inr (.inr (.inl ⟨rfl, rfl, hb, by simp [hb]⟩))
      · exact .inr (.inr (.inr ⟨rfl, rfl, by omega, by simp [hb]⟩))

/-- What the capacity check can do (R115). -/
theorem openOutput_cases (hoff : Word) (s : State) :
    (s.outCap.toNat < s.L.toNat ∧ openOutput hoff s = raise .capacity hoff s) ∨
    (s.L.toNat ≤ s.outCap.toNat ∧ openOutput hoff s = { s with outLen := s.L, out := 0 }) := by
  unfold openOutput
  by_cases h : s.outCap.toNat < s.L.toNat
  · exact .inl ⟨h, if_pos h⟩
  · exact .inr ⟨by omega, if_neg h⟩

/-! ### LZ -/

/-- What a back-reference can do (42_lz.md R136 to R141). -/
theorem backRef_cases (clamp : Bool) (n count disp : Nat) (s : State) :
    (s.out < disp ∧ backRef clamp n count disp s = raise .negSrc s.cursor (takeBlock n s)) ∨
    (disp ≤ s.out ∧ s.L.toNat < s.out + count ∧ clamp = true ∧
      backRef clamp n count disp s = copyBack disp (s.L.toNat - s.out) (takeBlock n s)) ∨
    (disp ≤ s.out ∧ s.L.toNat < s.out + count ∧ clamp = false ∧
      backRef clamp n count disp s = raise .overrun s.cursor (takeBlock n s)) ∨
    (disp ≤ s.out ∧ s.out + count ≤ s.L.toNat ∧
      backRef clamp n count disp s = copyBack disp count (takeBlock n s)) := by
  unfold backRef
  by_cases h1 : s.out < disp
  · exact .inl ⟨h1, if_pos h1⟩
  · by_cases h2 : s.L.toNat < s.out + count
    · cases clamp with
      | true => exact .inr (.inl ⟨by omega, h2, rfl, by simp [h1, h2]⟩)
      | false => exact .inr (.inr (.inl ⟨by omega, h2, rfl, by simp [h1, h2]⟩))
    · exact .inr (.inr (.inr ⟨by omega, by omega, by simp [h1, h2]⟩))

/-! ### RL -/

/-- What a verbatim run's data reads can do (44_rl.md R191): all its bytes are there, or the first `m` of
them and the run ends in BOUNDS at the next. -/
theorem copyRun_cases {n : Nat} (hn : 0 < n) (s : State) :
    s.cursor.toNat + n ≤ s.bufSize.toNat ∨
    (s.bufSize.toNat < s.cursor.toNat ∧ copyRun n s = raise .bounds s.cursor s) ∨
    ∃ m, m < n ∧ s.cursor.toNat + m = s.bufSize.toNat ∧
      copyRun n s = raise .bounds s.bufSize (copyRun m s) := by
  by_cases h : s.cursor.toNat + n ≤ s.bufSize.toNat
  · exact .inl h
  · by_cases hc : s.cursor.toNat ≤ s.bufSize.toNat
    · refine .inr (.inr ⟨s.bufSize.toNat - s.cursor.toNat, by omega, by omega, ?_⟩)
      rw [copyRun_truncated n (s.bufSize.toNat - s.cursor.toNat) s (by omega) (by omega)]
      congr 1
      rw [copyRun_eq _ s (by omega)]
      show BitVec.ofNat 32 (s.cursor.toNat + (s.bufSize.toNat - s.cursor.toNat)) = s.bufSize
      rw [show s.cursor.toNat + (s.bufSize.toNat - s.cursor.toNat) = s.bufSize.toNat by omega]
      simp
    · refine .inr (.inl ⟨by omega, ?_⟩)
      cases n with
      | zero => omega
      | succ n =>
        rcases read8_cases s with ⟨hb, _⟩ | ⟨_, hr⟩
        · omega
        · simp only [copyRun, hr]

/-! ### Huffman -/

/-- What a traversal step can do (43_huffman.md R165, R166). -/
theorem traverse_cases (right : Bool) (s : State) :
    (s.TS ≤ childAddr s.a (treeByte s s.a) right ∧
      traverse right s =
        raise .tree s.wordOff { s with bitsLeft := s.bitsLeft - 1, steps := s.steps + 1 }) ∨
    (childAddr s.a (treeByte s s.a) right < s.TS ∧
      traverse right s =
        { s with
          bitsLeft := s.bitsLeft - 1
          steps := s.steps + 1
          a := childAddr s.a (treeByte s s.a) right
          pos := if leafFlag (treeByte s s.a) right then .leaf else .body }) := by
  unfold traverse
  by_cases h : s.TS ≤ childAddr s.a (treeByte s s.a) right
  · exact .inl ⟨h, if_pos h⟩
  · exact .inr ⟨by omega, if_neg h⟩

/-- What packing a symbol can do (R168). -/
theorem packSymbol_cases (sym : Byte) (s : State) :
    (s.nsym + 1 = symbolsPerByte s.D ∧
      packSymbol sym s =
        emit ((s.acc8 <<< s.D.toNat) ||| sym) { s with acc8 := 0#8, nsym := 0 }) ∨
    (s.nsym + 1 ≠ symbolsPerByte s.D ∧
      packSymbol sym s =
        { s with acc8 := (s.acc8 <<< s.D.toNat) ||| sym, nsym := s.nsym + 1 }) := by
  unfold packSymbol
  by_cases h : s.nsym + 1 = symbolsPerByte s.D
  · exact .inl ⟨h, if_pos h⟩
  · exact .inr ⟨h, if_neg h⟩

/-- What a tree load can do (R163). -/
theorem execHuffTree_cases (n : Byte) (s : State) :
    ∃ t, exec (.huffTree n) s = .next t ∧
      (((advance 1 s).cursor.toNat + (treeSize n - 1) ≤ s.bufSize.toNat ∧
        t = restart { advance (treeSize n - 1) (advance 1 s) with
          TS := treeSize n
          treeMem := (s.treeMem.write 0 n).writeList 1
            (srcBytes s (advance 1 s).cursor.toNat (treeSize n - 1))
          acc8 := 0#8, nsym := 0, bitsLeft := 0 }) ∨
      (s.bufSize.toNat < (advance 1 s).cursor.toNat + (treeSize n - 1) ∧
        t = raise .bounds (advance 1 s).cursor
          { advance 1 s with TS := treeSize n, treeMem := s.treeMem.write 0 n })) := by
  refine ⟨_, rfl, ?_⟩
  rcases readRange_cases (treeSize n - 1)
      { advance 1 s with TS := treeSize n, treeMem := s.treeMem.write 0 n } with ⟨hb, hr⟩ | ⟨hb, hr⟩
  · exact .inl ⟨hb, by rw [hr]; rfl⟩
  · exact .inr ⟨hb, by rw [hr]⟩

end Sys2Proof.Machine
end

