-- ==== Sys2Proof/Laws/PerInstr.lean ====
section
/-! SUPPORT. Families of facts about each element as syntax. -/

namespace Sys2Proof.Laws

/-- The width of a row of the opcode table in whole bytes (30_encoding.md R99). -/
def tableBytes : Instr → Nat
  | .startLzss _ _ => 4
  | .startLzx _ _ => 4
  | .startHuff _ _ => 4
  | .startRl _ _ => 4
  | .startDiff _ _ => 4
  | .startRsvd5 _ _ => 4
  | .startRsvd6 _ _ => 4
  | .startRsvd7 _ _ => 4
  | .hdrLzss _ => 4
  | .hdrLzx _ => 4
  | .hdrHuff _ _ => 4
  | .hdrRl _ => 4
  | .hdrDiff8 _ => 4
  | .hdrDiff16 _ => 4
  | .lzFlags _ => 1
  | .lzssLit _ => 1
  | .lzxLit _ => 1
  | .lzssRef _ _ => 2
  | .lzxRef0 _ _ => 3
  | .lzxRef1 _ _ => 4
  | .lzxRefs _ _ => 2
  | .rlCopy _ => 1
  | .rlFill _ => 1
  | .huffTree _ => 1
  | .huffPath _ => 4
  | .huffLeft => 1
  | .huffRight => 1
  | .huffLeaf _ => 1
  | .diff8Delta _ => 1
  | .diff16Delta _ => 2

/-- An element is written in as many bytes as its row of the table is wide, in either byte order. -/
def Width.Statement (i : Instr) : Prop := ∀ o, (encode o i).length = tableBytes i

theorem Width.startLzss : ∀ x y, Width.Statement (.startLzss x y) := fun x y o => by cases o <;> rfl

theorem Width.startLzx : ∀ x y, Width.Statement (.startLzx x y) := fun x y o => by cases o <;> rfl

theorem Width.startHuff : ∀ x y, Width.Statement (.startHuff x y) := fun x y o => by cases o <;> rfl

theorem Width.startRl : ∀ x y, Width.Statement (.startRl x y) := fun x y o => by cases o <;> rfl

theorem Width.startDiff : ∀ x y, Width.Statement (.startDiff x y) := fun x y o => by cases o <;> rfl

theorem Width.startRsvd5 : ∀ x y, Width.Statement (.startRsvd5 x y) := fun x y o => by cases o <;> rfl

theorem Width.startRsvd6 : ∀ x y, Width.Statement (.startRsvd6 x y) := fun x y o => by cases o <;> rfl

theorem Width.startRsvd7 : ∀ x y, Width.Statement (.startRsvd7 x y) := fun x y o => by cases o <;> rfl

theorem Width.hdrLzss : ∀ x, Width.Statement (.hdrLzss x) := fun x o => by cases o <;> rfl

theorem Width.hdrLzx : ∀ x, Width.Statement (.hdrLzx x) := fun x o => by cases o <;> rfl

theorem Width.hdrHuff : ∀ x y, Width.Statement (.hdrHuff x y) := fun x y o => by cases o <;> rfl

theorem Width.hdrRl : ∀ x, Width.Statement (.hdrRl x) := fun x o => by cases o <;> rfl

theorem Width.hdrDiff8 : ∀ x, Width.Statement (.hdrDiff8 x) := fun x o => by cases o <;> rfl

theorem Width.hdrDiff16 : ∀ x, Width.Statement (.hdrDiff16 x) := fun x o => by cases o <;> rfl

theorem Width.lzFlags : ∀ x, Width.Statement (.lzFlags x) := fun x o => by cases o <;> rfl

theorem Width.lzssLit : ∀ x, Width.Statement (.lzssLit x) := fun x o => by cases o <;> rfl

theorem Width.lzxLit : ∀ x, Width.Statement (.lzxLit x) := fun x o => by cases o <;> rfl

theorem Width.lzssRef : ∀ x y, Width.Statement (.lzssRef x y) := fun x y o => by cases o <;> rfl

theorem Width.lzxRef0 : ∀ x y, Width.Statement (.lzxRef0 x y) := fun x y o => by cases o <;> rfl

theorem Width.lzxRef1 : ∀ x y, Width.Statement (.lzxRef1 x y) := fun x y o => by cases o <;> rfl

theorem Width.lzxRefs : ∀ x y, Width.Statement (.lzxRefs x y) := fun x y o => by cases o <;> rfl

theorem Width.rlCopy : ∀ x, Width.Statement (.rlCopy x) := fun x o => by cases o <;> rfl

theorem Width.rlFill : ∀ x, Width.Statement (.rlFill x) := fun x o => by cases o <;> rfl

theorem Width.huffTree : ∀ x, Width.Statement (.huffTree x) := fun x o => by cases o <;> rfl

theorem Width.huffPath : ∀ x, Width.Statement (.huffPath x) := fun x o => by cases o <;> rfl

theorem Width.huffLeft : Width.Statement .huffLeft := fun o => by cases o <;> rfl

theorem Width.huffRight : Width.Statement .huffRight := fun o => by cases o <;> rfl

theorem Width.huffLeaf : ∀ x, Width.Statement (.huffLeaf x) := fun x o => by cases o <;> rfl

theorem Width.diff8Delta : ∀ x, Width.Statement (.diff8Delta x) := fun x o => by cases o <;> rfl

theorem Width.diff16Delta : ∀ x, Width.Statement (.diff16Delta x) := fun x o => by cases o <;> rfl

end Sys2Proof.Laws
end

