-- ==== Sys2Proof/Tests/Slice0.lean ====
section
/-! SUPPORT. Tests: well-formedness, words written from the encodings of file 30, one step of each
instruction, and for each statement with hypotheses a state that meets them. Expected results are the
examples of the rules named. -/

namespace Sys2Proof.Tests

open Sys2Proof Sys2Proof.Machine

/-! ### States -/

/-- An idle block over a buffer, MAX_SRC and OUT_CAP 64. -/
def idleOver (bs : List Byte) : State :=
  { State.resetWith 64#32 64#24 with
    srcMem := Memory.ofList 0 bs, bufSize := BitVec.ofNat 32 bs.length }

/-- A job in the body of a codec, length 8. -/
def body (codec : BitVec 3) (bs : List Byte) : State :=
  { idleOver bs with
    phase := .run, jcodec := codec, pos := .body, L := 8#24, outLen := 8#24 }

/-- An accepted job of a codec before its codec check and entry form. -/
def accepted (codec : BitVec 3) (offsetForm : Bool) (s : State) : State :=
  { s with phase := .run, pos := .entry, jcodec := codec, jentry := offsetForm, saved := s.cursor }

/-- A job with output bytes already written. -/
def wrote (out : List Byte) (s : State) : State :=
  { s with outMem := Memory.ofList 0 out, out := out.length }

/-- A job at its header. -/
def atHeader (codec : BitVec 3) (bs : List Byte) : State :=
  { idleOver bs with phase := .run, jcodec := codec }

/-- A Huffman body over the tree 01 C0 41 42 (R163, R165) with path bits left. -/
def huffBody (word : Word) (bitsLeft : Nat) : State :=
  { body 2#3 [] with
    D := 8#4, TS := 4, a := 1, word := word, bitsLeft := bitsLeft, wordOff := 8#32,
    treeMem := Memory.ofList 0 [0x01#8, 0xC0#8, 0x41#8, 0x42#8] }

/-- The next state, if there is one. -/
def after : Host.Outcome State Fault Refusal → Option State
  | .next t => some t
  | .fault _ => none
  | .refused _ => none

/-- Output index, CURSOR, and the bytes of OUT up to the index, after a step. -/
def result (o : Host.Outcome State Fault Refusal) : Option (Nat × Nat × List Byte) :=
  (after o).map (fun t => (t.out, t.cursor.toNat, (List.range t.out).map (outRead t)))

/-- ERR, ERRCODE, ERR_OFFSET, OUT_COUNT, CURSOR after a step. -/
def failure (o : Host.Outcome State Fault Refusal) : Option (Bool × Nat × Nat × Nat × Nat) :=
  (after o).map (fun t =>
    (t.err, t.errCode.toNat, t.errOffset.toNat, t.outCount.toNat, t.cursor.toNat))

/-! ### Well-formedness -/

theorem test_wf_refuses_short_form_one : (Instr.lzxRefs 1#4 0#12).wf = false := by decide

theorem test_wf_refuses_short_form_zero : (Instr.lzxRefs 0#4 0#12).wf = false := by decide

theorem test_wf_accepts_short_form_two : (Instr.lzxRefs 2#4 0#12).wf = true := by decide

/-! ### Words written from the encodings of file 30 -/

/-- R81: `ie0001` with ENTRY = 1. -/
theorem test_decode_start_lzss : decodeCmd 0b010001#32 = .ok (.startLzss true false) := by decide

/-- R81: `ie0011`; bits 31:6 ignored. -/
theorem test_decode_start_lzx : decodeCmd 0xFFFFFFC3#32 = .ok (.startLzx false false) := by decide

/-- R110's example: 0x05 is a Huffman job in cursor form. -/
theorem test_decode_start_huff : decodeCmd 0x05#32 = .ok (.startHuff false false) := by decide

theorem test_decode_start_rl : decodeCmd 0b100111#32 = .ok (.startRl false true) := by decide

theorem test_decode_start_diff : decodeCmd 0b111001#32 = .ok (.startDiff true true) := by decide

/-- R124's example word. -/
theorem test_decode_start_rsvd5 : decodeCmd 0x0B#32 = .ok (.startRsvd5 false false) := by decide

theorem test_decode_start_rsvd6 : decodeCmd 0b001101#32 = .ok (.startRsvd6 false false) := by decide

theorem test_decode_start_rsvd7 : decodeCmd 0b011111#32 = .ok (.startRsvd7 true false) := by decide

/-- R22: START = 0 is no command. -/
theorem test_decode_no_start : decodeCmd 0x3E#32 = .error .notStart := by decide

/-- R83. -/
theorem test_decode_hdr_lzss :
    decode (.hdr .lzss) .big [0x10#8, 0x01#8, 0x02#8, 0x03#8] = .ok (.hdrLzss 0x010203#24) := by decide

/-- R131's example: L = 3. -/
theorem test_decode_hdr_lzx :
    decode (.hdr .lzx) .big [0x11#8, 0x00#8, 0x00#8, 0x03#8] = .ok (.hdrLzx 3#24) := by decide

/-- R131: 0x13 is no LZX header. -/
theorem test_decode_hdr_lzx_type :
    decode (.hdr .lzx) .big [0x13#8, 0x00#8, 0x00#8, 0x03#8] = .error .typeMismatch := by decide

/-- R85: 0x23 is Huffman with the illegal depth 3. -/
theorem test_decode_hdr_huff :
    decode (.hdr .huff) .big [0x23#8, 0x00#8, 0x00#8, 0x09#8] = .ok (.hdrHuff 3#4 9#24) := by decide

/-- R63's example: the bytes 30 00 00 05 in big-endian order. -/
theorem test_decode_hdr_rl :
    decode (.hdr .rl) .big [0x30#8, 0x00#8, 0x00#8, 0x05#8] = .ok (.hdrRl 5#24) := by decide

/-- R63's example in little-endian order: W = 0x05000030, another type. -/
theorem test_decode_hdr_rl_little :
    decode (.hdr .rl) .little [0x30#8, 0x00#8, 0x00#8, 0x05#8] = .error .typeMismatch := by decide

/-- R200's example: M = 1, L = 7. -/
theorem test_decode_hdr_diff8 :
    decode (.hdr .diff) .big [0x00#8, 0x00#8, 0x07#8, 0x81#8] = .ok (.hdrDiff8 7#24) := by decide

theorem test_decode_hdr_diff16_little :
    decode (.hdr .diff) .little [0x82#8, 0x07#8, 0x00#8, 0x00#8] = .ok (.hdrDiff16 7#24) := by decide

/-- R200: a mode of 3. -/
theorem test_decode_hdr_diff_mode :
    decode (.hdr .diff) .big [0x00#8, 0x00#8, 0x07#8, 0x83#8] = .error .badMode := by decide

theorem test_decode_flags : decode .lzFlag .big [0x7F#8, 0x5A#8] = .ok (.lzFlags 0x7F#8) := by decide

theorem test_decode_lzss_lit : decode (.lzLit false) .big [0x41#8] = .ok (.lzssLit 0x41#8) := by decide

theorem test_decode_lzx_lit : decode (.lzLit true) .little [0xFF#8] = .ok (.lzxLit 0xFF#8) := by decide

/-- R90: `ccccdddd dddddddd`. -/
theorem test_decode_lzss_ref :
    decode (.lzRef false) .little [0b01101010#8, 0b01011100#8] =
      .ok (.lzssRef 0b0110#4 0b101001011100#12) := by decide

/-- R91: `0000cccc ccccdddd dddddddd`. -/
theorem test_decode_lzx_ref0 :
    decode (.lzRef true) .big [0b00001011#8, 0b01101001#8, 0b11110000#8] =
      .ok (.lzxRef0 0b10110110#8 0b100111110000#12) := by decide

/-- R91: `0001cccc cccccccc ccccdddd dddddddd`. -/
theorem test_decode_lzx_ref1 :
    decode (.lzRef true) .big [0x1A#8, 0xBC#8, 0xDE#8, 0xF1#8] = .ok (.lzxRef1 0xABCD#16 0xEF1#12) := by
  decide

/-- R91: `iiiidddd dddddddd`. -/
theorem test_decode_lzx_refs :
    decode (.lzRef true) .big [0x20#8, 0x01#8] = .ok (.lzxRefs 2#4 1#12) := by decide

/-- R132: a long form cut after its second byte. -/
theorem test_decode_lzx_ref1_short :
    decode (.lzRef true) .big [0x10#8, 0x00#8] = .error (.short 2) := by decide

/-- R92: 0x04 is a verbatim run with n = 4. -/
theorem test_decode_copy : decode .rlRun .big [0x04#8] = .ok (.rlCopy 4#7) := by decide

/-- R92: 0xFF is a replicate run with n = 127. -/
theorem test_decode_fill : decode .rlRun .big [0xFF#8] = .ok (.rlFill 127#7) := by decide

theorem test_decode_tree : decode .hufTree .big [0x01#8] = .ok (.huffTree 1#8) := by decide

/-- R96: a path word in little-endian order. -/
theorem test_decode_path :
    decode .hufPath .little [0x00#8, 0x00#8, 0x00#8, 0x40#8] = .ok (.huffPath 0x40000000#32) := by decide

theorem test_decode_left : decode .hufBit .big [0#8] = .ok .huffLeft := by decide

theorem test_decode_right : decode .hufBit .big [1#8] = .ok .huffRight := by decide

theorem test_decode_leaf : decode .hufLeaf .big [0xA7#8] = .ok (.huffLeaf 0xA7#8) := by decide

theorem test_decode_delta8 : decode .delta8 .big [0xFE#8] = .ok (.diff8Delta 0xFE#8) := by decide

/-- R97: a 16-bit delta in the job's byte order. -/
theorem test_decode_delta16 :
    decode .delta16 .little [0x34#8, 0x12#8] = .ok (.diff16Delta 0x1234#16) := by decide

/-- An opcode-table word of LZX.REF1, its first byte the most significant (R91). -/
theorem test_decode_table_word : decodeTableWord 32 0x1ABCDEF1 = some (.lzxRef1 0xABCD#16 0xEF1#12) := by decide

/-! ### One step of each instruction -/

/-- R110's example word. -/
theorem test_step_start_huff :
    (after (step { idleOver [0x24#8] with turns := [hostStart 2#3 false false] })).map
      (fun t => (t.busy, t.jcodec, t.jentry, t.ctrlIe)) = some (true, 2#3, false, false) := by decide

/-- R112's example: OFFSET = BUF_SIZE = 8. -/
theorem test_step_entry_offset_past :
    failure (step (accepted 3#3 true { idleOver (List.replicate 8 0#8) with offset := 8#32 })) =
      some (true, 1, 8, 0, 0) := by decide

/-- R112: the offset form repositions CURSOR. -/
theorem test_step_entry_offset :
    (after (step (accepted 0#3 true { idleOver (List.replicate 8 0#8) with offset := 7#32, cursor := 3#32 }))).map
      (fun t => (t.cursor, t.saved, t.pos)) = some (7#32, 3#32, .header) := by decide

/-- R110: CURSOR is saved and not yet repositioned. -/
theorem test_exec_start_lzss :
    (after (exec (.startLzss true true) { idleOver (List.replicate 8 0#8) with offset := 7#32, cursor := 3#32 })).map
      (fun t => (t.cursor, t.saved, t.ctrlIe, t.busy)) = some (3#32, 3#32, true, true) := by decide

theorem test_exec_start_rl :
    (after (exec (.startRl false true) (idleOver []))).map (fun t => (t.jcodec, t.jentry, t.irq)) =
      some (3#3, false, false) := by decide

theorem test_exec_start_lzx_little :
    (after (exec (.startLzx false false) { idleOver [] with order := .little })).map
      (fun t => (t.jorder, t.jcodec)) = some (.little, 1#3) := by decide

/-- R110: DONE and ERRCODE cleared, OFS_ERR not touched. -/
theorem test_exec_start_diff_clears :
    (after (exec (.startDiff false false) { idleOver [] with done := true, errCode := 3#4, ofsErr := true })).map
      (fun t => (t.done, t.errCode, t.ofsErr)) = some (false, 0#4, true) := by decide

/-- R124's example word, at its START. -/
theorem test_step_start_rsvd5 :
    (after (step { idleOver [0#8, 0#8] with turns := [hostWr .ctrl 0x0B#32] })).map
      (fun t => (t.busy, t.ctrlCodec, t.pos)) = some (true, 5#3, .entry) := by decide

theorem test_exec_start_rsvd6 :
    (after (exec (.startRsvd6 true false) (idleOver []))).map (fun t => (t.jcodec, t.jentry)) =
      some (6#3, true) := by decide

theorem test_exec_start_rsvd7 :
    (after (exec (.startRsvd7 false true) (idleOver []))).map (fun t => (t.ctrlCodec, t.ctrlIe)) =
      some (7#3, true) := by decide

/-- R124's example: ERRCODE = 10, ERR_OFFSET = CURSOR. -/
theorem test_step_entry_reserved :
    failure (step (accepted 5#3 false { idleOver [0#8, 0#8] with cursor := 1#32 })) =
      some (true, 10, 1, 0, 1) := by decide

/-- R111: BAD_CODEC before the entry form, although OFFSET is past the buffer. -/
theorem test_step_entry_reserved_offset :
    failure (step (accepted 7#3 true { idleOver [0#8, 0#8] with cursor := 1#32, offset := 9#32 })) =
      some (true, 10, 1, 0, 1) := by decide

/-- R233: a host write before the completion of a reserved codec's job is ignored. -/
theorem test_step_write_before_completion :
    (after (step { accepted 5#3 false (idleOver []) with turns := [hostWr .offset 9#32, .block] })).map
      (fun t => (t.offset, t.busy, t.turns)) = some (0#32, true, [.block]) := by decide

/-- R130's example: L = 0, CURSOR advances by 4. -/
theorem test_step_hdr_lzss :
    (after (step (atHeader 0#3 [0x10#8, 0#8, 0#8, 0#8]))).map (fun t => (t.cursor, t.outLen, t.pos)) =
      some (4#32, 0#24, .body) := by decide

/-- R114's example: the same bytes under RL. -/
theorem test_step_hdr_rl_type :
    failure (step (atHeader 3#3 [0x10#8, 0#8, 0#8, 0#8])) = some (true, 2, 0, 0, 4) := by decide

theorem test_step_hdr_lzx :
    (after (step (atHeader 1#3 [0x11#8, 0#8, 0#8, 3#8]))).map (fun t => (t.L, t.fbit)) =
      some (3#24, 0) := by decide

/-- R161's example: first byte 0x23. -/
theorem test_step_hdr_huff_depth :
    failure (step (atHeader 2#3 [0x23#8, 0#8, 0#8, 0#8])) = some (true, 3, 0, 0, 4) := by decide

theorem test_step_hdr_huff :
    (after (step (atHeader 2#3 [0x24#8, 0#8, 0#8, 2#8]))).map (fun t => (t.D, t.L, t.pos)) =
      some (4#4, 2#24, .tree) := by decide

theorem test_step_hdr_rl :
    (after (step (atHeader 3#3 [0x30#8, 0#8, 0#8, 5#8]))).map (fun t => (t.outLen, t.cursor)) =
      some (5#24, 4#32) := by decide

/-- R115: L = 65 does not fit 64 bytes. -/
theorem test_step_hdr_rl_capacity :
    failure (step (atHeader 3#3 [0x30#8, 0#8, 0#8, 65#8])) = some (true, 9, 0, 0, 4) := by decide

/-- R200's example. -/
theorem test_step_hdr_diff8 :
    (after (step (atHeader 4#3 [0#8, 0#8, 7#8, 0x81#8]))).map (fun t => (t.M, t.L)) =
      some (1#4, 7#24) := by decide

theorem test_step_hdr_diff16 :
    (after (step (atHeader 4#3 [0#8, 0#8, 7#8, 0x82#8]))).map (fun t => (t.M, t.acc)) =
      some (2#4, 0#16) := by decide

/-- R133: the first block of 0x7F is a literal. -/
theorem test_step_flags :
    (after (step (body 0#3 [0x7F#8, 0x5A#8]))).map (fun t => (t.fbit, blockFlag t, t.cursor)) =
      some (8, false, 1#32) := by decide

/-- R134's example. -/
theorem test_step_lzss_lit :
    result (step { body 0#3 [0x41#8] with fbit := 8, flags := 0x7F#8 }) = some (1, 1, [0x41#8]) := by decide

/-- R135's example. -/
theorem test_step_lzx_lit :
    result (step (wrote [1#8, 2#8] { body 1#3 [0xFF#8] with fbit := 1, flags := 0xFE#8 })) =
      some (3, 1, [1#8, 2#8, 0xFF#8]) := by decide

/-- R136's example: bytes 60 00 after the literal 41, with L = 10. -/
theorem test_step_lzss_ref :
    result (step (wrote [0x41#8] { body 0#3 [0x60#8, 0x00#8] with fbit := 1, flags := 1#8, L := 10#24 })) =
      some (10, 2, List.replicate 10 0x41#8) := by decide

/-- R141: the same reference with L = 3 is clamped to two bytes. -/
theorem test_exec_lzss_ref_clamp :
    result (exec (.lzssRef 6#4 0#12) (wrote [0x41#8] { body 0#3 [0x60#8, 0x00#8] with L := 3#24 })) =
      some (3, 2, List.replicate 3 0x41#8) := by decide

/-- R138's example: bytes 00 00 00, count 17, disp 1, L = 18. -/
theorem test_step_lzx_ref0 :
    result (step (wrote [7#8] { body 1#3 [0#8, 0#8, 0#8] with fbit := 1, flags := 1#8, L := 18#24 })) =
      some (18, 3, List.replicate 18 7#8) := by decide

/-- R138: NEG_SRC at output index 0, before OVERRUN. -/
theorem test_exec_lzx_ref0_negative :
    failure (exec (.lzxRef0 0#8 0#12) (body 1#3 [0#8, 0#8, 0#8])) = some (true, 5, 0, 0, 3) := by decide

/-- R139: count 273 overruns L = 8. -/
theorem test_step_lzx_ref1_overrun :
    failure (step (wrote [7#8] { body 1#3 [0x10#8, 0#8, 0#8, 0#8] with fbit := 1, flags := 1#8 })) =
      some (true, 6, 0, 1, 4) := by decide

/-- R140's example: bytes 20 01 with out = 2, L = 5. -/
theorem test_step_lzx_refs :
    result (step (wrote [1#8, 2#8] { body 1#3 [0x20#8, 0x01#8] with fbit := 1, flags := 1#8, L := 5#24 })) =
      some (5, 2, [1#8, 2#8, 1#8, 2#8, 1#8]) := by decide

/-- R132: a reference cut after one byte. -/
theorem test_step_lzx_refs_cut :
    failure (step (wrote [1#8] { body 1#3 [0x20#8] with fbit := 1, flags := 1#8 })) =
      some (true, 1, 1, 1, 1) := by decide

/-- R191's example: flag 04 and five bytes. -/
theorem test_step_copy :
    result (step (body 3#3 [0x04#8, 0xF0#8, 0x00#8, 0xBA#8, 0x12#8, 0x34#8])) =
      some (5, 6, [0xF0#8, 0x00#8, 0xBA#8, 0x12#8, 0x34#8]) := by decide

/-- Vector S2c of file 95 at its run: three of four bytes are there. -/
theorem test_step_copy_cut :
    failure (step { body 3#3 [0x03#8, 0x01#8, 0x02#8, 0x03#8] with jentry := true, saved := 3#32 }) =
      some (true, 1, 4, 3, 3) := by decide

/-- R192's example: flag 80 and AA. -/
theorem test_step_fill :
    result (step (body 3#3 [0x80#8, 0xAA#8])) = some (3, 2, [0xAA#8, 0xAA#8, 0xAA#8]) := by decide

/-- R192: 6 + 3 passes L = 8, although the data byte is missing. -/
theorem test_step_fill_overrun :
    failure (step { body 3#3 [0x80#8] with out := 6 }) = some (true, 6, 0, 6, 1) := by decide

/-- R163's example: bytes 01 C0 41 42. -/
theorem test_step_tree :
    (after (step { body 2#3 [0x01#8, 0xC0#8, 0x41#8, 0x42#8] with pos := .tree })).map
      (fun t => (t.TS, t.cursor, (List.range 4).map (treeByte t))) =
      some (4, 4#32, [0x01#8, 0xC0#8, 0x41#8, 0x42#8]) := by decide

theorem test_step_tree_cut :
    failure (step { body 2#3 [0x01#8, 0xC0#8, 0x41#8] with pos := .tree }) = some (true, 1, 1, 0, 1) := by
  decide

theorem test_step_path :
    (after (step { huffBody 0#32 0 with
        srcMem := Memory.ofList 0 [0x40#8, 0#8, 0#8, 0#8], bufSize := 4#32 })).map
      (fun t => (t.word, t.bitsLeft, t.wordOff, t.cursor)) = some (0x40000000#32, 32, 0#32, 4#32) := by decide

/-- R164: a symbol begun and no bit left. -/
theorem test_step_path_no_leaf :
    failure (step { huffBody 0#32 0 with steps := 1 }) = some (true, 8, 8, 0, 0) := by decide

/-- R165's example: bit 0 at the root goes to the leaf at 2. -/
theorem test_step_left :
    (after (step (huffBody 0x7FFFFFFF#32 32))).map (fun t => (t.a, t.pos, t.bitsLeft, t.steps)) =
      some (2, .leaf, 31, 1) := by decide

/-- R166's example: bit 1 at the root goes to the leaf at 3. -/
theorem test_step_right :
    (after (step (huffBody 0x00000001#32 1))).map (fun t => (t.a, t.pos, t.bitsLeft, t.steps)) =
      some (3, .leaf, 0, 1) := by decide

/-- R166: a child past the end of a tree of two bytes. -/
theorem test_exec_right_outside :
    failure (exec .huffRight { huffBody 1#32 1 with TS := 2 }) = some (true, 7, 8, 0, 0) := by decide

/-- R168's example: depth 4, symbols 1 then 2. -/
theorem test_exec_leaf :
    result (exec (.huffLeaf 0xA2#8) { huffBody 0#32 3 with D := 4#4, acc8 := 1#8, nsym := 1, pos := .leaf }) =
      some (1, 0, [0x12#8]) := by decide

/-- R201: FF + 02 wraps to 01. -/
theorem test_step_delta8 :
    result (step { body 4#3 [0x02#8] with M := 1#4, acc := 0xFF#16 }) = some (1, 1, [0x01#8]) := by decide

/-- R202's example: the second delta FF FF after the sum 1234. -/
theorem test_step_delta16 :
    result (step { body 4#3 [0xFF#8, 0xFF#8] with M := 2#4, acc := 0x1234#16 }) =
      some (2, 2, [0x12#8, 0x33#8]) := by decide

/-- R203's example: the last unit of an odd length is cut. -/
theorem test_exec_delta16_odd :
    result (exec (.diff16Delta 0x0304#16)
      (wrote [1#8, 2#8] { body 4#3 [3#8, 4#8] with M := 2#4, acc := 0x0102#16, L := 3#24 })) =
      some (3, 2, [1#8, 2#8, 4#8]) := by decide

/-! ### The completion, the host and reset -/

/-- R117's example: a finished job in the offset form restores CURSOR. -/
theorem test_step_completion :
    (after (step { body 0#3 [] with L := 0#24, outLen := 0#24, jentry := true, saved := 0#32, cursor := 4#32 })).map
      (fun t => (t.done, t.busy, t.cursor)) = some (true, false, 0#32) := by decide

/-- R24: a CURSOR write at BUF_SIZE is refused. -/
theorem test_step_cursor_refused :
    (after (step { idleOver [1#8, 2#8] with turns := [hostWr .cursor 2#32] })).map
      (fun t => (t.cursor, t.ofsErr)) = some (0#32, true) := by decide

/-- R25: BUF_SIZE takes at most MAX_SRC, and CURSOR becomes 0. -/
theorem test_step_buf_size :
    (after (step { idleOver [1#8, 2#8] with cursor := 1#32, turns := [hostWr .bufSize 65#32] })).map
      (fun t => (t.bufSize, t.cursor)) = some (64#32, 0#32) := by decide

/-- R257: no SRC write while busy. -/
theorem test_step_src_write_busy :
    after (step { body 0#3 [] with turns := [.host (.srcWrite 0 1#8)] }) = none := by decide

/-- R254: an entry form, a path-word load, a path bit and a leaf of one symbol count 1, 0, 1 and 0. -/
theorem test_element_steps :
    ([accepted 2#3 false (idleOver []), { body 2#3 [1#8, 2#8, 3#8, 4#8] with bitsLeft := 0 },
        huffBody 0#32 1, { huffBody 0#32 1 with pos := .leaf, a := 2 }].map (elementSteps 1)) = [1, 0, 1, 0] := by
  decide

/-- R252: reset during a job. -/
theorem test_step_reset :
    (after (step { body 0#3 [] with turns := [.host .reset] })).map (fun t => (t.busy, statusWord t)) =
      some (false, 0#32) := by decide

/-- The first step after reset runs a table word placed where it is fetched. -/
theorem test_reset_runs_placed_word :
    (after (step (State.reset.withFetchWord 16 0x2001))).map (fun t => t.errCode) = some 5#4 := by
  decide +kernel

/-! ### States that meet the hypotheses of the statements -/

/-- An LZSS job after one literal, at a reference of two bytes. -/
def lzSample : State := wrote [0x41#8] { body 0#3 [0x60#8, 0x00#8] with fbit := 1, flags := 1#8 }

/-- A Diff job whose output is complete. -/
def doneSample : State := wrote (List.replicate 8 1#8) { body 4#3 [] with M := 1#4 }

theorem lzSample_inv : Inv lzSample where
  srcWf := by decide
  outWf := by decide
  treeWf := by decide
  srcIn := by decide
  outIn := by decide
  treeIn := by decide
  bufLe := by decide
  cursorLe := by decide
  oneOutcome := by decide
  codeLegal := by decide
  busyClear := by decide
  errHasCode := by decide
  doneClean := by decide
  countLe := by decide
  job := fun _ => {
    codecLegal := by decide
    entryFresh := by decide
    savedLe := by decide
    headerFresh := by decide
    lengthHeld := by decide
    written := by decide
    huffPos := by decide
    flagBits := by decide
    depthOk := by decide
    treeOk := by decide
    bitsOk := by decide
    packOk := by decide
    symbolNeeded := by decide
    modeOk := by decide }

theorem doneSample_inv : Inv doneSample where
  srcWf := by decide
  outWf := by decide
  treeWf := by decide
  srcIn := by decide
  outIn := by decide
  treeIn := by decide
  bufLe := by decide
  cursorLe := by decide
  oneOutcome := by decide
  codeLegal := by decide
  busyClear := by decide
  errHasCode := by decide
  doneClean := by decide
  countLe := by decide
  job := fun _ => {
    codecLegal := by decide
    entryFresh := by decide
    savedLe := by decide
    headerFresh := by decide
    lengthHeld := by decide
    written := by decide
    huffPos := by decide
    flagBits := by decide
    depthOk := by decide
    treeOk := by decide
    bitsOk := by decide
    packOk := by decide
    symbolNeeded := by decide
    modeOk := by decide }

/-- The block's turn where nothing is scheduled. -/
theorem block_moves {s : State} (h : s.turns = []) : BlockTurn s [] := .inr ⟨h, rfl⟩

theorem meets_DecodeInvertsEncode : (Instr.lzxRefs 2#4 0xFFF#12).wf = true := by decide

theorem meets_EncodeInvertsDecode :
    Slot.lzRef true ≠ .cmd ∧ decode (.lzRef true) .little [0xF0#8, 0x01#8, 0x02#8] = .ok (.lzxRefs 15#4 1#12) := by
  decide

/-- No START, the last codec, the first reserved codec. -/
theorem meets_CommandWordFields :
    (0x3E#32).getLsbD 0 = false ∧
    ((0x09#32).getLsbD 0 = true ∧ ((0x09#32).extractLsb' 1 3).toNat ≤ 4) ∧
    ((0x0B#32).getLsbD 0 = true ∧ 5 ≤ ((0x0B#32).extractLsb' 1 3).toNat) := by decide

/-- The ends of the three forms' ranges, from R91. -/
theorem meets_AssembledReferenceHoldsItsFields :
    [asmRefx 3 1, asmRefx 16 4096, asmRefx 17 1, asmRefx 272 4096, asmRefx 273 1, asmRefx 65808 4096] =
      [some (.lzxRefs 2#4 0#12), some (.lzxRefs 15#4 0xFFF#12), some (.lzxRef0 0#8 0#12),
        some (.lzxRef0 0xFF#8 0xFFF#12), some (.lzxRef1 0#16 0#12), some (.lzxRef1 0xFFFF#16 0xFFF#12)] := by
  decide

theorem meets_StepRunsDecodedElement :
    BlockTurn lzSample [] ∧ lzSample.phase = .run ∧ lzSample.pos ≠ .entry ∧ bodyDone lzSample = false ∧
      Codec.ofBits lzSample.jcodec = some .lzss ∧
      ¬ (slotOf .lzss lzSample = .hufPath ∧ lzSample.steps ≠ 0) ∧
      decode (slotOf .lzss lzSample) lzSample.jorder (elementBytes lzSample (slotOf .lzss lzSample)) =
        .ok (.lzssRef 6#4 0#12) :=
  ⟨block_moves rfl, by decide, by decide, by decide, by decide, by decide, by decide⟩

/-- A header, a path word and a 16-bit delta that end with the buffer. -/
theorem meets_StepRunsDecodedElement_reads :
    [(atHeader 3#3 [0x30#8, 0#8, 0#8, 5#8], Codec.rl), ({ body 2#3 [1#8, 2#8, 3#8, 4#8] with bitsLeft := 0 }, .huff),
        ({ body 4#3 [1#8, 2#8] with M := 2#4 }, .diff)].map
      (fun x => (slotOf x.2 x.1, x.1.pos == .entry, bodyDone x.1,
        (decode (slotOf x.2 x.1) x.1.jorder (elementBytes x.1 (slotOf x.2 x.1))).toOption)) =
      [(.hdr .rl, false, false, some (.hdrRl 5#24)), (.hufPath, false, false, some (.huffPath 0x01020304#32)),
        (.delta16, false, false, some (.diff16Delta 0x0102#16))] := by decide

theorem meets_StepRunsCommand :
    HostTurn { idleOver [] with turns := [.host (.regWrite 0 32 0x0B#32)] } (.regWrite 0 32 0x0B#32) [] ∧
      decodeCmd 0x0B#32 = .ok (.startRsvd5 false false) := ⟨rfl, by decide⟩

/-- Both entry forms, the offset form at the last byte of the buffer, and a reserved codec. -/
theorem meets_StartLatchesJob :
    (commandFields (.startHuff true false) = some (2#3, true, false) ∧
      (idleOver [1#8, 2#8]).phase = .idle ∧ BlockTurn (idleOver [1#8, 2#8]) [] ∧ (2#3).toNat ≤ 4 ∧
      (true = true → ({ idleOver [1#8, 2#8] with offset := 1#32 } : State).offset.toNat <
        (idleOver [1#8, 2#8]).bufSize.toNat)) ∧
    (commandFields (.startDiff false true) = some (4#3, false, true) ∧ (idleOver []).phase = .idle ∧
      BlockTurn (idleOver []) [] ∧ (4#3).toNat ≤ 4 ∧
      (false = true → (idleOver []).offset.toNat < (idleOver []).bufSize.toNat)) ∧
    (commandFields (.startRsvd5 false true) = some (5#3, false, true) ∧ (idleOver []).phase = .idle) :=
  ⟨⟨by decide, rfl, block_moves rfl, by decide, by decide⟩,
    ⟨by decide, rfl, block_moves rfl, by decide, by decide⟩, by decide, rfl⟩

theorem meets_StartOffsetPastBufferFails :
    startFields (.startLzx true false) = some (1#3, true, false) ∧ (idleOver [1#8]).phase = .idle ∧
      BlockTurn { idleOver [1#8] with offset := 1#32 } [] ∧
      (idleOver [1#8]).bufSize.toNat ≤ ({ idleOver [1#8] with offset := 1#32 } : State).offset.toNat :=
  ⟨by decide, rfl, block_moves rfl, by decide⟩

theorem meets_ReservedCodecFails :
    reservedFields (.startRsvd7 true true) = some (7#3, true, true) ∧ (idleOver []).phase = .idle ∧
      BlockTurn (idleOver []) [] := ⟨by decide, rfl, block_moves rfl⟩

/-- A length equal to OUT_CAP, with a depth and without. -/
theorem meets_HeaderAccepted :
    (headerFields (.hdrHuff 8#4 64#24) = some (.huff, 64#24) ∧
      (∀ d, Instr.hdrHuff 8#4 64#24 = .hdrHuff d 64#24 → d = 1#4 ∨ d = 2#4 ∨ d = 4#4 ∨ d = 8#4) ∧
      (64#24).toNat ≤ (atHeader 2#3 []).outCap.toNat) ∧
    (headerFields (.hdrDiff16 64#24) = some (.diff, 64#24) ∧
      (∀ d, Instr.hdrDiff16 64#24 = .hdrHuff d 64#24 → d = 1#4 ∨ d = 2#4 ∨ d = 4#4 ∨ d = 8#4) ∧
      (64#24).toNat ≤ (atHeader 4#3 []).outCap.toNat) :=
  ⟨⟨by decide, by intro d h; cases h; decide, by decide⟩, by decide, (by intro d h; cases h), by decide⟩

theorem meets_HeaderOverCapacityFails :
    headerFields (.hdrRl 65#24) = some (.rl, 65#24) ∧
      (∀ d, Instr.hdrRl 65#24 = .hdrHuff d 65#24 → d = 1#4 ∨ d = 2#4 ∨ d = 4#4 ∨ d = 8#4) ∧
      (atHeader 3#3 []).outCap.toNat < (65#24).toNat :=
  ⟨by decide, (by intro d h; cases h), by decide⟩

theorem meets_HuffmanDepthFails : 3#4 ≠ 1#4 ∧ 3#4 ≠ 2#4 ∧ 3#4 ≠ 4#4 ∧ 3#4 ≠ 8#4 := by decide

theorem meets_HeaderTypeMismatchFails :
    ∃ s W s1, BlockTurn s [] ∧ s.phase = .run ∧ s.pos = .header ∧ Codec.ofBits s.jcodec = some .lzss ∧
      read32 s = .ok W s1 ∧ typeMatches .lzss W = false :=
  ⟨atHeader 0#3 [0x11#8, 0#8, 0#8, 3#8], 0x11000003#32, _, block_moves rfl, rfl, rfl, rfl, rfl, by decide⟩

theorem meets_DiffModeFails :
    ∃ s W s1, BlockTurn s [] ∧ s.phase = .run ∧ s.pos = .header ∧ Codec.ofBits s.jcodec = some .diff ∧
      read32 s = .ok W s1 ∧ typeMatches .diff W = true ∧ W.toNat % 16 ≠ 1 ∧ W.toNat % 16 ≠ 2 :=
  ⟨atHeader 4#3 [0#8, 0#8, 7#8, 0x83#8], 0x00000783#32, _, block_moves rfl, rfl, rfl, rfl, rfl, by decide,
    by decide, by decide⟩

/-- At the end of the buffer and one byte past it, for each width. -/
theorem meets_ReadsAreAtomic :
    (idleOver [1#8, 2#8, 3#8, 4#8]).cursor.toNat + 4 ≤ (idleOver [1#8, 2#8, 3#8, 4#8]).bufSize.toNat ∧
    (idleOver [1#8, 2#8, 3#8]).bufSize.toNat < (idleOver [1#8, 2#8, 3#8]).cursor.toNat + 4 ∧
    (idleOver [1#8, 2#8]).cursor.toNat + 2 ≤ (idleOver [1#8, 2#8]).bufSize.toNat ∧
    (idleOver [1#8]).bufSize.toNat < (idleOver [1#8]).cursor.toNat + 2 ∧
    (idleOver [1#8]).cursor.toNat + 1 ≤ (idleOver [1#8]).bufSize.toNat ∧
    (idleOver []).bufSize.toNat < (idleOver []).cursor.toNat + 1 := by decide

/-- A header, a path word and a 16-bit delta, each one byte short. -/
theorem meets_MultiByteReadIsAllOrNothing :
    (∃ s, BlockTurn s [] ∧ s.phase = .run ∧ s.pos ≠ .entry ∧ bodyDone s = false ∧ Codec.ofBits s.jcodec = some .rl ∧
      slotOf .rl s = .hdr .rl ∧ s.bufSize.toNat < s.cursor.toNat + 4) ∧
    (∃ s, BlockTurn s [] ∧ s.phase = .run ∧ s.pos ≠ .entry ∧ bodyDone s = false ∧ Codec.ofBits s.jcodec = some .huff ∧
      slotOf .huff s = .hufPath ∧ s.steps = 0 ∧ s.bufSize.toNat < s.cursor.toNat + 4) ∧
    (∃ s, BlockTurn s [] ∧ s.phase = .run ∧ s.pos ≠ .entry ∧ bodyDone s = false ∧ Codec.ofBits s.jcodec = some .diff ∧
      slotOf .diff s = .delta16 ∧ s.bufSize.toNat < s.cursor.toNat + 2) :=
  ⟨⟨atHeader 3#3 [0x30#8, 0#8, 0#8], block_moves rfl, rfl, by decide, by decide, rfl, rfl, by decide⟩,
    ⟨{ body 2#3 [1#8, 2#8, 3#8] with bitsLeft := 0 }, block_moves rfl, rfl, by decide, by decide, rfl, rfl, rfl, by decide⟩,
    ⟨{ body 4#3 [1#8] with M := 2#4 }, block_moves rfl, rfl, by decide, by decide, rfl, rfl, by decide⟩⟩

/-- Each of the six elements at the end of the buffer. -/
theorem meets_MissingElementFails :
    (∃ s, BlockTurn s [] ∧ s.phase = .run ∧ s.pos ≠ .entry ∧ bodyDone s = false ∧ Codec.ofBits s.jcodec = some .lzss ∧
      slotOf .lzss s = .lzFlag ∧ s.bufSize.toNat ≤ s.cursor.toNat) ∧
    (∃ s, BlockTurn s [] ∧ s.phase = .run ∧ s.pos ≠ .entry ∧ bodyDone s = false ∧ Codec.ofBits s.jcodec = some .lzss ∧
      slotOf .lzss s = .lzLit false ∧ s.bufSize.toNat ≤ s.cursor.toNat) ∧
    (∃ s, BlockTurn s [] ∧ s.phase = .run ∧ s.pos ≠ .entry ∧ bodyDone s = false ∧ Codec.ofBits s.jcodec = some .lzx ∧
      slotOf .lzx s = .lzRef true ∧ s.bufSize.toNat ≤ s.cursor.toNat) ∧
    (∃ s, BlockTurn s [] ∧ s.phase = .run ∧ s.pos ≠ .entry ∧ bodyDone s = false ∧ Codec.ofBits s.jcodec = some .rl ∧
      slotOf .rl s = .rlRun ∧ s.bufSize.toNat ≤ s.cursor.toNat) ∧
    (∃ s, BlockTurn s [] ∧ s.phase = .run ∧ s.pos ≠ .entry ∧ bodyDone s = false ∧ Codec.ofBits s.jcodec = some .huff ∧
      slotOf .huff s = .hufTree ∧ s.bufSize.toNat ≤ s.cursor.toNat) ∧
    (∃ s, BlockTurn s [] ∧ s.phase = .run ∧ s.pos ≠ .entry ∧ bodyDone s = false ∧ Codec.ofBits s.jcodec = some .diff ∧
      slotOf .diff s = .delta8 ∧ s.bufSize.toNat ≤ s.cursor.toNat) :=
  ⟨⟨{ body 0#3 [] with fbit := 0 }, block_moves rfl, rfl, by decide, by decide, rfl, rfl, by decide⟩,
    ⟨{ body 0#3 [] with fbit := 1, flags := 0#8 }, block_moves rfl, rfl, by decide, by decide, rfl, by decide, by decide⟩,
    ⟨{ body 1#3 [] with fbit := 1, flags := 1#8 }, block_moves rfl, rfl, by decide, by decide, rfl, by decide, by decide⟩,
    ⟨body 3#3 [], block_moves rfl, rfl, by decide, by decide, rfl, rfl, by decide⟩,
    ⟨{ body 2#3 [] with pos := .tree }, block_moves rfl, rfl, by decide, by decide, rfl, rfl, by decide⟩,
    ⟨{ body 4#3 [] with M := 1#4 }, block_moves rfl, rfl, by decide, by decide, rfl, rfl, by decide⟩⟩

/-- A reference of four bytes of which three are left. -/
theorem meets_TruncatedReferenceFails :
    ∃ s, BlockTurn s [] ∧ s.phase = .run ∧ s.pos ≠ .entry ∧ bodyDone s = false ∧ Codec.ofBits s.jcodec = some .lzx ∧
      slotOf .lzx s = .lzRef true ∧ s.cursor.toNat + 3 = s.bufSize.toNat ∧ 1 ≤ 3 ∧ 3 < 4 ∧
      4 = (if true = false then 2
        else if (srcByte s s.cursor.toNat).toNat / 16 = 0 then 3
        else if (srcByte s s.cursor.toNat).toNat / 16 = 1 then 4 else 2) :=
  ⟨{ body 1#3 [0x1F#8, 0#8, 0#8] with fbit := 1, flags := 1#8 }, block_moves rfl, rfl, by decide, by decide, rfl,
    by decide, by decide, by decide, by decide, by decide⟩

theorem meets_LiteralWritesItsByte :
    (Instr.lzssLit 1#8 = .lzssLit 1#8 ∨ Instr.lzssLit 1#8 = .lzxLit 1#8) ∧
    (Instr.lzxLit 1#8 = .lzssLit 1#8 ∨ Instr.lzxLit 1#8 = .lzxLit 1#8) := by decide

/-- A displacement equal to the index and a count that ends at L. -/
theorem meets_BackReferenceCopies :
    refFields (.lzssRef 4#4 0#12) = some (2, 7, 1) ∧ 1 ≤ lzSample.out ∧ lzSample.out + 7 ≤ lzSample.L.toNat := by
  decide

/-- One byte too many. -/
theorem meets_LzssOverrunClamps :
    (0#12).toNat + 1 ≤ lzSample.out ∧ lzSample.out ≤ lzSample.L.toNat ∧
      lzSample.L.toNat < lzSample.out + ((5#4).toNat + 3) := by decide

theorem meets_LzxOverrunFails :
    isLzxRef (.lzxRefs 7#4 0#12) = true ∧ refFields (.lzxRefs 7#4 0#12) = some (2, 8, 1) ∧
      1 ≤ lzSample.out ∧ lzSample.L.toNat < lzSample.out + 8 := by decide

theorem meets_NegativeSourceFails :
    refFields (.lzxRef1 0xFFFF#16 1#12) = some (4, 65808, 2) ∧ lzSample.out < 2 := by decide

theorem meets_LzBodyIgnoresByteOrder :
    BlockTurn lzSample [] ∧ lzSample.phase = .run ∧ lzSample.pos = .body ∧
      (lzSample.jcodec = 0#3 ∨ lzSample.jcodec = 1#3) := ⟨block_moves rfl, by decide⟩

/-- A run that ends at L and at the end of the buffer. -/
theorem meets_VerbatimRunCopies :
    (body 3#3 (List.replicate 9 7#8)).out + ((7#7).toNat + 1) ≤ (body 3#3 (List.replicate 9 7#8)).L.toNat ∧
      (body 3#3 (List.replicate 9 7#8)).cursor.toNat + 1 + ((7#7).toNat + 1) ≤
        (body 3#3 (List.replicate 9 7#8)).bufSize.toNat := by decide

/-- A verbatim run whose last data byte is missing, and a replicate run whose only one is. -/
theorem meets_TruncatedRunFails :
    (body 3#3 (List.replicate 8 7#8)).out + ((7#7).toNat + 1) ≤ (body 3#3 (List.replicate 8 7#8)).L.toNat ∧
      (body 3#3 (List.replicate 8 7#8)).cursor.toNat + 1 + 7 = (body 3#3 (List.replicate 8 7#8)).bufSize.toNat ∧
      7 ≤ (7#7).toNat ∧
    (body 3#3 [0x85#8]).out + ((5#7).toNat + 3) ≤ (body 3#3 [0x85#8]).L.toNat ∧
      (body 3#3 [0x85#8]).cursor.toNat + 1 = (body 3#3 [0x85#8]).bufSize.toNat := by decide

theorem meets_ReplicateRunFills :
    (body 3#3 [0x85#8, 7#8]).out + ((5#7).toNat + 3) ≤ (body 3#3 [0x85#8, 7#8]).L.toNat ∧
      (body 3#3 [0x85#8, 7#8]).cursor.toNat + 2 ≤ (body 3#3 [0x85#8, 7#8]).bufSize.toNat := by decide

/-- Runs one byte longer than the output. -/
theorem meets_RunOverrunFails :
    (body 3#3 []).L.toNat < (body 3#3 []).out + ((8#7).toNat + 1) ∧
      (body 3#3 []).L.toNat < (body 3#3 []).out + ((6#7).toNat + 3) := by decide

theorem meets_TreeLoads :
    (body 2#3 [0#8, 1#8]).cursor.toNat + ((0#8).toNat + 1) * 2 ≤ (body 2#3 [0#8, 1#8]).bufSize.toNat := by
  decide

theorem meets_TruncatedTreeFails :
    (body 2#3 [0#8]).cursor.toNat + 1 ≤ (body 2#3 [0#8]).bufSize.toNat ∧
      (body 2#3 [0#8]).bufSize.toNat < (body 2#3 [0#8]).cursor.toNat + ((0#8).toNat + 1) * 2 := by decide

theorem meets_PathWordLoads : (huffBody 0#32 0).steps = 0 := by decide

theorem meets_CodeNeverStraddlesWords :
    ∃ s, BlockTurn s [] ∧ s.phase = .run ∧ s.pos = .body ∧ s.jcodec = 2#3 ∧ s.bitsLeft = 0 ∧ 0 < s.steps :=
  ⟨{ huffBody 0#32 0 with steps := 1 }, block_moves rfl, rfl, rfl, rfl, rfl, by decide⟩

/-- The right child of the root is the last byte of the tree. -/
theorem meets_PathBitGoesToChild :
    ∃ node c, node = treeByte (huffBody 0#32 1) (huffBody 0#32 1).a ∧
      c = (huffBody 0#32 1).a - (huffBody 0#32 1).a % 2 + (node.toNat % 64 + 1) * 2 + (if true then 1 else 0) ∧
      c < (huffBody 0#32 1).TS := ⟨0xC0#8, 3, by decide, by decide, by decide⟩

/-- The right child of the root is just past a tree of three bytes. -/
theorem meets_ChildOutsideTreeFails :
    ∃ s : State, s.TS ≤ s.a - s.a % 2 + ((treeByte s s.a).toNat % 64 + 1) * 2 + (if true then 1 else 0) :=
  ⟨{ huffBody 0#32 1 with TS := 3 }, by decide⟩

/-- A byte filled by its second symbol of 4 bits, and one not filled by its first. -/
theorem meets_LeafPacksItsSymbol :
    ((4#4 = 1#4 ∨ 4#4 = 2#4 ∨ 4#4 = 4#4 ∨ 4#4 = 8#4) ∧ 1 + 1 = 8 / (4#4).toNat) ∧
    ((4#4 = 1#4 ∨ 4#4 = 2#4 ∨ 4#4 = 4#4 ∨ 4#4 = 8#4) ∧ 0 + 1 ≠ 8 / (4#4).toNat) := by decide

theorem meets_SymbolsPackFirstOnTop :
    ∃ (s : State) (bs : List Byte), (s.D = 1#4 ∨ s.D = 2#4 ∨ s.D = 4#4 ∨ s.D = 8#4) ∧ s.acc8 = 0#8 ∧
      s.nsym = 0 ∧ bs.length = 8 / s.D.toNat :=
  ⟨{ huffBody 0#32 1 with D := 4#4 }, [1#8, 2#8], by decide, by decide, by decide, by decide⟩

theorem meets_Delta16WritesSum :
    (wrote [1#8] (body 4#3 [])).out + 1 < (body 4#3 []).L.toNat ∧
      ({ body 4#3 [] with L := 1#24 } : State).L.toNat ≤ (body 4#3 []).out + 1 := by decide

/-- Deltas that end with the buffer. -/
theorem meets_Diff8BodyWritesRunningSums :
    ∃ s : State, s.turns = [] ∧ s.phase = .run ∧ s.pos = .body ∧ s.jcodec = 4#3 ∧ s.M = 1#4 ∧
      s.out + 2 = s.L.toNat ∧ s.cursor.toNat + 2 ≤ s.bufSize.toNat :=
  ⟨{ body 4#3 [1#8, 2#8] with M := 1#4, L := 2#24 }, by decide⟩

theorem meets_CompletionRecord :
    BlockTurn doneSample [] ∧ doneSample.phase = .run ∧ bodyDone doneSample = true :=
  ⟨block_moves rfl, by decide⟩

/-- A job that ends with success, and one that ends with an error. -/
theorem meets_JobEndsWithOneOutcome :
    (∃ s t, Inv s ∧ BlockTurn s [] ∧ s.phase = .run ∧ step s = .next t ∧ t.phase = .idle ∧ t.done = true) ∧
    (∃ s t, Inv s ∧ BlockTurn s [] ∧ s.phase = .run ∧ step s = .next t ∧ t.phase = .idle ∧ t.err = true) :=
  ⟨⟨doneSample, _, doneSample_inv, block_moves rfl, rfl, rfl, rfl, rfl⟩,
    ⟨{ lzSample with bufSize := 1#32 }, _,
      { lzSample_inv with bufLe := by decide, cursorLe := by decide, srcIn := by decide
                          job := fun h => { lzSample_inv.job h with savedLe := by decide } },
      block_moves rfl, rfl, rfl, rfl, rfl⟩⟩

theorem meets_OffsetFormRestoresCursor :
    ∃ s t, BlockTurn s [] ∧ s.phase = .run ∧ s.jentry = true ∧ step s = .next t ∧ t.phase = .idle :=
  ⟨{ doneSample with jentry := true }, _, block_moves rfl, rfl, rfl, rfl, rfl⟩

/-- A running block and an idle one. -/
theorem meets_BlockLeavesSourceAndSetup :
    (∃ t, BlockTurn lzSample [] ∧ step lzSample = .next t) ∧
    (∃ t, BlockTurn (idleOver []) [] ∧ step (idleOver []) = .next t ∧ (idleOver []).phase = .idle) :=
  ⟨⟨_, block_moves rfl, rfl⟩, ⟨_, block_moves rfl, rfl, rfl⟩⟩

theorem meets_OutputGrowsInOrder :
    ∃ t, Inv lzSample ∧ BlockTurn lzSample [] ∧ lzSample.phase = .run ∧ step lzSample = .next t ∧ t.err = false :=
  ⟨_, lzSample_inv, block_moves rfl, rfl, rfl, rfl⟩

theorem meets_BytesPastBufferUnseen :
    ∃ t, BlockTurn lzSample [] ∧ step lzSample = .next t ∧
      (∀ i < lzSample.bufSize.toNat,
        srcByte { lzSample with srcMem := Memory.ofList 0 [0x60#8, 0x00#8, 9#8], srcDraw := 5 } i =
          srcByte lzSample i) := ⟨_, block_moves rfl, rfl, by decide⟩

/-- A job in its body, and one at its START. -/
theorem meets_EveryJobEnds :
    (lzSample.turns = [] ∧ lzSample.phase = .run) ∧
    ((accepted 0#3 true (idleOver [])).turns = [] ∧ (accepted 0#3 true (idleOver [])).phase = .run ∧
      (accepted 0#3 true (idleOver [])).pos = .entry) := by decide

theorem meets_EveryStepKeepsInvariant : ∃ t, Inv lzSample ∧ step lzSample = .next t :=
  ⟨_, lzSample_inv, rfl⟩

theorem meets_ResetState : ∃ s, s = { State.resetWith 0#32 0#24 with inst := 1 } := ⟨_, rfl⟩

theorem meets_ResetAbandonsJob : HostTurn { lzSample with turns := [.host .reset] } .reset [] := rfl

theorem meets_WriteWhileBusyIgnored :
    ∃ s, HostTurn s (.regWrite 0 32 1#32) [] ∧ s.phase = .run ∧ 0 % 4 = 0 :=
  ⟨{ lzSample with turns := [.host (.regWrite 0 32 1#32)] }, rfl, rfl, rfl⟩

theorem meets_OtherRegisterAccessRefused :
    (∃ s, HostTurn s (.regRead 4 16) [] ∧ (16 ≠ 32 ∨ 4 % 4 ≠ 0)) ∧
    (∃ s, HostTurn s (.regWrite 2 32 1#32) [] ∧ (32 ≠ 32 ∨ 2 % 4 ≠ 0)) :=
  ⟨⟨{ lzSample with turns := [.host (.regRead 4 16)] }, rfl, by decide⟩,
    ⟨{ lzSample with turns := [.host (.regWrite 2 32 1#32)] }, rfl, by decide⟩⟩

theorem meets_ReservedOffsetReadsZero :
    (∃ s, HostTurn s (.regRead 0x2C 32) [] ∧ 0x2C % 4 = 0 ∧ 0x2C ≤ 0x2C) ∧
    (∃ s, HostTurn s (.regWrite 0x2C 32 1#32) [] ∧ 0x2C % 4 = 0 ∧ 0x2C ≤ 0x2C) :=
  ⟨⟨{ lzSample with turns := [.host (.regRead 0x2C 32)] }, rfl, by decide⟩,
    ⟨{ lzSample with turns := [.host (.regWrite 0x2C 32 1#32)] }, rfl, by decide⟩⟩

/-- Every register. -/
theorem meets_RegisterWriteReadsBack (r : Reg) :
    ∃ s v, HostTurn s (.regWrite r.addr 32 v) [] ∧ s.phase = .idle ∧ (r = .ctrl → v.getLsbD 0 = false) :=
  ⟨{ idleOver [1#8] with turns := [.host (.regWrite r.addr 32 0x3E#32)] }, _, rfl, rfl, fun _ => by decide⟩

/-- The largest CURSOR value that is taken, and the smallest that is refused. -/
theorem meets_RegisterWriteReadsBack_cursor :
    (∃ s, HostTurn s (.regWrite (Reg.cursor).addr 32 1#32) [] ∧ s.phase = .idle ∧ (1#32).toNat < s.bufSize.toNat) ∧
    (∃ s, HostTurn s (.regWrite (Reg.cursor).addr 32 2#32) [] ∧ s.phase = .idle ∧
      ¬ (2#32).toNat < s.bufSize.toNat) :=
  ⟨⟨{ idleOver [1#8, 2#8] with turns := [hostWr .cursor 1#32] }, rfl, rfl, by decide⟩,
    ⟨{ idleOver [1#8, 2#8] with turns := [hostWr .cursor 2#32] }, rfl, rfl, by decide⟩⟩

/-- An idle block, and a running one at each of the three registers it hides. -/
theorem meets_RegisterReadHasNoSideEffect (r : Reg) :
    (∃ s, HostTurn s (.regRead r.addr 32) [] ∧ s.phase = .idle) ∧
    (∃ s, HostTurn s (.regRead r.addr 32) [] ∧ s.phase = .run) :=
  ⟨⟨{ idleOver [] with turns := [.host (.regRead r.addr 32)] }, rfl, rfl⟩,
    ⟨{ lzSample with turns := [.host (.regRead r.addr 32)] }, rfl, rfl⟩⟩

/-- A write of STATUS, of CTRL without START, a START, and a reset. -/
theorem meets_InterruptFollowsStatus :
    (∃ s t, s.phase = .idle ∧ HostTurn s (.regWrite 0x04 32 6#32) [] ∧ (6#32).getLsbD 1 = true ∧
      (6#32).getLsbD 2 = true ∧ step s = .next t ∧ s.irq = true) ∧
    (∃ s t, s.phase = .idle ∧ HostTurn s (.regWrite 0x00 32 0#32) [] ∧ (0#32).getLsbD 0 = false ∧
      (0#32).getLsbD 5 = false ∧ step s = .next t ∧ s.irq = true) ∧
    (∃ s t, s.phase = .idle ∧ HostTurn s (.regWrite 0x00 32 0x21#32) [] ∧ (0x21#32).getLsbD 0 = true ∧
      step s = .next t ∧ s.irq = true) ∧
    (∃ s t, HostTurn s .reset [] ∧ step s = .next t ∧ s.irq = true) :=
  ⟨⟨{ idleOver [] with ctrlIe := true, done := true, turns := [.host (.regWrite 0x04 32 6#32)] }, _,
      rfl, rfl, by decide, by decide, rfl, rfl⟩,
    ⟨{ idleOver [] with ctrlIe := true, err := true, turns := [.host (.regWrite 0x00 32 0#32)] }, _,
      rfl, rfl, by decide, by decide, rfl, rfl⟩,
    ⟨{ idleOver [] with ctrlIe := true, done := true, turns := [.host (.regWrite 0x00 32 0x21#32)] }, _,
      rfl, rfl, by decide, rfl, rfl⟩,
    ⟨{ idleOver [] with ctrlIe := true, done := true, turns := [.host .reset] }, _, rfl, rfl, rfl⟩⟩

/-- The last byte of SRC, idle and running, and the first address past it. -/
theorem meets_HostWritesSource :
    (∃ s, HostTurn s (.srcWrite 63 1#8) [] ∧ 63 < s.maxSrc.toNat ∧ s.phase = .idle) ∧
    (∃ s, HostTurn s (.srcWrite 63 1#8) [] ∧ 63 < s.maxSrc.toNat ∧ s.phase = .run) ∧
    (∃ s, HostTurn s (.srcWrite 64 1#8) [] ∧ s.maxSrc.toNat ≤ 64) :=
  ⟨⟨{ idleOver [] with turns := [.host (.srcWrite 63 1#8)] }, rfl, by decide, rfl⟩,
    ⟨{ lzSample with turns := [.host (.srcWrite 63 1#8)] }, rfl, by decide, rfl⟩,
    ⟨{ idleOver [] with turns := [.host (.srcWrite 64 1#8)] }, rfl, by decide⟩⟩

/-- The last byte of OUT and of SRC. -/
theorem meets_HostReadsMemories :
    (∃ s, s.phase = .idle ∧ HostTurn s (.outRead 63) [] ∧ 63 < s.outCap.toNat) ∧
    (∃ s, s.phase = .idle ∧ HostTurn s (.srcRead 63) [] ∧ 63 < s.maxSrc.toNat) :=
  ⟨⟨{ idleOver [] with turns := [.host (.outRead 63)] }, rfl, rfl, by decide⟩,
    ⟨{ idleOver [] with turns := [.host (.srcRead 63)] }, rfl, rfl, by decide⟩⟩

theorem meets_InstancesShareNothing : ∃ sys', stepInstance 1 [idleOver [], lzSample] = .next sys' := ⟨_, rfl⟩

end Sys2Proof.Tests
end

section
/-! What no turn of the block writes (10_state.md R33, R36; 20_memory.md R77; 70_reset_and_hazards.md R256). -/

namespace Sys2Proof.Machine

/-- The part of the state that no turn of the block writes, everything else blanked: two states agree on it
when their images are equal. -/
def beyondBlock (s : State) : State :=
  { State.reset with
    outCap := s.outCap
    maxSrc := s.maxSrc
    ctrlCodec := s.ctrlCodec
    ctrlEntry := s.ctrlEntry
    ctrlIe := s.ctrlIe
    ofsErr := s.ofsErr
    bufSize := s.bufSize
    offset := s.offset
    order := s.order
    srcMem := s.srcMem
    srcDraw := s.srcDraw
    treeDraw := s.treeDraw
    jcodec := s.jcodec
    jentry := s.jentry
    jorder := s.jorder
    saved := s.saved
    turns := s.turns
    rdata := s.rdata
    freeCtr := s.freeCtr
    inst := s.inst }

/-! ### What the image fixes -/

theorem SameSetup.of_beyondBlock {s t : State} (h : beyondBlock t = beyondBlock s) : SameSetup s t :=
  ⟨(congrArg State.ctrlCodec h :), (congrArg State.ctrlEntry h :), (congrArg State.ctrlIe h :),
    (congrArg State.ofsErr h :), (congrArg State.bufSize h :), (congrArg State.offset h :),
    (congrArg State.order h :), (congrArg State.outCap h :), (congrArg State.maxSrc h :),
    (congrArg State.inst h :)⟩

theorem SameLatch.of_beyondBlock {s t : State} (h : beyondBlock t = beyondBlock s) : SameLatch s t :=
  ⟨(congrArg State.jcodec h :), (congrArg State.jentry h :), (congrArg State.jorder h :),
    (congrArg State.saved h :)⟩

theorem SameHostSide.of_beyondBlock {s t : State} (h : beyondBlock t = beyondBlock s) :
    SameHostSide s t :=
  ⟨(congrArg State.turns h :), (congrArg State.rdata h :), (congrArg State.freeCtr h :)⟩

theorem SameSrc.of_beyondBlock {s t : State} (h : beyondBlock t = beyondBlock s) : SameSrc s t :=
  .of_eq (congrArg State.srcMem h :) (congrArg State.srcDraw h :) (congrArg State.inst h :)

/-! ### The operations of the block keep it -/

@[simp] theorem beyondBlock_advance (n : Nat) (s : State) :
    beyondBlock (advance n s) = beyondBlock s := rfl

@[simp] theorem beyondBlock_takeBlock (n : Nat) (s : State) :
    beyondBlock (takeBlock n s) = beyondBlock s := rfl

@[simp] theorem beyondBlock_emit (b : Byte) (s : State) : beyondBlock (emit b s) = beyondBlock s := rfl

@[simp] theorem beyondBlock_restart (s : State) : beyondBlock (restart s) = beyondBlock s := rfl

@[simp] theorem beyondBlock_raise (e : JobError) (off : Word) (s : State) :
    beyondBlock (raise e off s) = beyondBlock s := rfl

@[simp] theorem beyondBlock_finish (s : State) : beyondBlock (finish s) = beyondBlock s := rfl

@[simp] theorem beyondBlock_enterStream (s : State) : beyondBlock (enterStream s) = beyondBlock s := by
  rcases enterStream_cases s with ⟨_, h⟩ | ⟨_, _, h⟩ | ⟨_, _, _, h⟩ | ⟨_, _, _, h⟩ <;> simp [h, beyondBlock]

@[simp] theorem beyondBlock_openOutput (off : Word) (s : State) :
    beyondBlock (openOutput off s) = beyondBlock s := by
  rcases openOutput_cases off s with ⟨_, h⟩ | ⟨_, h⟩ <;> simp [h, beyondBlock]

@[simp] theorem beyondBlock_copyBack (disp n : Nat) (s : State) :
    beyondBlock (copyBack disp n s) = beyondBlock s := by
  rw [copyBack_eq]; rfl

@[simp] theorem beyondBlock_emitRun (b : Byte) (n : Nat) (s : State) :
    beyondBlock (emitRun b n s) = beyondBlock s := by
  rw [emitRun_eq]; rfl

@[simp] theorem beyondBlock_copyRun (n : Nat) (s : State) : beyondBlock (copyRun n s) = beyondBlock s := by
  induction n generalizing s with
  | zero => rfl
  | succ n ih =>
    rcases read8_cases s with ⟨_, hr⟩ | ⟨_, hr⟩ <;> simp only [copyRun, hr]
    · exact ih _
    · rfl

@[simp] theorem beyondBlock_backRef (clamp : Bool) (n count disp : Nat) (s : State) :
    beyondBlock (backRef clamp n count disp s) = beyondBlock s := by
  rcases backRef_cases clamp n count disp s with ⟨_, h⟩ | ⟨_, _, _, h⟩ | ⟨_, _, _, h⟩ | ⟨_, _, h⟩ <;>
    simp [h]

@[simp] theorem beyondBlock_traverse (right : Bool) (s : State) :
    beyondBlock (traverse right s) = beyondBlock s := by
  rcases traverse_cases right s with ⟨_, h⟩ | ⟨_, h⟩ <;> simp [h, beyondBlock]

@[simp] theorem beyondBlock_packSymbol (sym : Byte) (s : State) :
    beyondBlock (packSymbol sym s) = beyondBlock s := by
  rcases packSymbol_cases sym s with ⟨_, h⟩ | ⟨_, h⟩ <;> simp [h, beyondBlock]

/-- No element but a command changes anything beyond the block (30_encoding.md R104). -/
theorem exec_beyondBlock {i : Instr} {s t : State} (hi : i.slot ≠ .cmd) (h : exec i s = .next t) :
    beyondBlock t = beyondBlock s := by
  cases i with
  | startLzss | startLzx | startHuff | startRl | startDiff | startRsvd5 | startRsvd6 | startRsvd7 =>
    exact absurd rfl hi
  | hdrLzss | hdrLzx | hdrRl | hdrDiff8 | hdrDiff16 =>
    cases h
    exact (beyondBlock_openOutput ..).trans (by simp [beyondBlock, beginLz, beginDiff])
  | hdrHuff depth len =>
    cases h
    split
    · exact (beyondBlock_openOutput ..).trans (by simp [beyondBlock])
    · simp [beyondBlock]
  | lzssLit | lzxLit => cases h; simp [literal]
  | lzssRef | lzxRef0 | lzxRef1 | lzxRefs => cases h; simp
  | rlCopy n => cases h; split <;> simp
  | rlFill n =>
    cases h
    split
    · simp
    · rcases read8_cases (advance 1 s) with ⟨_, hr⟩ | ⟨_, hr⟩ <;> simp [hr]
  | huffTree n =>
    obtain ⟨u, hu, ⟨_, ht⟩ | ⟨_, ht⟩⟩ := execHuffTree_cases n s <;> cases hu.symm.trans h <;>
      simp [ht, beyondBlock]
  | huffLeft | huffRight | huffLeaf => cases h; simp
  | huffPath p => cases h; split <;> simp [beyondBlock]
  | lzFlags | diff8Delta => cases h; simp [beyondBlock]
  | diff16Delta d => cases h; split <;> simp [beyondBlock]

/-- No turn of the block changes anything beyond the block. -/
theorem blockStep_beyondBlock {s t : State} (h : blockStep s = .next t) :
    beyondBlock t = beyondBlock s := by
  cases hp : s.phase with
  | idle => cases (blockStep_idle hp).symm.trans h; rfl
  | run =>
    rcases blockStep_run_cases hp with ⟨_, hb⟩ | ⟨_, _, hb⟩ | ⟨i, _, _, hf, hb⟩ | ⟨e, off, k, _, _, _, hb⟩
    · cases hb.symm.trans h; exact beyondBlock_enterStream s
    · cases hb.symm.trans h; rfl
    · obtain ⟨_, _, _, hi, _⟩ := fetch_element hf
      exact exec_beyondBlock hi (hb.symm.trans h)
    · cases hb.symm.trans h; rfl

/-- Settles O45: what a turn of the block leaves unchanged is read off the part of the state beyond it. -/
theorem blockLeavesSourceAndSetup : Obligations.BlockLeavesSourceAndSetup := by
  intro s t rest hturn hstep
  have hb : blockStep (takeTurn rest s) = .next t := (step_blockTurn hturn).symm.trans hstep
  have hk := blockStep_beyondBlock hb
  obtain ⟨hturns, hrdata, hctr⟩ := SameHostSide.of_beyondBlock hk
  refine ⟨(SameSrc.of_beyondBlock hk :), (SameSetup.of_beyondBlock hk :), (SameLatch.of_beyondBlock hk :),
    hturns, hrdata, hctr, fun hidle => ?_⟩
  cases (blockStep_idle (s := takeTurn rest s) hidle).symm.trans hb
  rfl

end Sys2Proof.Machine
end

section
/-! How an element of the body goes on: output written in order (10_state.md R35, 20_memory.md R66, R67), CURSOR
kept in the buffer (R65), and the registers it leaves alone. -/

namespace Sys2Proof.Machine

/-! ### Output in order -/

/-- From `s` to `t` OUT is written in order from the index of `s` up to that of `t`, and nowhere else. -/
structure OutGrows (s t : State) : Prop where
  draw : t.outDraw = s.outDraw
  mono : s.out ≤ t.out
  kept : ∀ i, i < s.out ∨ t.out ≤ i → t.outMem.read i = s.outMem.read i
  written : ∀ i, s.out ≤ i → i < t.out → (t.outMem.read i).isSome
  wf : s.outMem.wf → t.outMem.wf
  listed : ∀ c ∈ t.outMem, c ∈ s.outMem ∨ c.1 < t.out

theorem OutGrows.of_eq {s t : State} (hd : t.outDraw = s.outDraw) (ho : t.out = s.out)
    (hm : t.outMem = s.outMem) : OutGrows s t where
  draw := hd
  mono := ho.ge
  kept _ _ := by rw [hm]
  written _ h1 h2 := by omega
  wf h := hm ▸ h
  listed _ hc := .inl (hm ▸ hc)

theorem OutGrows.trans {s t u : State} (h1 : OutGrows s t) (h2 : OutGrows t u) : OutGrows s u where
  draw := h2.draw.trans h1.draw
  mono := h1.mono.trans h2.mono
  kept i hi := by
    have := h1.mono
    have := h2.mono
    rw [h2.kept i (by omega), h1.kept i (by omega)]
  written i hi hlt := by
    by_cases ht : i < t.out
    · rw [h2.kept i (.inl ht)]
      exact h1.written i hi ht
    · exact h2.written i (by omega) hlt
  wf h := h2.wf (h1.wf h)
  listed c hc := by
    rcases h2.listed c hc with hc | hc
    · exact (h1.listed c hc).imp_right fun h => h.trans_le h2.mono
    · exact .inr hc

theorem OutGrows.emit (b : Byte) (s : State) : OutGrows s (emit b s) where
  draw := rfl
  mono := Nat.le_succ _
  kept i hi := by
    rw [emit_out] at hi
    rw [emit_outMem, Memory.read_write, if_neg (by omega)]
  written i h1 h2 := by
    rw [emit_out] at h2
    rw [emit_outMem, Memory.read_write, if_pos (by omega)]
    rfl
  wf h := Memory.write_wf _ _ h
  listed c hc := by
    rcases Memory.mem_write hc with rfl | hc
    · exact .inr (Nat.lt_succ_self _)
    · exact .inl hc

/-- Outside the bytes passed, OUT reads as it did. -/
theorem OutGrows.outRead_eq {s t : State} (h : OutGrows s t) (hi : t.inst = s.inst) {i : Nat}
    (hout : i < s.out ∨ t.out ≤ i) : outRead t i = outRead s i := by
  simp only [outRead, h.kept i hout, h.draw, hi]

/-! ### An element that goes on -/

/-- The part of the state that no element after the header writes while the job goes on, everything else
blanked: what lies beyond the block, the report, the phase and the header. -/
def beyondElement (s : State) : State :=
  { beyondBlock s with
    done := s.done
    err := s.err
    errCode := s.errCode
    outLen := s.outLen
    outCount := s.outCount
    errOffset := s.errOffset
    phase := s.phase
    W := s.W
    L := s.L }

/-- The part of the work of an element after the header that has been done from `s` to `t`. -/
structure Progress (s t : State) : Prop where
  kept : beyondElement t = beyondElement s
  out : OutGrows s t
  within : s.out ≤ s.L.toNat → t.out ≤ s.L.toNat
  cursorIn : s.cursor.toNat ≤ s.bufSize.toNat → t.cursor.toNat ≤ t.bufSize.toNat

namespace Progress

variable {s t u : State}

theorem phase (h : Progress s t) : t.phase = s.phase := (congrArg State.phase h.kept :)
theorem done (h : Progress s t) : t.done = s.done := (congrArg State.done h.kept :)
theorem err (h : Progress s t) : t.err = s.err := (congrArg State.err h.kept :)
theorem errCode (h : Progress s t) : t.errCode = s.errCode := (congrArg State.errCode h.kept :)
theorem errOffset (h : Progress s t) : t.errOffset = s.errOffset := (congrArg State.errOffset h.kept :)
theorem outCount (h : Progress s t) : t.outCount = s.outCount := (congrArg State.outCount h.kept :)
theorem outLen (h : Progress s t) : t.outLen = s.outLen := (congrArg State.outLen h.kept :)
theorem L (h : Progress s t) : t.L = s.L := (congrArg State.L h.kept :)
theorem bufSize (h : Progress s t) : t.bufSize = s.bufSize := (congrArg State.bufSize h.kept :)
theorem maxSrc (h : Progress s t) : t.maxSrc = s.maxSrc := (congrArg State.maxSrc h.kept :)
theorem outCap (h : Progress s t) : t.outCap = s.outCap := (congrArg State.outCap h.kept :)
theorem srcMem (h : Progress s t) : t.srcMem = s.srcMem := (congrArg State.srcMem h.kept :)
theorem jcodec (h : Progress s t) : t.jcodec = s.jcodec := (congrArg State.jcodec h.kept :)
theorem saved (h : Progress s t) : t.saved = s.saved := (congrArg State.saved h.kept :)

theorem trans (h1 : Progress s t) (h2 : Progress t u) : Progress s u where
  kept := h2.kept.trans h1.kept
  out := h1.out.trans h2.out
  within h := h1.L ▸ h2.within (h1.L ▸ h1.within h)
  cursorIn h := h2.cursorIn (h1.cursorIn h)

/-- Work that writes nothing to OUT. -/
theorem of_quiet (hk : beyondElement t = beyondElement s) (hd : t.outDraw = s.outDraw)
    (ho : t.out = s.out) (hm : t.outMem = s.outMem)
    (hc : s.cursor.toNat ≤ s.bufSize.toNat → t.cursor.toNat ≤ t.bufSize.toNat) : Progress s t where
  kept := hk
  out := .of_eq hd ho hm
  within h := ho ▸ h
  cursorIn := hc

end Progress

/-! ### Elements of the LZ, RL and Diff bodies -/

/-- The work of an element that stays in the body of its job and touches neither tree nor mode. -/
structure BodyStep (s t : State) : Prop extends Progress s t where
  pos : t.pos = s.pos
  tree : t.treeMem = s.treeMem
  mode : t.M = s.M
  flagBits : s.fbit ≤ 8 → t.fbit ≤ 8

namespace BodyStep

variable {s t u : State}

theorem trans (h1 : BodyStep s t) (h2 : BodyStep t u) : BodyStep s u where
  toProgress := h1.toProgress.trans h2.toProgress
  pos := h2.pos.trans h1.pos
  tree := h2.tree.trans h1.tree
  mode := h2.mode.trans h1.mode
  flagBits h := h2.flagBits (h1.flagBits h)

theorem refl (s : State) : BodyStep s s :=
  ⟨.of_quiet rfl rfl rfl rfl id, rfl, rfl, rfl, id⟩

/-- A read of `n` bytes that are in the buffer (R65). -/
theorem advance {n : Nat} (h : s.cursor.toNat + n ≤ s.bufSize.toNat) : BodyStep s (advance n s) :=
  ⟨.of_quiet rfl rfl rfl rfl fun _ => (advance_cursor_toNat h).trans_le h, rfl, rfl, rfl, id⟩

/-- A block of `n` bytes that are in the buffer (42_lz.md R133). -/
theorem takeBlock {n : Nat} (h : s.cursor.toNat + n ≤ s.bufSize.toNat) : BodyStep s (takeBlock n s) :=
  (advance h).trans
    ⟨.of_quiet rfl rfl rfl rfl id, rfl, rfl, rfl, fun hf => (Nat.sub_le s.fbit 1).trans hf⟩

/-- A delta of `n` bytes that are in the buffer, added to the accumulator (45_diff.md R201, R202). -/
theorem delta {n : Nat} (v : BitVec 16) (h : s.cursor.toNat + n ≤ s.bufSize.toNat) :
    BodyStep s { Machine.advance n s with acc := v } :=
  (advance h).trans ⟨.of_quiet rfl rfl rfl rfl id, rfl, rfl, rfl, id⟩

/-- One byte written below the declared length (R66, R116). -/
theorem emit (b : Byte) (h : s.out < s.L.toNat) : BodyStep s (emit b s) :=
  ⟨⟨rfl, .emit b s, fun _ => h, id⟩, rfl, rfl, rfl, id⟩

/-- A copy within the declared length (R137). -/
theorem copyBack (disp : Nat) {n : Nat} (h : s.out + n ≤ s.L.toNat) : BodyStep s (copyBack disp n s) := by
  induction n generalizing s with
  | zero => exact refl s
  | succ n ih =>
    exact (emit _ (by omega)).trans (ih (by simp only [emit_out, emit_L]; omega))

/-- A replicate run within the declared length (R192). -/
theorem emitRun (b : Byte) {n : Nat} (h : s.out + n ≤ s.L.toNat) : BodyStep s (emitRun b n s) := by
  induction n generalizing s with
  | zero => exact refl s
  | succ n ih =>
    exact (emit b (by omega)).trans (ih (by simp only [emit_out, emit_L]; omega))

/-- A verbatim run within the declared length whose data are in the buffer (R191). -/
theorem copyRun {n : Nat} (hc : s.cursor.toNat + n ≤ s.bufSize.toNat) (h : s.out + n ≤ s.L.toNat) :
    BodyStep s (copyRun n s) := by
  induction n generalizing s with
  | zero => exact refl s
  | succ n ih =>
    rcases read8_cases s with ⟨hb, hr⟩ | ⟨hb, _⟩
    · simp only [Machine.copyRun, hr]
      have hcur := advance_cursor_toNat hb
      refine ((advance hb).trans (emit _ ?_)).trans (ih ?_ ?_)
      · simp only [advance_out, advance_L]; omega
      · simp only [emit_cursor, emit_bufSize, hcur, advance_bufSize]; omega
      · simp only [emit_out, emit_L, advance_out, advance_L]; omega
    · omega

end BodyStep

/-- What an element can come to: it goes on, or some of its work is done and the job fails. -/
def GoesOnOrFails (R : State → State → Prop) (s t : State) : Prop :=
  R s t ∨ ∃ s1 e off, R s s1 ∧ t = raise e off s1

/-- A back-reference whose bytes are in the buffer (42_lz.md R136 to R141). -/
theorem backRef_step {clamp : Bool} {n count disp : Nat} {s : State}
    (hc : s.cursor.toNat + n ≤ s.bufSize.toNat) (ho : s.out ≤ s.L.toNat) :
    GoesOnOrFails BodyStep s (backRef clamp n count disp s) := by
  have ht : BodyStep s (takeBlock n s) := .takeBlock hc
  rcases backRef_cases clamp n count disp s with ⟨_, h⟩ | ⟨_, _, _, h⟩ | ⟨_, _, _, h⟩ | ⟨_, hl, h⟩ <;> rw [h]
  · exact .inr ⟨_, _, _, ht, rfl⟩
  · exact .inl (ht.trans (.copyBack disp (by simp only [takeBlock_out, takeBlock_L]; omega)))
  · exact .inr ⟨_, _, _, ht, rfl⟩
  · exact .inl (ht.trans (.copyBack disp hl))

/-- A verbatim run whose flag byte is read (44_rl.md R191). -/
theorem copyRun_step {n : Nat} {s : State} (hn : 0 < n) (hc : s.cursor.toNat ≤ s.bufSize.toNat)
    (ho : s.out + n ≤ s.L.toNat) : GoesOnOrFails BodyStep s (copyRun n s) := by
  rcases copyRun_cases hn s with hall | ⟨hlt, _⟩ | ⟨m, hm, hcut, h⟩
  · exact .inl (.copyRun hall ho)
  · omega
  · exact .inr ⟨_, _, _, .copyRun hcut.le (by omega), h⟩

/-- The elements of the LZ, RL and Diff bodies. -/
def isPlainBody : Slot → Bool
  | .lzFlag | .lzLit _ | .lzRef _ | .rlRun | .delta8 | .delta16 => true
  | _ => false

/-- What an element of an LZ, RL or Diff body can come to when its bytes are in the buffer and output is left
to write. -/
theorem exec_bodyStep {i : Instr} {s t : State} (hi : isPlainBody i.slot = true)
    (hc : s.cursor.toNat + elementLength i.slot i ≤ s.bufSize.toNat) (ho : s.out < s.L.toNat)
    (h : exec i s = .next t) : GoesOnOrFails BodyStep s t := by
  cases i with
  | lzFlags f =>
    cases h
    exact .inl ((BodyStep.advance hc).trans
      ⟨.of_quiet rfl rfl rfl rfl id, rfl, rfl, rfl, fun _ => Nat.le_refl 8⟩)
  | lzssLit b | lzxLit b =>
    cases h
    exact .inl ((BodyStep.takeBlock hc).trans (.emit b ho))
  | lzssRef c d | lzxRef0 c d | lzxRef1 c d | lzxRefs ind d =>
    cases h
    exact backRef_step hc ho.le
  | rlCopy n =>
    have hr : BodyStep s (advance 1 s) := .advance hc
    cases h
    split
    · exact .inr ⟨_, _, _, hr, rfl⟩
    · next hl =>
      rcases copyRun_step (Nat.succ_pos _) (hr.cursorIn (by omega)) (Nat.not_lt.mp hl) with
        hs | ⟨s1, e, off, hs, heq⟩
      · exact .inl (hr.trans hs)
      · exact .inr ⟨s1, e, off, hr.trans hs, heq⟩
  | rlFill n =>
    have hr : BodyStep s (advance 1 s) := .advance hc
    cases h
    split
    · exact .inr ⟨_, _, _, hr, rfl⟩
    · next hl =>
      rcases read8_cases (advance 1 s) with ⟨hb, h8⟩ | ⟨_, h8⟩ <;> rw [h8]
      · exact .inl ((hr.trans (.advance hb)).trans (.emitRun _ (Nat.not_lt.mp hl)))
      · exact .inr ⟨_, _, _, hr, rfl⟩
  | diff8Delta d =>
    cases h
    exact .inl ((BodyStep.delta _ hc).trans (.emit _ ho))
  | diff16Delta d =>
    have hr : BodyStep s (emit ((s.acc + d).extractLsb' 8 8) { advance 2 s with acc := s.acc + d }) :=
      (BodyStep.delta _ hc).trans (.emit _ ho)
    cases h
    split
    · next hl => exact .inl (hr.trans (.emit _ hl))
    · exact .inl hr
  | _ => cases hi

end Sys2Proof.Machine
end

section
/-! The parts of the invariant that a turn of a running block needs, and that an error record is made from. -/

namespace Sys2Proof.Machine

/-! ### Where a job stands and what it reads there -/

theorem Codec.eq_bits_of_ofBits {v : BitVec 3} {c : Codec} (h : Codec.ofBits v = some c) : v = c.bits := by
  unfold Codec.ofBits at h
  split_ifs at h with h0 h1 h2 h3 h4 <;> cases h <;> assumption

/-- The slot a job reads, by its place, its codec and its path bits (30_encoding.md R104). -/
theorem slotOf_cases (c : Codec) (s : State) :
    ((s.pos = .entry ∨ s.pos = .header) ∧ slotOf c s = .hdr c) ∨
    (s.pos = .tree ∧ slotOf c s = .hufTree) ∨
    (s.pos = .leaf ∧ slotOf c s = .hufLeaf) ∨
    (s.pos = .body ∧ c = .huff ∧ s.bitsLeft = 0 ∧ slotOf c s = .hufPath) ∨
    (s.pos = .body ∧ c = .huff ∧ s.bitsLeft ≠ 0 ∧ slotOf c s = .hufBit) ∨
    (s.pos = .body ∧ c ≠ .huff ∧ isPlainBody (slotOf c s) = true) := by
  unfold slotOf
  cases s.pos with
  | entry | header | tree | leaf => simp
  | body =>
    cases c with
    | huff => by_cases hb : s.bitsLeft = 0 <;> simp [hb]
    | rl => simp [isPlainBody]
    | lzss | lzx => dsimp only; split_ifs <;> simp [isPlainBody]
    | diff => dsimp only; split_ifs <;> simp [isPlainBody]

/-- The bytes that were read before a rejection (30_encoding.md R104, 60_exceptions.md R221). -/
def rejectLength : Reject → Nat
  | .short k => k
  | .typeMismatch | .badMode => 4
  | .notStart | .notABit => 0

theorem rejectRecord_eq (s : State) (r : Reject) :
    ∃ e off, rejectRecord s r = .failed e off (rejectLength r) := by
  cases r <;> exact ⟨_, _, rfl⟩

theorem decodeHeader_reject_length {c : Codec} {W : Word} {r : Reject} (h : decodeHeader c W = .error r) :
    rejectLength r = 4 := by
  cases c <;> simp only [decodeHeader] at h <;> split_ifs at h <;> cases h <;> rfl

theorem decodeLzssRef_reject_length {bs : List Byte} {r : Reject} (h : decodeLzssRef bs = .error r) :
    rejectLength r ≤ bs.length := by
  unfold decodeLzssRef at h
  split at h <;> cases h <;> simp [rejectLength]

theorem decodeLzxRef_reject_length {bs : List Byte} {r : Reject} (h : decodeLzxRef bs = .error r) :
    rejectLength r ≤ bs.length := by
  unfold decodeLzxRef at h
  split at h
  · cases h; simp [rejectLength]
  · split_ifs at h <;> split at h <;> cases h <;> simp [rejectLength]

/-- A rejection comes after bytes that are there; a path bit and a leaf are never read in part (R61). -/
theorem decode_reject_length {slot : Slot} {o : ByteOrder} {bs : List Byte} {r : Reject}
    (h : decode slot o bs = .error r) :
    rejectLength r ≤ bs.length ∧ (slot = .hufBit ∨ slot = .hufLeaf → rejectLength r = 0) := by
  cases slot <;> simp only [decode] at h
  case cmd =>
    split at h
    · unfold decodeCmd at h
      dsimp only at h
      split at h
      · split at h <;> try cases h
        split_ifs at h
      · cases h; simp [rejectLength]
    · cases h; simp [rejectLength]
  case hdr c =>
    split at h
    · simp [decodeHeader_reject_length h]
    · cases h; simp [rejectLength]
  case lzRef ext =>
    cases ext
    · simpa using decodeLzssRef_reject_length h
    · simpa using decodeLzxRef_reject_length h
  case hufBit =>
    split at h
    · split_ifs at h; cases h; simp [rejectLength]
    · cases h; simp [rejectLength]
  all_goals
    split at h <;> cases h
    simp [rejectLength]

/-- What a fetch read before it failed is in the buffer (R61, R65). -/
theorem fetch_failed_cursor {s : State} {e : JobError} {off : Word} {k : Nat}
    (h : fetch s = .failed e off k) (hc : s.cursor.toNat ≤ s.bufSize.toNat) :
    s.cursor.toNat + k ≤ s.bufSize.toNat := by
  rcases fetch_cases s with ⟨_, hf⟩ | ⟨_, _, _, _, hf⟩ | ⟨_, _, _, _, _, hf⟩ | ⟨c, r, _, _, hd, hf⟩
  · cases h.symm.trans hf; exact hc
  · cases h.symm.trans hf; exact hc
  · cases h.symm.trans hf
  · obtain ⟨e', off', hr⟩ := rejectRecord_eq s r
    cases (h.symm.trans hf).trans hr
    obtain ⟨hlen, hzero⟩ := decode_reject_length hd
    by_cases hslot : slotOf c s = .hufBit ∨ slotOf c s = .hufLeaf
    · rw [hzero hslot]; exact hc
    · have hw : elementBytes s (slotOf c s) = window 4 s := by
        generalize slotOf c s = slot at hslot
        cases slot <;> simp_all [elementBytes]
      rw [hw, window_length] at hlen
      omega

/-! ### What an error record is made from -/

/-- What holds of a running job at every point inside a turn: enough for the record of a failure to keep the
invariant (41_job_control.md R118, 60_exceptions.md R229). -/
structure JobBase (s : State) : Prop where
  running : s.phase = .run
  srcWf : s.srcMem.wf
  outWf : s.outMem.wf
  treeWf : s.treeMem.wf
  srcIn : ∀ c ∈ s.srcMem, c.1 < s.maxSrc.toNat
  outIn : ∀ c ∈ s.outMem, c.1 < s.outCap.toNat
  treeIn : ∀ c ∈ s.treeMem, c.1 < 512
  bufLe : s.bufSize.toNat ≤ s.maxSrc.toNat
  cursorLe : s.cursor.toNat ≤ s.bufSize.toNat
  savedLe : s.saved.toNat ≤ s.bufSize.toNat
  report : s.done = false ∧ s.err = false ∧ s.errCode = 0#4 ∧ s.errOffset = 0#32 ∧ s.outCount = 0#25
  count : s.out ≤ s.outLen.toNat
  capacity : s.outLen.toNat ≤ s.outCap.toNat

theorem Inv.output {s : State} (h : Inv s) (hrun : s.phase = .run) :
    s.out ≤ s.outLen.toNat ∧ s.outLen.toNat ≤ s.outCap.toNat := by
  by_cases hp : BeforeHeader s
  · obtain ⟨ho, hl⟩ := (h.job hrun).headerFresh hp
    simp [ho, hl]
  · obtain ⟨hl, hcap, ho⟩ := (h.job hrun).lengthHeld hp
    rw [hl]
    exact ⟨ho, hcap⟩

theorem Inv.jobBase {s : State} (h : Inv s) (hrun : s.phase = .run) : JobBase s :=
  { h with
    running := hrun
    savedLe := (h.job hrun).savedLe
    report := h.busyClear hrun
    count := (h.output hrun).1
    capacity := (h.output hrun).2 }

/-- The codes of the errors (R222). -/
theorem JobError.code_range (e : JobError) : 1 ≤ e.code.toNat ∧ e.code.toNat ≤ 10 := by
  cases e <;> decide

namespace JobBase

variable {s t : State}

/-- The invariant of a running job from its parts. -/
theorem inv (h : JobBase s) (hj : JobInv s) : Inv s := by
  obtain ⟨hdone, herr, hcode, hoff, hcount⟩ := h.report
  exact
  { h with
    oneOutcome := by simp [hdone]
    codeLegal := by simp [hcode]
    busyClear := fun _ => h.report
    errHasCode := by simp [herr]
    doneClean := by simp [hdone]
    countLe := by simp [hcount]
    job := fun _ => hj }

theorem endCursor_le (h : JobBase s) : (endCursor s).toNat ≤ s.bufSize.toNat := by
  unfold endCursor
  split
  · exact h.savedLe
  · exact h.cursorLe

/-- The record of a failure keeps the invariant (R229). -/
theorem raise_inv (h : JobBase s) (e : JobError) (off : Word) : Inv (raise e off s) := by
  obtain ⟨hdone, -, -, -, -⟩ := h.report
  have hcode := e.code_range
  exact
  { h with
    outWf := List.Pairwise.nil
    outIn := by simp
    cursorLe := h.endCursor_le
    oneOutcome := by simp [hdone]
    codeLegal := hcode.2
    busyClear := by simp
    errHasCode := fun _ h0 => by
      rw [raise_errCode] at h0
      simp [h0] at hcode
    doneClean := by simp [hdone]
    countLe := by
      rw [raise_outCount, raise_outLen, BitVec.toNat_ofNat]
      exact (Nat.mod_le ..).trans h.count
    job := by simp }

/-- A read inside the buffer. -/
theorem advance (h : JobBase s) {n : Nat} (hc : s.cursor.toNat + n ≤ s.bufSize.toNat) :
    JobBase (advance n s) :=
  { h with cursorLe := (advance_cursor_toNat hc).trans_le hc }

/-- The work of an element after the header, with a tree that is in order. -/
theorem progress (h : JobBase s) (hL : s.outLen = s.L) (hp : Progress s t) (hw : t.treeMem.wf)
    (hin : ∀ c ∈ t.treeMem, c.1 < 512) : JobBase t where
  running := hp.phase.trans h.running
  srcWf := hp.srcMem ▸ h.srcWf
  outWf := hp.out.wf h.outWf
  treeWf := hw
  srcIn := by rw [hp.srcMem, hp.maxSrc]; exact h.srcIn
  outIn c hc := by
    have hwithin := hp.within (hL ▸ h.count)
    have hcap := h.capacity
    rw [hp.outCap]
    rcases hp.out.listed c hc with hc | hc
    · exact h.outIn c hc
    · rw [hL] at hcap; omega
  treeIn := hin
  bufLe := by rw [hp.bufSize, hp.maxSrc]; exact h.bufLe
  cursorLe := hp.cursorIn h.cursorLe
  savedLe := by rw [hp.saved, hp.bufSize]; exact h.savedLe
  report := by rw [hp.done, hp.err, hp.errCode, hp.errOffset, hp.outCount]; exact h.report
  count := by rw [hp.outLen, hL]; exact hp.within (hL ▸ h.count)
  capacity := by rw [hp.outLen, hp.outCap]; exact h.capacity

end JobBase

end Sys2Proof.Machine
end

section
/-! Every turn of the block keeps the invariant: the codec check and entry form, the headers, the elements of each
body, the errors of a fetch, and the completion. -/

namespace Sys2Proof.Machine

/-- What a turn of a running block from `s` comes to when it does not complete the job: the record of a failure,
or a running job with the invariant whose output has grown in order. -/
def TurnOutcome (s t : State) : Prop :=
  (∃ s1 e off, JobBase s1 ∧ t = raise e off s1) ∨ (t.phase = .run ∧ Inv t ∧ OutGrows s t)

theorem TurnOutcome.fails {s s1 : State} {e : JobError} {off : Word} (h : JobBase s1) :
    TurnOutcome s (raise e off s1) :=
  .inl ⟨s1, e, off, h, rfl⟩

theorem TurnOutcome.inv {s t : State} (h : TurnOutcome s t) : Inv t := by
  rcases h with ⟨s1, e, off, hb, rfl⟩ | ⟨_, hi, _⟩
  · exact hb.raise_inv e off
  · exact hi

/-! ### Before the header -/

/-- What holds of a running job before its header (41_job_control.md R110 to R113): nothing is said yet of the
codecs' own state. -/
theorem JobInv.of_beforeHeader {s : State} (hp : BeforeHeader s)
    (hcodec : s.pos ≠ .entry → (Codec.ofBits s.jcodec).isSome) (hentry : s.pos = .entry → s.cursor = s.saved)
    (hsaved : s.saved.toNat ≤ s.bufSize.toNat) (hfresh : s.out = 0 ∧ s.outLen = 0#24) : JobInv s := by
  have hbody : s.pos ≠ .body := by rcases hp with hp | hp <;> simp [hp]
  have htree : s.pos ≠ .tree := by rcases hp with hp | hp <;> simp [hp]
  have hleaf : s.pos ≠ .leaf := by rcases hp with hp | hp <;> simp [hp]
  exact
    { codecLegal := hcodec
      entryFresh := hentry
      savedLe := hsaved
      headerFresh := fun _ => hfresh
      lengthHeld := fun hn => absurd hp hn
      written := fun hn => absurd hp hn
      huffPos := by simp [htree, hleaf]
      flagBits := fun hb => absurd hb hbody
      depthOk := fun hn => absurd hp hn
      treeOk := by simp [hbody, hleaf]
      bitsOk := by simp [hbody, hleaf]
      packOk := by simp [hbody, hleaf]
      symbolNeeded := by simp [hbody, hleaf]
      modeOk := fun hb => absurd hb hbody }

/-- The codec check and the entry form (41_job_control.md R111, R112). -/
theorem enterStream_outcome {s : State} (h : Inv s) (hrun : s.phase = .run) (hpos : s.pos = .entry) :
    TurnOutcome s (enterStream s) := by
  have hb := h.jobBase hrun
  have hj := h.job hrun
  have hfresh := hj.headerFresh (.inl hpos)
  have hplaced (cur : Word) (hcodec : (Codec.ofBits s.jcodec).isSome)
      (hcur : cur.toNat ≤ s.bufSize.toNat) :
      TurnOutcome s { s with cursor := cur, pos := .header } := by
    exact .inr ⟨hrun, JobBase.inv { hb with cursorLe := hcur }
      (.of_beforeHeader (.inr rfl) (fun _ => hcodec) nofun hb.savedLe hfresh), .of_eq rfl rfl rfl⟩
  rcases enterStream_cases s with ⟨_, he⟩ | ⟨hc, _, he⟩ | ⟨_, _, _, he⟩ | ⟨hc, _, hlt, he⟩ <;> rw [he]
  · exact .fails hb
  · exact hplaced s.cursor hc hb.cursorLe
  · exact .fails hb
  · exact hplaced s.offset hc hlt.le

/-! ### The headers -/

/-- A job whose header has been read, before the capacity check (41_job_control.md R114): it stands before its
tree with a legal depth, or in the body of another codec with that codec's state set up. -/
structure HeaderRead (s : State) : Prop where
  codec : (Codec.ofBits s.jcodec).isSome
  place : s.pos = .tree ∧ s.jcodec = Codec.huff.bits ∧ depthLegal s.D = true ∨
    s.pos = .body ∧ s.jcodec ≠ Codec.huff.bits
  flagBits : s.jcodec = Codec.lzss.bits ∨ s.jcodec = Codec.lzx.bits → s.fbit ≤ 8
  mode : s.jcodec = Codec.diff.bits → s.M = 1#4 ∨ s.M = 2#4

/-- The body of a Huffman job comes after its tree. -/
theorem HeaderRead.not_huffBody {s : State} (h : HeaderRead s) (hp : s.pos = .body ∨ s.pos = .leaf) :
    s.jcodec ≠ Codec.huff.bits := by
  rcases h.place with ⟨hq, _⟩ | ⟨_, hn⟩
  · simp [hq] at hp
  · exact hn

theorem HeaderRead.jobInv {s : State} (h : HeaderRead s) (hsaved : s.saved.toNat ≤ s.bufSize.toNat)
    (hlen : s.outLen = s.L) (hcap : s.L.toNat ≤ s.outCap.toNat) (hout : s.out = 0) : JobInv s where
  codecLegal _ := h.codec
  entryFresh hp := by rcases h.place with ⟨hq, _⟩ | ⟨hq, _⟩ <;> cases hp.symm.trans hq
  savedLe := hsaved
  headerFresh hp := by
    rcases h.place with ⟨hq, _⟩ | ⟨hq, _⟩ <;> rcases hp with hp | hp <;> cases hp.symm.trans hq
  lengthHeld _ := ⟨hlen, hcap, by omega⟩
  written _ i hi := by omega
  huffPos hp := by
    rcases h.place with ⟨_, hc, _⟩ | ⟨hq, _⟩
    · exact hc
    · simp [hq] at hp
  flagBits _ := h.flagBits
  depthOk _ hc := by
    rcases h.place with ⟨_, _, hd⟩ | ⟨_, hn⟩
    · exact hd
    · exact absurd hc hn
  treeOk hp hc := absurd hc (h.not_huffBody hp)
  bitsOk hp hc := absurd hc (h.not_huffBody hp)
  packOk hp hc := absurd hc (h.not_huffBody hp)
  symbolNeeded hp hc := absurd hc (h.not_huffBody hp)
  modeOk _ := h.mode

/-- The capacity check of a header that has been read (R115). -/
theorem openOutput_outcome {s s1 : State} (off : Word) (hb : JobBase s1) (h : HeaderRead s1)
    (hd : s1.outDraw = s.outDraw) (hm : s1.outMem = s.outMem) (ho : s.out = 0) :
    TurnOutcome s (openOutput off s1) := by
  rcases openOutput_cases off s1 with ⟨_, he⟩ | ⟨hcap, he⟩ <;> rw [he]
  · exact .fails hb
  · refine .inr ⟨hb.running, JobBase.inv { hb with count := Nat.zero_le _, capacity := hcap } ?_,
      .of_eq hd ho.symm hm⟩
    exact HeaderRead.jobInv { h with } hb.savedLe rfl hcap rfl

/-- The headers (42_lz.md R130, R131; 43_huffman.md R160, R161; 44_rl.md R190; 45_diff.md R200). -/
theorem exec_header_outcome {s t : State} {i : Instr} {c : Codec} (h : Inv s) (hrun : s.phase = .run)
    (hpos : s.pos = .header) (hc : Codec.ofBits s.jcodec = some c) (hi : i.slot = .hdr c)
    (hcur : s.cursor.toNat + 4 ≤ s.bufSize.toNat) (ht : exec i s = .next t) : TurnOutcome s t := by
  have hb : JobBase (advance 4 s) := (h.jobBase hrun).advance hcur
  obtain ⟨ho, -⟩ := (h.job hrun).headerFresh (.inr hpos)
  have hj := Codec.eq_bits_of_ofBits hc
  have hsome : (Codec.ofBits s.jcodec).isSome := by rw [hc]; rfl
  cases i with
  | hdrLzss len | hdrLzx len =>
    cases hi
    cases ht
    exact openOutput_outcome _ { hb with }
      { codec := hsome
        place := .inr ⟨rfl, by simp [beginLz, hj, Codec.bits]⟩
        flagBits := by simp [beginLz]
        mode := by simp [beginLz, hj, Codec.bits] } rfl rfl ho
  | hdrRl len =>
    cases hi
    cases ht
    exact openOutput_outcome _ { hb with }
      { codec := hsome
        place := .inr ⟨rfl, by simp [hj, Codec.bits]⟩
        flagBits := by simp [hj, Codec.bits]
        mode := by simp [hj, Codec.bits] } rfl rfl ho
  | hdrDiff8 len | hdrDiff16 len =>
    cases hi
    cases ht
    exact openOutput_outcome _ { hb with }
      { codec := hsome
        place := .inr ⟨rfl, by simp [beginDiff, hj, Codec.bits]⟩
        flagBits := by simp [beginDiff, hj, Codec.bits]
        mode := by simp [beginDiff] } rfl rfl ho
  | hdrHuff depth len =>
    cases hi
    cases ht
    split
    · next hd =>
      exact openOutput_outcome _ { hb with }
        { codec := hsome
          place := .inl ⟨rfl, hj, hd⟩
          flagBits := by simp [hj, Codec.bits]
          mode := by simp [hj, Codec.bits] } rfl rfl ho
    · exact .fails { hb with }
  | _ => cases hi

/-! ### The body -/

/-- The output of a job whose header is accepted, after some work (41_job_control.md R116, 20_memory.md R67). -/
theorem Progress.output {s t : State} (hp : Progress s t) (hj : JobInv s) (hafter : ¬ BeforeHeader s) :
    (t.outLen = t.L ∧ t.L.toNat ≤ t.outCap.toNat ∧ t.out ≤ t.L.toNat) ∧
      ∀ i < t.out, (t.outMem.read i).isSome := by
  obtain ⟨hlen, hcap, hle⟩ := hj.lengthHeld hafter
  rw [hp.outLen, hp.L, hp.outCap]
  refine ⟨⟨hlen, hcap, hp.within hle⟩, fun i hi => ?_⟩
  by_cases hs : i < s.out
  · rw [hp.out.kept i (.inl hs)]
    exact hj.written hafter i hs
  · exact hp.out.written i (by omega) hi

/-- In the body of another codec than Huffman, output is left to write until the job is complete (R116). -/
theorem out_lt_of_plain {s : State} (hj : JobInv s) (hpos : s.pos = .body)
    (hc : s.jcodec ≠ Codec.huff.bits) (hd : bodyDone s = false) : s.out < s.L.toNat := by
  obtain ⟨_, _, hle⟩ := hj.lengthHeld (by simp [BeforeHeader, hpos])
  have hne : s.out ≠ s.L.toNat := by
    intro he
    simp [bodyDone, hpos, hc, he] at hd
  omega

theorem BodyStep.jobInv {s t : State} (hs : BodyStep s t) (hj : JobInv s) (hpos : s.pos = .body)
    (hc : s.jcodec ≠ Codec.huff.bits) : JobInv t := by
  have hafter : ¬ BeforeHeader s := by simp [BeforeHeader, hpos]
  obtain ⟨hlen, hwritten⟩ := hs.output hj hafter
  have ht : t.pos = .body := hs.pos.trans hpos
  have htc : t.jcodec ≠ Codec.huff.bits := hs.jcodec ▸ hc
  exact
    { codecLegal := fun _ => by rw [hs.jcodec]; exact hj.codecLegal (by simp [hpos])
      entryFresh := by simp [ht]
      savedLe := by rw [hs.saved, hs.bufSize]; exact hj.savedLe
      headerFresh := by simp [BeforeHeader, ht]
      lengthHeld := fun _ => hlen
      written := fun _ => hwritten
      huffPos := by simp [ht]
      flagBits := fun _ hl => hs.flagBits (hj.flagBits hpos (hs.jcodec ▸ hl))
      depthOk := fun _ h => absurd h htc
      treeOk := fun _ h => absurd h htc
      bitsOk := fun _ h => absurd h htc
      packOk := fun _ h => absurd h htc
      symbolNeeded := fun _ h => absurd h htc
      modeOk := fun _ hd => by rw [hs.mode]; exact hj.modeOk hpos (hs.jcodec ▸ hd) }

/-- The elements of the LZ, RL and Diff bodies. -/
theorem exec_plain_outcome {s t : State} {i : Instr} (h : Inv s) (hrun : s.phase = .run)
    (hpos : s.pos = .body) (hc : s.jcodec ≠ Codec.huff.bits) (hd : bodyDone s = false)
    (hi : isPlainBody i.slot = true) (hcur : s.cursor.toNat + elementLength i.slot i ≤ s.bufSize.toNat)
    (ht : exec i s = .next t) : TurnOutcome s t := by
  have hj := h.job hrun
  obtain ⟨hlen, _, _⟩ := hj.lengthHeld (by simp [BeforeHeader, hpos])
  have base {u : State} (hu : BodyStep s u) : JobBase u :=
    (h.jobBase hrun).progress hlen hu.toProgress (hu.tree ▸ h.treeWf) (hu.tree ▸ h.treeIn)
  rcases exec_bodyStep hi hcur (out_lt_of_plain hj hpos hc hd) ht with hs | ⟨s1, e, off, hs, rfl⟩
  · exact .inr ⟨hs.phase.trans hrun, (base hs).inv (hs.jobInv hj hpos hc), hs.out⟩
  · exact .fails (base hs)

/-! ### Huffman -/

/-- The traversal and the packing of a Huffman body (43_huffman.md R163 to R169). -/
structure HuffBody (s : State) : Prop where
  tree : 2 ≤ s.TS ∧ s.TS ≤ 512 ∧ 1 ≤ s.a ∧ s.a < s.TS ∧ ∀ i < s.TS, (s.treeMem.read i).isSome
  bits : s.bitsLeft + s.steps ≤ 32
  pack : s.nsym < symbolsPerByte s.D
  needed : s.pos = .leaf ∨ 0 < s.steps ∨ 0 < s.nsym → s.out < s.L.toNat

theorem JobInv.huffBody {s : State} (h : JobInv s) (hpos : s.pos = .body ∨ s.pos = .leaf)
    (hc : s.jcodec = Codec.huff.bits) : HuffBody s :=
  ⟨h.treeOk hpos hc, h.bitsOk hpos hc, h.packOk hpos hc, h.symbolNeeded hpos hc⟩

/-- Work of a Huffman job that leads to its body with the tree loaded. -/
theorem huff_outcome {s t : State} (h : Inv s) (hrun : s.phase = .run) (hafter : ¬ BeforeHeader s)
    (hc : s.jcodec = Codec.huff.bits) (hp : Progress s t) (hD : t.D = s.D)
    (hw : t.treeMem.wf) (hin : ∀ c ∈ t.treeMem, c.1 < 512) (hpos : t.pos = .body ∨ t.pos = .leaf)
    (hb : HuffBody t) : TurnOutcome s t := by
  have hj := h.job hrun
  obtain ⟨hlen, hwritten⟩ := hp.output hj hafter
  have htc : t.jcodec = Codec.huff.bits := hp.jcodec.trans hc
  refine .inr ⟨hp.phase.trans hrun,
    ((h.jobBase hrun).progress (hj.lengthHeld hafter).1 hp hw hin).inv ?_, hp.out⟩
  exact
    { codecLegal := fun _ => by rw [htc]; rfl
      entryFresh := by rcases hpos with hq | hq <;> simp [hq]
      savedLe := by rw [hp.saved, hp.bufSize]; exact hj.savedLe
      headerFresh := by rcases hpos with hq | hq <;> simp [BeforeHeader, hq]
      lengthHeld := fun _ => hlen
      written := fun _ => hwritten
      huffPos := fun _ => htc
      flagBits := by simp [htc, Codec.bits]
      depthOk := fun _ _ => by rw [hD]; exact hj.depthOk hafter hc
      treeOk := fun _ _ => hb.tree
      bitsOk := fun _ _ => hb.bits
      packOk := fun _ _ => hb.pack
      symbolNeeded := fun _ _ => hb.needed
      modeOk := by simp [htc, Codec.bits] }

/-- A tree of which the size byte and the bytes after it are loaded has all its bytes (R163). -/
theorem loadedTree_isSome (m : Memory) (n : Byte) (bs : List Byte) (i : Nat) (h : i < 1 + bs.length) :
    (((m.write 0 n).writeList 1 bs).read i).isSome := by
  rw [Memory.read_writeList, Memory.read_write]
  by_cases hi : i = 0
  · simp [hi]
  · rw [if_pos (by omega), List.getElem?_eq_getElem (by omega)]
    rfl

theorem loadedTree_in {m : Memory} (n : Byte) {bs : List Byte} (h : ∀ c ∈ m, c.1 < 512)
    (hl : 1 + bs.length ≤ 512) : ∀ c ∈ (m.write 0 n).writeList 1 bs, c.1 < 512 := by
  intro c hc
  rcases Memory.mem_writeList hc with hc | ⟨_, hc⟩
  · rcases Memory.mem_write hc with rfl | hc
    · exact Nat.zero_lt_succ _
    · exact h c hc
  · omega

/-- A legal depth packs at least one symbol to a byte (R161, R162). -/
theorem symbolsPerByte_pos {D : BitVec 4} (h : depthLegal D = true) : 0 < symbolsPerByte D := by
  rcases (depthLegal_iff D).mp h with rfl | rfl | rfl | rfl <;> decide

/-- The tree load (R163). -/
theorem exec_huffTree_outcome {s t : State} {n : Byte} (h : Inv s) (hrun : s.phase = .run)
    (hpos : s.pos = .tree) (hcur : s.cursor.toNat + 1 ≤ s.bufSize.toNat)
    (ht : exec (.huffTree n) s = .next t) : TurnOutcome s t := by
  have hj := h.job hrun
  have hafter : ¬ BeforeHeader s := by simp [BeforeHeader, hpos]
  have hc := hj.huffPos (.inl hpos)
  obtain ⟨hlo, hhi⟩ := treeSize_bounds n
  obtain ⟨u, hu, ⟨hb, he⟩ | ⟨_, he⟩⟩ := execHuffTree_cases n s <;> cases hu.symm.trans ht <;> rw [he]
  · have hlen : 1 + (srcBytes s (advance 1 s).cursor.toNat (treeSize n - 1)).length = treeSize n := by
      rw [srcBytes_length]; omega
    have hread : Progress s (advance (treeSize n - 1) (advance 1 s)) :=
      ((BodyStep.advance hcur).trans (.advance hb)).toProgress
    refine huff_outcome h hrun hafter hc
      (hread.trans (.of_quiet (by simp [beyondElement, beyondBlock]) rfl rfl rfl id)) rfl
      (Memory.writeList_wf _ _ (Memory.write_wf _ _ h.treeWf))
      (loadedTree_in n h.treeIn (by omega)) (.inl rfl) ?_
    exact
      { tree := ⟨hlo, hhi, Nat.le_refl 1, hlo, fun i hi => loadedTree_isSome _ _ _ i (hi.trans_eq hlen.symm)⟩
        bits := by simp [restart]
        pack := symbolsPerByte_pos (hj.depthOk hafter hc)
        needed := by simp [restart] }
  · have hb : JobBase (advance 1 s) := (h.jobBase hrun).advance hcur
    refine .fails { hb with treeWf := Memory.write_wf _ _ h.treeWf, treeIn := ?_ }
    intro c hc
    rcases Memory.mem_write hc with rfl | hc
    · exact Nat.zero_lt_succ _
    · exact h.treeIn c hc

/-- A path-word load (R164). -/
theorem exec_huffPath_outcome {s t : State} {p : Word} (h : Inv s) (hrun : s.phase = .run)
    (hpos : s.pos = .body) (hc : s.jcodec = Codec.huff.bits)
    (hcur : s.cursor.toNat + 4 ≤ s.bufSize.toNat) (ht : exec (.huffPath p) s = .next t) :
    TurnOutcome s t := by
  have hafter : ¬ BeforeHeader s := by simp [BeforeHeader, hpos]
  have hb := (h.job hrun).huffBody (.inl hpos) hc
  cases ht
  split
  · exact .fails (h.jobBase hrun)
  · next hsteps =>
    have hzero : s.steps = 0 := by simpa using hsteps
    refine huff_outcome h hrun hafter hc
      ((BodyStep.advance hcur).toProgress.trans (.of_quiet rfl rfl rfl rfl id)) rfl h.treeWf h.treeIn
      (.inl hpos) { hb with bits := ?_ }
    show 32 + s.steps ≤ 32
    omega

/-- A path bit (R165, R166): output is left, since a symbol has begun or the job would be complete. -/
theorem traverse_outcome {s : State} (right : Bool) (h : Inv s) (hrun : s.phase = .run)
    (hpos : s.pos = .body) (hc : s.jcodec = Codec.huff.bits) (hd : bodyDone s = false)
    (hleft : s.bitsLeft ≠ 0) : TurnOutcome s (traverse right s) := by
  have hj := h.job hrun
  have hafter : ¬ BeforeHeader s := by simp [BeforeHeader, hpos]
  have hb := hj.huffBody (.inl hpos) hc
  have hout : s.out < s.L.toNat := by
    by_cases hsteps : s.steps = 0
    · obtain ⟨_, _, hle⟩ := hj.lengthHeld hafter
      have hne : s.out ≠ s.L.toNat := fun he => by simp [bodyDone, hpos, he, hsteps] at hd
      omega
    · exact hb.needed (.inr (.inl (Nat.pos_of_ne_zero hsteps)))
  obtain ⟨hlo, hhi, _, _, hloaded⟩ := hb.tree
  rcases traverse_cases right s with ⟨_, he⟩ | ⟨hlt, he⟩ <;> rw [he]
  · exact .fails { h.jobBase hrun with }
  · refine huff_outcome h hrun hafter hc (.of_quiet rfl rfl rfl rfl id) rfl h.treeWf h.treeIn ?_ ?_
    · cases leafFlag (treeByte s s.a) right <;> simp
    · exact
        { tree := ⟨hlo, hhi, by simp only [childAddr]; omega, hlt, hloaded⟩
          bits := by
            have := hb.bits
            show s.bitsLeft - 1 + (s.steps + 1) ≤ 32
            omega
          pack := hb.pack
          needed := fun _ => hout }

/-- Packing a symbol while output is left, and the body it restarts in (R167, R168). -/
theorem packSymbol_outcome {s : State} (sym : Byte) (h : Inv s) (hrun : s.phase = .run)
    (hpos : s.pos = .leaf) : TurnOutcome s (restart (packSymbol sym s)) := by
  have hj := h.job hrun
  have hafter : ¬ BeforeHeader s := by simp [BeforeHeader, hpos]
  have hc := hj.huffPos (.inr hpos)
  have hb := hj.huffBody (.inr hpos) hc
  have hout := hb.needed (.inl hpos)
  obtain ⟨hlo, hhi, _, _, hloaded⟩ := hb.tree
  have hbits : s.bitsLeft + 0 ≤ 32 := (Nat.le_add_right _ s.steps).trans hb.bits
  rcases packSymbol_cases sym s with ⟨_, he⟩ | ⟨hne, he⟩ <;> rw [he]
  · refine huff_outcome h hrun hafter hc
      ((BodyStep.emit _ hout).toProgress.trans (.of_quiet rfl rfl rfl rfl id)) rfl h.treeWf h.treeIn
      (.inl rfl) ⟨⟨hlo, hhi, Nat.le_refl 1, hlo, hloaded⟩, hbits, ?_, by simp [restart]⟩
    exact symbolsPerByte_pos (hj.depthOk hafter hc)
  · refine huff_outcome h hrun hafter hc (.of_quiet rfl rfl rfl rfl id) rfl h.treeWf h.treeIn
      (.inl rfl) ⟨⟨hlo, hhi, Nat.le_refl 1, hlo, hloaded⟩, hbits, ?_, fun _ => hout⟩
    exact lt_of_le_of_ne hb.pack hne

/-! ### A turn -/

/-- An element that a fetch found (30_encoding.md R104). -/
theorem exec_outcome {s t : State} {i : Instr} (h : Inv s) (hrun : s.phase = .run)
    (hpos : s.pos ≠ .entry) (hd : bodyDone s = false) (hf : fetch s = .element i)
    (ht : exec i s = .next t) : TurnOutcome s t := by
  obtain ⟨c, hc, hslot, -, -, -, hcur⟩ := fetch_element hf
  have hj := Codec.eq_bits_of_ofBits hc
  rw [← hslot] at hcur
  rcases slotOf_cases c s with ⟨hp, hs⟩ | ⟨hp, hs⟩ | ⟨hp, hs⟩ | ⟨hp, rfl, _, hs⟩ | ⟨hp, rfl, hb, hs⟩ |
    ⟨hp, hne, hs⟩
  · rw [← hslot] at hs
    rw [hs] at hcur
    exact exec_header_outcome h hrun (hp.resolve_left hpos) hc hs (hcur (by simp) (by simp)) ht
  · rw [← hslot] at hs
    cases i with
    | huffTree n => exact exec_huffTree_outcome h hrun hp (hcur (by simp [hs]) (by simp [hs])) ht
    | _ => cases hs
  · rw [← hslot] at hs
    cases i with
    | huffLeaf b => cases ht; exact packSymbol_outcome _ h hrun hp
    | _ => cases hs
  · rw [← hslot] at hs
    cases i with
    | huffPath p => exact exec_huffPath_outcome h hrun hp hj (hcur (by simp [hs]) (by simp [hs])) ht
    | _ => cases hs
  · rw [← hslot] at hs
    cases i with
    | huffLeft => cases ht; exact traverse_outcome false h hrun hp hj hd hb
    | huffRight => cases ht; exact traverse_outcome true h hrun hp hj hd hb
    | _ => cases hs
  · rw [← hslot] at hs
    have hhuff : s.jcodec ≠ Codec.huff.bits := by rw [hj]; cases c <;> simp_all [Codec.bits]
    exact exec_plain_outcome h hrun hp hhuff hd hs
      (hcur (fun he => by simp [he, isPlainBody] at hs) (fun he => by simp [he, isPlainBody] at hs)) ht

/-- A turn of a running block completes the job, or has an outcome. -/
theorem blockStep_outcome {s t : State} (h : Inv s) (hrun : s.phase = .run)
    (ht : blockStep s = .next t) : (bodyDone s = true ∧ t = finish s) ∨ TurnOutcome s t := by
  rcases blockStep_run_cases hrun with ⟨hp, hb⟩ | ⟨_, hd, hb⟩ | ⟨i, hp, hd, hf, hb⟩ |
    ⟨e, off, k, _, _, hf, hb⟩
  · cases hb.symm.trans ht; exact .inr (enterStream_outcome h hrun hp)
  · cases hb.symm.trans ht; exact .inl ⟨hd, rfl⟩
  · exact .inr (exec_outcome h hrun hp hd hf (hb.symm.trans ht))
  · cases hb.symm.trans ht
    exact .inr (.fails ((h.jobBase hrun).advance (fetch_failed_cursor hf h.cursorLe)))

/-- The completion of a success keeps the invariant (41_job_control.md R118). -/
theorem finish_inv {s : State} (h : Inv s) (hrun : s.phase = .run) (hd : bodyDone s = true) :
    Inv (finish s) := by
  obtain ⟨-, herr, hcode, hoff, -⟩ := h.busyClear hrun
  obtain ⟨hlen, -, -⟩ := (h.job hrun).lengthHeld (by simp [BeforeHeader, bodyDone_pos hd])
  have hcount : (s.L.setWidth 25).toNat = s.outLen.toNat := by
    rw [hlen, BitVec.toNat_setWidth_of_le (by decide)]
  exact
  { h with
    cursorLe := (h.jobBase hrun).endCursor_le
    oneOutcome := by simp [herr]
    busyClear := by simp
    errHasCode := by simp [herr]
    doneClean := fun _ => ⟨hcode, hoff, hcount⟩
    countLe := hcount.le
    job := by simp }

/-- A turn of the block keeps the invariant. -/
theorem blockStep_inv {s t : State} (h : Inv s) (ht : blockStep s = .next t) : Inv t := by
  cases hp : s.phase with
  | idle => cases (blockStep_idle hp).symm.trans ht; exact h
  | run =>
    rcases blockStep_outcome h hp ht with ⟨hd, rfl⟩ | ho
    · exact finish_inv h hp hd
    · exact ho.inv

end Sys2Proof.Machine
end

section
/-! The host's operations: what each can do, and that each keeps the invariant. -/

namespace Sys2Proof.Machine

/-! ### What an operation can do -/

theorem busy_of_run {s : State} (h : s.phase = .run) : s.busy = true := by simp [State.busy, h]

theorem busy_of_idle {s : State} (h : s.phase = .idle) : s.busy = false := by simp [State.busy, h]

theorem regAccessLegal_iff (off bits : Nat) : regAccessLegal off bits = true ↔ bits = 32 ∧ off % 4 = 0 := by
  simp [regAccessLegal]

theorem Reg.ofAddr_addr (r : Reg) : Reg.ofAddr r.addr = some r := by cases r <;> rfl

theorem Reg.addr_aligned (r : Reg) : r.addr % 4 = 0 := by cases r <;> rfl

/-- The offsets past the last register are reserved (10_state.md R21, R32). -/
theorem Reg.ofAddr_reserved {off : Nat} (h : 0x2C ≤ off) : Reg.ofAddr off = none := by
  unfold Reg.ofAddr
  iterate 11 rw [if_neg (by omega)]

/-- A CTRL value with START = 0 is no command (30_encoding.md R81). -/
theorem decodeCmd_notStart {v : Word} (h : v.getLsbD 0 = false) : decodeCmd v = .error .notStart := by
  unfold decodeCmd
  rw [h]
  rfl

/-- A CTRL value with START = 1 is a command (R81). -/
theorem decodeCmd_start {v : Word} (h : v.getLsbD 0 = true) :
    ∃ i codec e ie, decodeCmd v = .ok i ∧ commandFields i = some (codec, e, ie) := by
  unfold decodeCmd
  rw [if_pos h]
  dsimp only
  split
  case h_6 =>
    split_ifs <;> exact ⟨_, _, _, _, rfl, rfl⟩
  all_goals exact ⟨_, _, _, _, rfl, rfl⟩

/-- What an aligned 32-bit write of the register space can do: nothing at a reserved offset, a START, or the
write of a register, which a busy block ignores (R32, R42, R81). -/
theorem hostRegWrite_cases {off : Nat} (v : Word) (s : State) (hoff : off % 4 = 0) :
    (Reg.ofAddr off = none ∧ hostRegWrite off 32 v s = .next s) ∨
    (∃ codec e ie, Reg.ofAddr off = some .ctrl ∧ v.getLsbD 0 = true ∧
      hostRegWrite off 32 v s = .next (startJob codec e ie s)) ∨
    (∃ r, Reg.ofAddr off = some r ∧ (r = .ctrl → v.getLsbD 0 = false) ∧
      hostRegWrite off 32 v s = .next (if s.busy then s else writeReg r v s)) := by
  unfold hostRegWrite
  rw [if_pos ((regAccessLegal_iff off 32).mpr ⟨rfl, hoff⟩)]
  cases hr : Reg.ofAddr off with
  | none => exact .inl ⟨rfl, rfl⟩
  | some r =>
    cases r with
    | ctrl =>
      cases hv : v.getLsbD 0 with
      | true =>
        obtain ⟨i, codec, e, ie, hd, hf⟩ := decodeCmd_start hv
        exact .inr (.inl ⟨codec, e, ie, rfl, rfl, by simp only [hd, exec_command hf]⟩)
      | false => exact .inr (.inr ⟨.ctrl, rfl, fun _ => rfl, by simp only [decodeCmd_notStart hv]⟩)
    | _ => exact .inr (.inr ⟨_, rfl, nofun, rfl⟩)

/-- An aligned 32-bit read of a reserved offset (R32). -/
theorem hostRegRead_reserved {off : Nat} (s : State) (hoff : off % 4 = 0) (hr : Reg.ofAddr off = none) :
    hostRegRead off 32 s = .next { s with rdata := 0#32 } := by
  unfold hostRegRead
  rw [if_pos ((regAccessLegal_iff off 32).mpr ⟨rfl, hoff⟩), hr]

/-- An aligned 32-bit read of a register (R43). -/
theorem hostRegRead_register {off : Nat} {r : Reg} (s : State) (hoff : off % 4 = 0)
    (hr : Reg.ofAddr off = some r) : hostRegRead off 32 s = .next (readReg s r) := by
  unfold hostRegRead
  rw [if_pos ((regAccessLegal_iff off 32).mpr ⟨rfl, hoff⟩), hr]

/-- A register read changes the data returned and the count of free values only (R43, 20_memory.md R70). -/
theorem readReg_eq (s : State) (r : Reg) :
    readReg s r = { s with rdata := (readReg s r).rdata, freeCtr := (readReg s r).freeCtr } := by
  unfold readReg
  cases s.busy <;> cases r <;> rfl

/-! ### The invariant -/

/-- The invariant says nothing of the schedule and of what the host has read. -/
theorem Inv.hostSide {s : State} (h : Inv s) (turns : List Turn) (rdata : Word) (freeCtr : Nat) :
    Inv { s with turns := turns, rdata := rdata, freeCtr := freeCtr } :=
  { h with job := fun hrun => { h.job hrun with } }

theorem Inv.takeTurn {s : State} (h : Inv s) (rest : List Turn) : Inv (takeTurn rest s) :=
  h.hostSide rest s.rdata s.freeCtr

theorem Inv.readReg {s : State} (h : Inv s) (r : Reg) : Inv (readReg s r) := by
  rw [readReg_eq]
  exact h.hostSide s.turns _ _

/-- An accepted START keeps the invariant (41_job_control.md R110). -/
theorem Inv.startJob {s : State} (h : Inv s) (codec : BitVec 3) (e ie : Bool) :
    Inv (startJob codec e ie s) := by
  rcases startJob_cases codec e ie s with ⟨_, he⟩ | ⟨_, he⟩ <;> rw [he]
  · exact h
  · exact
    { h with
      oneOutcome := by simp
      codeLegal := by simp
      busyClear := fun _ => ⟨rfl, rfl, rfl, rfl, rfl⟩
      errHasCode := by simp
      doneClean := by simp
      countLe := by simp
      job := fun _ => .of_beforeHeader (.inl rfl) (absurd rfl) (fun _ => rfl) h.cursorLe ⟨rfl, rfl⟩ }

/-- A write of a register of an idle block keeps the invariant (R22 to R27). -/
theorem Inv.writeReg {s : State} (h : Inv s) (hidle : s.phase = .idle) (r : Reg) (v : Word) :
    Inv (writeReg r v s) := by
  have hrun : ¬ s.phase = .run := by simp [hidle]
  cases r with
  | ctrl | offset | bufCfg => exact { h with job := fun hr => absurd hr hrun }
  | outLen | outCount | errOffset | outCapR | maxSrcR => exact h
  | status =>
    exact
    { h with
      oneOutcome := fun hb => h.oneOutcome (by simp_all [Machine.writeReg, writeStatus])
      busyClear := fun hr => absurd hr hrun
      errHasCode := fun he => h.errHasCode (by simp_all [Machine.writeReg, writeStatus])
      doneClean := fun hd => h.doneClean (by simp_all [Machine.writeReg, writeStatus])
      job := fun hr => absurd hr hrun }
  | bufSize =>
    refine
    { h with
      bufLe := ?_
      cursorLe := Nat.zero_le _
      job := fun hr => absurd hr hrun }
    simp only [Machine.writeReg, writeBufSize]
    split
    · next hv => exact hv
    · exact Nat.le_refl _
  | cursor =>
    simp only [Machine.writeReg, writeCursor]
    split
    · next hv => exact { h with cursorLe := hv.le, job := fun hr => absurd hr hrun }
    · exact { h with job := fun hr => absurd hr hrun }

/-- Reset leads to the invariant (70_reset_and_hazards.md R250). -/
theorem resetNow_inv (s : State) : Inv (resetNow s) where
  srcWf := List.Pairwise.nil
  outWf := List.Pairwise.nil
  treeWf := List.Pairwise.nil
  srcIn := by simp [resetNow, State.resetWith]
  outIn := by simp [resetNow, State.resetWith]
  treeIn := by simp [resetNow, State.resetWith]
  bufLe := Nat.zero_le _
  cursorLe := Nat.zero_le _
  oneOutcome := by simp [resetNow, State.resetWith]
  codeLegal := Nat.zero_le _
  busyClear := by simp [resetNow, State.resetWith]
  errHasCode := by simp [resetNow, State.resetWith]
  doneClean := by simp [resetNow, State.resetWith]
  countLe := Nat.zero_le _
  job := by simp [resetNow, State.resetWith]

/-- An operation of the host keeps the invariant. -/
theorem hostStep_inv {op : HostOp} {s t : State} (h : Inv s) (ht : hostStep op s = .next t) : Inv t := by
  cases op with
  | regRead off bits =>
    by_cases hl : regAccessLegal off bits = true
    · obtain ⟨rfl, hoff⟩ := (regAccessLegal_iff off bits).mp hl
      cases hr : Reg.ofAddr off with
      | none => cases (hostRegRead_reserved s hoff hr).symm.trans ht; exact h.hostSide s.turns _ s.freeCtr
      | some r => cases (hostRegRead_register s hoff hr).symm.trans ht; exact h.readReg r
    · simp [hostStep, hostRegRead, hl] at ht
  | regWrite off bits v =>
    by_cases hl : regAccessLegal off bits = true
    · obtain ⟨rfl, hoff⟩ := (regAccessLegal_iff off bits).mp hl
      rcases hostRegWrite_cases v s hoff with ⟨_, hw⟩ | ⟨codec, e, ie, _, _, hw⟩ | ⟨r, _, _, hw⟩ <;>
        cases hw.symm.trans ht
      · exact h
      · exact h.startJob codec e ie
      · cases hp : s.phase with
        | run => rw [busy_of_run hp]; exact h
        | idle => rw [busy_of_idle hp]; exact h.writeReg hp r v
    · simp [hostStep, hostRegWrite, hl] at ht
  | srcRead i =>
    simp only [hostStep] at ht
    split_ifs at ht <;> cases ht
    · exact h.hostSide s.turns _ _
    · exact h.hostSide s.turns _ s.freeCtr
  | outRead i =>
    simp only [hostStep] at ht
    split_ifs at ht <;> cases ht
    · exact h.hostSide s.turns _ _
    · exact h.hostSide s.turns _ s.freeCtr
  | srcWrite i b =>
    simp only [hostStep] at ht
    split_ifs at ht with hi hbusy
    cases ht
    refine
      { h with
        srcWf := Memory.write_wf _ _ h.srcWf
        srcIn := ?_
        job := fun hr => absurd (busy_of_run hr) hbusy }
    intro c hc
    rcases Memory.mem_write hc with rfl | hc
    · exact hi
    · exact h.srcIn c hc
  | reset => cases ht; exact resetNow_inv s

/-! ### The statements about every step -/

/-- Settles O49: a step is a turn of the block (`blockStep_inv`) or an operation of the host
(`hostStep_inv`), each from the state with the turn taken. -/
theorem everyStepKeepsInvariant : Obligations.EveryStepKeepsInvariant := by
  intro s t h hstep
  rcases step_cases s with ⟨rest, _, he⟩ | ⟨op, rest, _, he⟩
  · exact blockStep_inv (h.takeTurn rest) (he.symm.trans hstep)
  · exact hostStep_inv (h.takeTurn rest) (he.symm.trans hstep)

/-- A turn that ends a job sets DONE or ERR. -/
theorem blockStep_ends {s t : State} (h : Inv s) (hrun : s.phase = .run) (ht : blockStep s = .next t)
    (hidle : t.phase = .idle) : t.done = true ∨ t.err = true := by
  rcases blockStep_outcome h hrun ht with ⟨_, rfl⟩ | ⟨s1, e, off, _, rfl⟩ | ⟨hgoes, _, _⟩
  · exact .inl rfl
  · exact .inr rfl
  · cases hidle.symm.trans hgoes

/-- Settles O43: the turn sets DONE or ERR (`blockStep_ends`), and the invariant of the state it leads to gives
the rest of the record. -/
theorem jobEndsWithOneOutcome : Obligations.JobEndsWithOneOutcome := by
  intro s t rest h hturn hrun hstep hidle
  have hb := (step_blockTurn hturn).symm.trans hstep
  have ht : Inv t := blockStep_inv (h.takeTurn rest) hb
  rcases blockStep_ends (h.takeTurn rest) hrun hb hidle with hdone | herr
  · obtain ⟨hcode, hoff, hcount⟩ := ht.doneClean hdone
    exact .inl ⟨hdone, by simpa [hdone] using ht.oneOutcome, hcode, hoff, hcount⟩
  · have hcode : t.errCode.toNat ≠ 0 := fun h0 => ht.errHasCode herr (BitVec.eq_of_toNat_eq h0)
    exact .inr ⟨by simpa [herr] using ht.oneOutcome, herr, Nat.pos_of_ne_zero hcode, ht.codeLegal, ht.countLe⟩

/-- The output index of a running job is within the declared length (41_job_control.md R116). -/
theorem Inv.out_le_L {s : State} (h : Inv s) (hrun : s.phase = .run) : s.out ≤ s.L.toNat := by
  by_cases hp : BeforeHeader s
  · rw [((h.job hrun).headerFresh hp).1]
    exact Nat.zero_le _
  · exact ((h.job hrun).lengthHeld hp).2.2

/-- Settles O46: a turn without an error completes the job, which leaves OUT as it is, or goes on with output
grown in order (`OutGrows`). -/
theorem outputGrowsInOrder : Obligations.OutputGrowsInOrder := by
  intro s t rest h hturn hrun hstep herr
  have hb := (step_blockTurn hturn).symm.trans hstep
  have hinst : t.inst = s.inst := (congrArg State.inst (blockStep_beyondBlock hb) :)
  have hs := h.takeTurn rest
  rcases blockStep_outcome hs hrun hb with ⟨hd, rfl⟩ | ⟨s1, e, off, _, rfl⟩ | ⟨hgoes, ht, hgrow⟩
  · exact ⟨fun _ _ => rfl, Nat.le_refl _, hs.out_le_L hrun, fun i h1 h2 => absurd h2 (Nat.not_lt.mpr h1)⟩
  · cases herr
  · exact ⟨fun i hi => hgrow.outRead_eq hinst hi, hgrow.mono, ht.out_le_L hgoes, hgrow.written⟩

end Sys2Proof.Machine
end

section
/-! The host's statements: register accesses, the interrupt, and the bytes of SRC and OUT. -/

namespace Sys2Proof.Machine

/-! ### Accesses -/

/-- A write of the register space is a turn of the host. -/
theorem step_regWrite {s : State} {rest : List Turn} {off bits : Nat} {v : Word}
    (h : HostTurn s (.regWrite off bits v) rest) : step s = hostRegWrite off bits v (takeTurn rest s) :=
  step_hostTurn h

/-- A read of the register space is a turn of the host. -/
theorem step_regRead {s : State} {rest : List Turn} {off bits : Nat}
    (h : HostTurn s (.regRead off bits) rest) : step s = hostRegRead off bits (takeTurn rest s) :=
  step_hostTurn h

/-- Settles O52: a reserved offset ignores the write, a START of a busy block changes nothing, and so does the
write of a register. -/
theorem writeWhileBusyIgnored : Obligations.WriteWhileBusyIgnored := by
  intro s rest off v hturn hrun hoff
  have hbusy : (takeTurn rest s).busy = true := busy_of_run hrun
  rw [step_regWrite hturn]
  rcases hostRegWrite_cases v (takeTurn rest s) hoff with ⟨_, hw⟩ | ⟨codec, e, ie, _, _, hw⟩ | ⟨r, _, _, hw⟩
  · exact hw
  · rw [hw, startJob, if_pos hbusy]
  · rw [hw, if_pos hbusy]

/-- Settles O53: both accesses test the width and the alignment first. -/
theorem otherRegisterAccessRefused : Obligations.OtherRegisterAccessRefused := by
  intro s rest off bits v hbad
  have hl : ¬ regAccessLegal off bits = true := by
    rw [regAccessLegal_iff]
    omega
  refine ⟨fun hturn => ?_, fun hturn => ?_⟩
  · rw [step_regRead hturn, hostRegRead, if_neg hl]
  · rw [step_regWrite hturn, hostRegWrite, if_neg hl]

/-- Settles O54: no register stands at or past 0x2C. -/
theorem reservedOffsetReadsZero : Obligations.ReservedOffsetReadsZero := by
  intro s rest off v hoff hpast
  have hr := Reg.ofAddr_reserved hpast
  refine ⟨fun hturn => ?_, fun hturn => ?_⟩
  · rw [step_regWrite hturn]
    rcases hostRegWrite_cases v (takeTurn rest s) hoff with ⟨_, hw⟩ | ⟨_, _, _, hc, _⟩ | ⟨_, hc, _⟩
    · exact hw
    · cases hr.symm.trans hc
    · cases hr.symm.trans hc
  · rw [step_regRead hturn, hostRegRead_reserved _ hoff hr]

/-! ### Reads -/

@[simp] theorem regValue_takeTurn (rest : List Turn) (s : State) (r : Reg) :
    regValue (takeTurn rest s) r = regValue s r := by
  cases r <;> rfl

/-- A read returns the register's value, but for the three registers that a busy block hides (10_state.md R43). -/
theorem readReg_rdata {s : State} {r : Reg}
    (h : s.phase = .idle ∨ r ≠ .cursor ∧ r ≠ .outLen ∧ r ≠ .outCount) :
    (readReg s r).rdata = regValue s r := by
  unfold readReg
  rcases h with hidle | ⟨hcur, hlen, hcount⟩
  · rw [busy_of_idle hidle]
  · cases s.busy with
    | false => rfl
    | true =>
      cases r with
      | cursor => exact absurd rfl hcur
      | outLen => exact absurd rfl hlen
      | outCount => exact absurd rfl hcount
      | _ => rfl

/-- A field of `n` bits read as a word is below `2 ^ n`. -/
theorem field_setWidth_lt (v : Word) {n : Nat} (hn : n ≤ 32) :
    ((v.extractLsb' 0 n).setWidth 32).toNat < 2 ^ n := by
  rw [BitVec.toNat_setWidth_of_le hn]
  exact (v.extractLsb' 0 n).isLt

/-- Settles O56: the read changes the host's side only (`readReg_eq`), and what it returns is `readReg_rdata` or
a free value of its width. -/
theorem registerReadHasNoSideEffect : Obligations.RegisterReadHasNoSideEffect := by
  intro s rest r hturn
  refine ⟨readReg (takeTurn rest s) r, ?_, fun h => ?_, fun hrun hr => ?_, fun hrun hr => ?_, readReg_eq _ r⟩
  · rw [step_regRead hturn, hostRegRead_register _ r.addr_aligned r.ofAddr_addr]
  · exact (readReg_rdata (s := takeTurn rest s) h).trans (regValue_takeTurn rest s r)
  · subst hr
    simp only [readReg, busy_of_run (s := takeTurn rest s) hrun, freeRead]
    exact field_setWidth_lt _ (by decide)
  · subst hr
    simp only [readReg, busy_of_run (s := takeTurn rest s) hrun, freeRead]
    exact field_setWidth_lt _ (by decide)

/-! ### Writes -/

/-- A write of a register of an idle block, START apart, is `writeReg`. -/
theorem step_writeReg {s : State} {rest : List Turn} {r : Reg} {v : Word}
    (hturn : HostTurn s (.regWrite r.addr 32 v) rest) (hidle : s.phase = .idle)
    (hstart : r = .ctrl → v.getLsbD 0 = false) : step s = .next (writeReg r v (takeTurn rest s)) := by
  rw [step_regWrite hturn]
  rcases hostRegWrite_cases v (takeTurn rest s) r.addr_aligned with ⟨hr, _⟩ | ⟨_, _, _, hr, hv, _⟩ |
    ⟨q, hq, _, hw⟩
  · cases r.ofAddr_addr.symm.trans hr
  · cases r.ofAddr_addr.symm.trans hr
    cases (hstart rfl).symm.trans hv
  · cases r.ofAddr_addr.symm.trans hq
    rw [hw, busy_of_idle (s := takeTurn rest s) hidle]
    rfl

/-- A bit of a word as arithmetic. -/
theorem getLsbD_toNat {w : Nat} (v : BitVec w) (i : Nat) : (v.getLsbD i).toNat = v.toNat / 2 ^ i % 2 := by
  rw [BitVec.getLsbD, Nat.toNat_testBit]

/-- CTRL reads back the low six bits written, of which START is 0 (R22). -/
theorem ctrlWord_writeCtrl {v : Word} (s : State) (h : v.getLsbD 0 = false) :
    (ctrlWord (writeCtrl v s)).toNat = v.toNat % 64 := by
  have h0 := getLsbD_toNat v 0
  rw [h, Bool.toNat_false, Nat.pow_zero, Nat.div_one] at h0
  rw [ctrlWord_toNat]
  simp only [writeCtrl, getLsbD_toNat, field_toNat]
  omega

/-- Bits 3:1 of a number. -/
theorem and_fourteen (n : Nat) : n &&& 14 = n % 16 - n % 2 := by
  have hmod : (n &&& 14) % 2 ^ 4 = n % 2 ^ 4 &&& 14 % 2 ^ 4 := Nat.and_mod_two_pow
  have hle : n &&& 14 ≤ 14 := Nat.and_le_right
  have hsmall : ∀ k < 16, k &&& 14 = k - k % 2 := by decide
  have := hsmall (n % 16) (Nat.mod_lt _ (by decide))
  simp only [Nat.reducePow, Nat.reduceMod] at hmod
  omega

/-- The three W1C bits of STATUS in a word (R23). -/
theorem w1c_toNat (x : Word) :
    (x &&& 0xE#32).toNat =
      (x.getLsbD 3).toNat * 2 ^ 3 + ((x.getLsbD 2).toNat * 2 ^ 2 + (x.getLsbD 1).toNat * 2) := by
  rw [BitVec.toNat_and, show (0xE#32).toNat = 14 from rfl, and_fourteen, getLsbD_toNat, getLsbD_toNat,
    getLsbD_toNat]
  omega

theorem bool_eq_of_toNat_eq : ∀ {a b : Bool}, a.toNat = b.toNat → a = b := by decide

/-- The W1C bits of STATUS where they stand (R23). -/
theorem statusWord_w1c (s : State) :
    (statusWord s).getLsbD 1 = s.done ∧ (statusWord s).getLsbD 2 = s.err ∧
      (statusWord s).getLsbD 3 = s.ofsErr := by
  have hbusy := s.busy.toNat_lt
  have hdone := s.done.toNat_lt
  have herr := s.err.toNat_lt
  have hofs := s.ofsErr.toNat_lt
  refine ⟨bool_eq_of_toNat_eq ?_, bool_eq_of_toNat_eq ?_, bool_eq_of_toNat_eq ?_⟩ <;>
    rw [getLsbD_toNat, statusWord_toNat] <;> omega

/-- A bit with a W1C bit cleared. -/
theorem toNat_and_not (a b : Bool) : (a && !b).toNat + (a && b).toNat = a.toNat := by
  cases a <;> cases b <;> rfl

/-- A write of STATUS clears exactly the W1C bits that are 1 in it (R23). -/
theorem statusWord_writeStatus (s : State) (v : Word) :
    (statusWord (writeStatus v s)).toNat =
      (statusWord s).toNat - (statusWord s &&& v &&& 0xE#32).toNat := by
  obtain ⟨h1, h2, h3⟩ := statusWord_w1c s
  rw [w1c_toNat, BitVec.getLsbD_and, BitVec.getLsbD_and, BitVec.getLsbD_and, h1, h2, h3, statusWord_toNat,
    statusWord_toNat]
  have hdone := toNat_and_not s.done (v.getLsbD 1)
  have herr := toNat_and_not s.err (v.getLsbD 2)
  have hofs := toNat_and_not s.ofsErr (v.getLsbD 3)
  simp only [writeStatus, State.busy]
  omega

/-- BUF_SIZE takes the smaller of the value and MAX_SRC (R25). -/
theorem writeBufSize_bufSize (v : Word) (s : State) :
    (writeBufSize v s).bufSize.toNat = min v.toNat s.maxSrc.toNat := by
  simp only [writeBufSize]
  split <;> omega

/-- BUF_CFG reads the byte order as one bit (R27). -/
theorem regValue_bufCfg {s : State} {b : Bool} (h : s.order = if b then .little else .big) :
    (regValue s .bufCfg).toNat = b.toNat := by
  cases b <;> simp [regValue, h]

/-- BUF_CFG takes bit 0 of the value (R27). -/
theorem regValue_bufCfg_writeReg (v : Word) (s : State) :
    (regValue (writeReg .bufCfg v s) .bufCfg).toNat = v.toNat % 2 := by
  rw [regValue_bufCfg (b := v.getLsbD 0) rfl, getLsbD_toNat, Nat.pow_zero, Nat.div_one]

/-- A write of a register leaves what the others read, but for BUF_SIZE, which clears CURSOR (R25), and CURSOR,
which may set STATUS.OFS_ERR (R24). -/
theorem regValue_writeReg_of_ne {q r : Reg} (v : Word) (s : State) (hq : q ≠ r)
    (hbuf : ¬ (r = .bufSize ∧ q = .cursor)) (hcur : ¬ (r = .cursor ∧ q = .status)) :
    regValue (writeReg r v s) q = regValue s q := by
  cases r with
  | outLen | outCount | errOffset | outCapR | maxSrcR => rfl
  | ctrl =>
    cases q with
    | ctrl => exact absurd rfl hq
    | _ => rfl
  | status =>
    cases q with
    | status => exact absurd rfl hq
    | _ => rfl
  | offset =>
    cases q with
    | offset => exact absurd rfl hq
    | _ => rfl
  | bufCfg =>
    cases q with
    | bufCfg => exact absurd rfl hq
    | _ => rfl
  | bufSize =>
    cases q with
    | bufSize => exact absurd rfl hq
    | cursor => exact absurd ⟨rfl, rfl⟩ hbuf
    | _ => rfl
  | cursor =>
    simp only [writeReg, writeCursor]
    cases q with
    | cursor => exact absurd rfl hq
    | status => exact absurd ⟨rfl, rfl⟩ hcur
    | _ => split <;> rfl

/-- A write of a register writes only the registers that a host can write (R22 to R27). -/
theorem writeReg_eq (r : Reg) (v : Word) (s : State) :
    ∃ codec entry ie done err ofsErr bufSize cursor offset order,
      writeReg r v s =
        { s with
          ctrlCodec := codec, ctrlEntry := entry, ctrlIe := ie, done := done, err := err, ofsErr := ofsErr,
          bufSize := bufSize, cursor := cursor, offset := offset, order := order } := by
  cases r with
  | cursor =>
    simp only [writeReg, writeCursor]
    split <;> exact ⟨_, _, _, _, _, _, _, _, _, _, rfl⟩
  | _ => exact ⟨_, _, _, _, _, _, _, _, _, _, rfl⟩

/-- What no write of a register changes. -/
theorem writeReg_frame (r : Reg) (v : Word) (s : State) :
    (writeReg r v s).phase = s.phase ∧ SameSrc s (writeReg r v s) ∧ SameOutExcept 0 0 s (writeReg r v s) ∧
      SameTreeFrom 0 s (writeReg r v s) ∧ SameLatch s (writeReg r v s) ∧ SameHeader s (writeReg r v s) ∧
      SameLz s (writeReg r v s) ∧ SameHuff s (writeReg r v s) ∧ SameDiff s (writeReg r v s) ∧
      (writeReg r v s).pos = s.pos ∧ (writeReg r v s).out = s.out ∧ (writeReg r v s).inst = s.inst ∧
      SameHostSide s (writeReg r v s) := by
  obtain ⟨_, _, _, _, _, _, _, _, _, _, h⟩ := writeReg_eq r v s
  rw [h]
  simp [SameLatch, SameHeader, SameLz, SameHuff, SameDiff, SameHostSide, SameSrc.of_eq, SameOutExcept.of_eq,
    SameTreeFrom.of_eq]

/-- Settles O55: the write is `writeReg`; one lemma for each register says what it then reads, and
`writeReg_frame` what stays. -/
theorem registerWriteReadsBack : Obligations.RegisterWriteReadsBack := by
  intro s rest r v hturn hidle hstart
  obtain ⟨hphase, hframe⟩ := writeReg_frame r v (takeTurn rest s)
  refine ⟨_, step_writeReg hturn hidle hstart, ?_, ?_, ?_, ?_, ?_, ?_, ?_, ?_, ?_, hphase.trans hidle, hframe⟩
  · rintro rfl; exact ctrlWord_writeCtrl _ (hstart rfl)
  · rintro rfl; exact statusWord_writeStatus (takeTurn rest s) v
  · rintro rfl; exact ⟨writeBufSize_bufSize v (takeTurn rest s), rfl⟩
  · rintro rfl
    split <;> next hv => simp [regValue, writeReg, writeCursor, hv]
  · rintro rfl
    simp only [writeReg, writeCursor]
    split <;> exact ⟨rfl, rfl, rfl⟩
  · rintro rfl; rfl
  · rintro rfl; exact regValue_bufCfg_writeReg v _
  · intro q hq hbuf hcur
    rw [regValue_writeReg_of_ne v _ hq hbuf hcur, regValue_takeTurn]
  · rintro (rfl | rfl | rfl | rfl | rfl) <;> rfl

/-! ### The interrupt -/

/-- Settles O57: irq is the conjunction that R38 names, and each write or reset clears one side of it. -/
theorem interruptFollowsStatus : Obligations.InterruptFollowsStatus := by
  intro s t rest v
  refine ⟨by simp [State.irq], rfl, ?_, ?_, ?_, ?_⟩
  · intro hidle hturn hdone herr hstep
    cases (step_writeReg (r := .status) hturn hidle nofun).symm.trans hstep
    simp only [State.irq, writeReg, writeStatus, hdone, herr, Bool.not_true, Bool.and_false, Bool.or_self]
  · intro hidle hturn hstart hie hstep
    cases (step_writeReg (r := .ctrl) hturn hidle fun _ => hstart).symm.trans hstep
    simp only [State.irq, writeReg, writeCtrl, hie, Bool.false_and]
  · intro hidle hturn hstart hstep
    rw [step_regWrite hturn] at hstep
    rcases hostRegWrite_cases (off := 0) v (takeTurn rest s) rfl with ⟨hr, _⟩ | ⟨codec, e, ie, _, _, hw⟩ |
      ⟨r, hr, hv, _⟩
    · cases hr
    · cases hw.symm.trans hstep
      rcases startJob_cases codec e ie (takeTurn rest s) with ⟨hrun, _⟩ | ⟨_, he⟩
      · cases hrun.symm.trans hidle
      · simp [he, State.irq]
    · cases hr
      cases (hv rfl).symm.trans hstart
  · intro hturn hstep
    cases (step_hostTurn hturn).symm.trans hstep
    rfl

/-! ### The bytes of SRC and OUT -/

/-- Settles O58: `hostStep` tests the address, then the phase, then writes the byte (`Memory.read_write`). -/
theorem hostWritesSource : Obligations.HostWritesSource := by
  intro s rest i b hturn
  rw [step_hostTurn hturn]
  refine ⟨fun hi hidle => ?_, fun hi hrun => ?_, fun hi => ?_⟩
  · refine ⟨{ takeTurn rest s with srcMem := s.srcMem.write i b }, ?_, ?_, fun j hj => ?_, rfl⟩
    · simp [hostStep, hi, busy_of_idle (s := takeTurn rest s) hidle]
    · simp [srcByte, Memory.read_write]
    · simp [srcByte, Memory.read_write, hj]
  · simp [hostStep, hi, busy_of_run (s := takeTurn rest s) hrun]
  · simp [hostStep, Nat.not_lt.mpr hi]

/-- Settles O59: the two reads of an idle block, below the end of each memory. -/
theorem hostReadsMemories : Obligations.HostReadsMemories := by
  intro s rest i hidle
  have hbusy := busy_of_idle (s := takeTurn rest s) hidle
  refine ⟨fun hturn hi => ?_, fun hturn hi => ?_⟩
  · rw [step_hostTurn hturn]
    simp [hostStep, hi, hbusy, outRead]
  · rw [step_hostTurn hturn]
    simp [hostStep, hi, hbusy]

end Sys2Proof.Machine
end

section
/-! What each read of the buffer answers (20_memory.md R61 to R65): its bytes, and CURSOR advanced, or no new state. -/

namespace Sys2Proof

/-- The big-endian value of four bytes is the little-endian one of the bytes in reverse (R63). -/
theorem assemble32_big_eq_little (b0 b1 b2 b3 : Byte) :
    assemble32 .big b0 b1 b2 b3 = assemble32 .little b3 b2 b1 b0 := rfl

/-- The big-endian value of two bytes is the little-endian one of the bytes in reverse (R63). -/
theorem assemble16_big_eq_little (b0 b1 : Byte) : assemble16 .big b0 b1 = assemble16 .little b1 b0 := rfl

/-- Byte `k` of a 32-bit read, least significant first, is the byte of SRC that the order puts there (R63). -/
theorem assemble32_byte (o : ByteOrder) (b : Nat → Byte) {k : Nat} (hk : k < 4) :
    (assemble32 o (b 0) (b 1) (b 2) (b 3)).extractLsb' (8 * k) 8 = b (if o = .big then 3 - k else k) := by
  have hlittle (b : Nat → Byte) :
      (assemble32 .little (b 0) (b 1) (b 2) (b 3)).extractLsb' (8 * k) 8 = b k := by
    apply BitVec.eq_of_toNat_eq
    rw [field_toNat, assemble32_little]
    interval_cases k <;> omega
  cases o with
  | big =>
    rw [if_pos rfl, assemble32_big_eq_little]
    exact hlittle fun j => b (3 - j)
  | little =>
    rw [if_neg nofun]
    exact hlittle b

/-- Byte `k` of a 16-bit read, least significant first, is the byte of SRC that the order puts there (R63). -/
theorem assemble16_byte (o : ByteOrder) (b : Nat → Byte) {k : Nat} (hk : k < 2) :
    (assemble16 o (b 0) (b 1)).extractLsb' (8 * k) 8 = b (if o = .big then 1 - k else k) := by
  have hlittle (b : Nat → Byte) : (assemble16 .little (b 0) (b 1)).extractLsb' (8 * k) 8 = b k := by
    apply BitVec.eq_of_toNat_eq
    rw [field_toNat, assemble16_little]
    interval_cases k <;> omega
  cases o with
  | big =>
    rw [if_pos rfl, assemble16_big_eq_little]
    exact hlittle fun j => b (1 - j)
  | little =>
    rw [if_neg nofun]
    exact hlittle b

end Sys2Proof

namespace Sys2Proof.Machine

theorem readRange_ok {n : Nat} {s : State} (h : s.cursor.toNat + n ≤ s.bufSize.toNat) :
    readRange n s = .ok (srcBytes s s.cursor.toNat n) (advance n s) :=
  (readRange_cases n s).elim And.right fun ⟨hb, _⟩ => absurd h hb.not_ge

theorem readRange_bounds {n : Nat} {s : State} (h : s.bufSize.toNat < s.cursor.toNat + n) :
    readRange n s = .bounds s.cursor :=
  (readRange_cases n s).elim (fun ⟨hb, _⟩ => absurd hb h.not_ge) And.right

theorem read32_ok {s : State} (h : s.cursor.toNat + 4 ≤ s.bufSize.toNat) :
    read32 s = .ok (assemble32 s.jorder (srcByte s s.cursor.toNat) (srcByte s (s.cursor.toNat + 1))
      (srcByte s (s.cursor.toNat + 2)) (srcByte s (s.cursor.toNat + 3))) (advance 4 s) :=
  (read32_cases s).elim And.right fun ⟨hb, _⟩ => absurd h hb.not_ge

theorem read32_bounds {s : State} (h : s.bufSize.toNat < s.cursor.toNat + 4) : read32 s = .bounds s.cursor :=
  (read32_cases s).elim (fun ⟨hb, _⟩ => absurd hb h.not_ge) And.right

theorem read16_ok {s : State} (h : s.cursor.toNat + 2 ≤ s.bufSize.toNat) :
    read16 s = .ok (assemble16 s.jorder (srcByte s s.cursor.toNat) (srcByte s (s.cursor.toNat + 1)))
      (advance 2 s) :=
  (read16_cases s).elim And.right fun ⟨hb, _⟩ => absurd h hb.not_ge

theorem read16_bounds {s : State} (h : s.bufSize.toNat < s.cursor.toNat + 2) : read16 s = .bounds s.cursor :=
  (read16_cases s).elim (fun ⟨hb, _⟩ => absurd hb h.not_ge) And.right

theorem read8_ok {s : State} (h : s.cursor.toNat + 1 ≤ s.bufSize.toNat) :
    read8 s = .ok (srcByte s s.cursor.toNat) (advance 1 s) :=
  (read8_cases s).elim And.right fun ⟨hb, _⟩ => absurd h hb.not_ge

theorem read8_bounds {s : State} (h : s.bufSize.toNat < s.cursor.toNat + 1) : read8 s = .bounds s.cursor :=
  (read8_cases s).elim (fun ⟨hb, _⟩ => absurd hb h.not_ge) And.right

/-- Settles O16: each read has two answers, and the assembled ones hold the bytes the order names. -/
theorem readsAreAtomic : Obligations.ReadsAreAtomic := by
  intro s n
  refine ⟨fun h => ?_, readRange_bounds, fun h => ?_, read32_bounds, fun h => ?_, read16_bounds, fun h => ?_,
    read8_bounds⟩
  · exact ⟨_, _, readRange_ok h, srcBytes_length .., fun k => srcBytes_getElem? _ _ _ k, rfl,
      advance_cursor_toNat h⟩
  · exact ⟨_, _, read32_ok h, rfl, advance_cursor_toNat h,
      fun k => assemble32_byte s.jorder fun j => srcByte s (s.cursor.toNat + j)⟩
  · exact ⟨_, _, read16_ok h, rfl, advance_cursor_toNat h,
      fun k => assemble16_byte s.jorder fun j => srcByte s (s.cursor.toNat + j)⟩
  · exact ⟨_, read8_ok h, rfl, advance_cursor_toNat h⟩

end Sys2Proof.Machine
end

section
/-! A turn of a running block at an element (30_encoding.md R104): the meaning of what its bytes decode to
(41_job_control.md R116), or BOUNDS where its first access does not fit (60_exceptions.md R221). -/

namespace Sys2Proof

/-- The width of the first access that a slot's element makes: Read32, Read16 or Read8 (20_memory.md R62, R63). -/
def firstAccess : Slot → Nat
  | .cmd | .hdr _ | .hufPath => 4
  | .delta16 => 2
  | _ => 1

theorem firstAccess_pos (slot : Slot) : 0 < firstAccess slot := by
  unfold firstAccess
  split <;> decide

/-- Fewer bytes than the first access takes are no element, and none of them is read (R65). -/
theorem decode_short {slot : Slot} {o : ByteOrder} {bs : List Byte} (h : bs.length < firstAccess slot) :
    decode slot o bs = .error (.short 0) := by
  cases slot with
  | cmd | hdr | hufPath =>
    match bs with
    | [] | [_] | [_, _] | [_, _, _] => rfl
    | _ :: _ :: _ :: _ :: _ =>
      simp only [firstAccess, List.length_cons] at h
      omega
  | delta16 =>
    match bs with
    | [] | [_] => rfl
    | _ :: _ :: _ => simp [firstAccess] at h
  | lzRef ext =>
    cases List.length_eq_zero_iff.mp (Nat.lt_one_iff.mp h)
    cases ext <;> rfl
  | _ =>
    cases List.length_eq_zero_iff.mp (Nat.lt_one_iff.mp h)
    rfl

/-- The indicator of an LZX short form is none of the two that select the long forms (R91). -/
theorem decodeLzxRef_short_indicator {bs : List Byte} {ind : BitVec 4} {d : BitVec 12}
    (h : decodeLzxRef bs = .ok (.lzxRefs ind d)) : 2 ≤ ind.toNat := by
  unfold decodeLzxRef at h
  split at h
  · cases h
  · split_ifs at h with h0 h1 <;> split at h <;> cases h
    bv_omega

/-- What the decoder reads is well formed (R99). -/
theorem decode_wf {slot : Slot} {o : ByteOrder} {bs : List Byte} {i : Instr} (h : decode slot o bs = .ok i) :
    i.wf = true := by
  cases i with
  | lzxRefs ind d =>
    cases decode_slot h
    exact decide_eq_true (decodeLzxRef_short_indicator h)
  | _ => rfl

end Sys2Proof

namespace Sys2Proof.Machine

/-! ### The bytes of an element -/

/-- Every element but a path bit and a leaf is decoded from the buffer (R104). -/
theorem elementBytes_eq_window (s : State) {slot : Slot} (hbit : slot ≠ .hufBit) (hleaf : slot ≠ .hufLeaf) :
    elementBytes s slot = window 4 s := by
  cases slot with
  | hufBit => exact absurd rfl hbit
  | hufLeaf => exact absurd rfl hleaf
  | _ => rfl

theorem srcBytes_add (s : State) (c m n : Nat) :
    srcBytes s c (m + n) = srcBytes s c m ++ srcBytes s (c + m) n := by
  simp [srcBytes, List.range_add, Nat.add_assoc]

/-- The window begins with the bytes of any access that fits (R61). -/
theorem window_eq_srcBytes_append {n k : Nat} {s : State} (hk : k ≤ n)
    (h : s.cursor.toNat + k ≤ s.bufSize.toNat) : ∃ rest, window n s = srcBytes s s.cursor.toNat k ++ rest := by
  obtain ⟨m, hm⟩ := Nat.exists_eq_add_of_le (Nat.le_min.mpr ⟨hk, Nat.le_sub_of_add_le' h⟩)
  exact ⟨_, by rw [window, hm, srcBytes_add]⟩

/-- An element decoded from the buffer lies in it (R61). -/
theorem decode_window_inBounds {s : State} {slot : Slot} {o : ByteOrder} {i : Instr}
    (h : decode slot o (window 4 s) = .ok i) : s.cursor.toNat + elementLength slot i ≤ s.bufSize.toNat := by
  have hlen := decode_length h
  have hpos : 1 ≤ elementLength slot i := by
    unfold elementLength
    split <;> omega
  rw [window_length] at hlen
  omega

/-- A header is decoded from the value that Read32 answers (R63, R82). -/
theorem decode_header_read32 {s : State} {d : Codec} {i : Instr}
    (h : decode (.hdr d) s.jorder (window 4 s) = .ok i) :
    ∃ W s1, read32 s = .ok W s1 ∧ decodeHeader d W = .ok i := by
  have hin : s.cursor.toNat + 4 ≤ s.bufSize.toNat := decode_window_inBounds h
  obtain ⟨rest, hw⟩ := window_eq_srcBytes_append (n := 4) le_rfl hin
  rw [hw] at h
  exact ⟨_, _, read32_ok hin, h⟩

/-- A path word is the value that Read32 answers (R63, R96). -/
theorem decode_path_read32 {s : State} {i : Instr} (h : decode .hufPath s.jorder (window 4 s) = .ok i) :
    ∃ p s1, read32 s = .ok p s1 ∧ i = .huffPath p := by
  have hin : s.cursor.toNat + 4 ≤ s.bufSize.toNat := decode_window_inBounds h
  obtain ⟨rest, hw⟩ := window_eq_srcBytes_append (n := 4) le_rfl hin
  rw [hw] at h
  exact ⟨_, _, read32_ok hin, (Except.ok.inj h).symm⟩

/-- A 16-bit delta is the value that Read16 answers (R63, R97). -/
theorem decode_delta16_read16 {s : State} {i : Instr} (h : decode .delta16 s.jorder (window 4 s) = .ok i) :
    ∃ d s1, read16 s = .ok d s1 ∧ i = .diff16Delta d := by
  have hin : s.cursor.toNat + 2 ≤ s.bufSize.toNat := decode_window_inBounds h
  obtain ⟨rest, hw⟩ := window_eq_srcBytes_append (n := 4) (by omega) hin
  rw [hw] at h
  exact ⟨_, _, read16_ok hin, (Except.ok.inj h).symm⟩

/-! ### The fetch and the turn -/

theorem fetch_of_noCodec {s : State} (hc : Codec.ofBits s.jcodec = none) :
    fetch s = .failed .badCodec s.saved 0 := by
  simp only [fetch, hc]

/-- A code that ran out of its path word (43_huffman.md R164). -/
theorem fetch_of_noLeaf {c : Codec} {s : State} (hc : Codec.ofBits s.jcodec = some c)
    (hslot : slotOf c s = .hufPath) (hsteps : s.steps ≠ 0) : fetch s = .failed .noLeaf s.wordOff 0 := by
  simp only [fetch, hc, if_pos (And.intro hslot hsteps)]

/-- A fetch finds the element that the bytes at the job's place decode to (R104). -/
theorem fetch_of_decode {c : Codec} {s : State} {i : Instr} (hc : Codec.ofBits s.jcodec = some c)
    (hn : ¬ (slotOf c s = .hufPath ∧ s.steps ≠ 0))
    (h : decode (slotOf c s) s.jorder (elementBytes s (slotOf c s)) = .ok i) : fetch s = .element i := by
  simp only [fetch, hc, if_neg hn, h]

/-- A fetch of bytes that are no element answers the error of their rejection (R104). -/
theorem fetch_of_reject {c : Codec} {s : State} {r : Reject} (hc : Codec.ofBits s.jcodec = some c)
    (hn : ¬ (slotOf c s = .hufPath ∧ s.steps ≠ 0))
    (h : decode (slotOf c s) s.jorder (elementBytes s (slotOf c s)) = .error r) :
    fetch s = rejectRecord s r := by
  simp only [fetch, hc, if_neg hn, h]

/-- The first turn of an accepted job is its codec check and entry form (41_job_control.md R111, R112). -/
theorem blockStep_entry {s : State} (hrun : s.phase = .run) (hpos : s.pos = .entry) :
    blockStep s = .next (enterStream s) := by
  simp [blockStep, hrun, hpos]

/-- The turn after the last element is the completion (R118). -/
theorem blockStep_finish {s : State} (hrun : s.phase = .run) (hpos : s.pos ≠ .entry)
    (hdone : bodyDone s = true) : blockStep s = .next (finish s) := by
  simp [blockStep, hrun, hpos, hdone]

/-- A turn at an element is its meaning (R116). -/
theorem blockStep_element {s : State} {i : Instr} (hrun : s.phase = .run) (hpos : s.pos ≠ .entry)
    (hdone : bodyDone s = false) (hf : fetch s = .element i) : blockStep s = exec i s := by
  simp [blockStep, hrun, hpos, hdone, hf]

/-- A turn whose fetch fails raises the fetch's error after the bytes read (60_exceptions.md R226). -/
theorem blockStep_failed {s : State} {e : JobError} {off : Word} {k : Nat} (hrun : s.phase = .run)
    (hpos : s.pos ≠ .entry) (hdone : bodyDone s = false) (hf : fetch s = .failed e off k) :
    blockStep s = .next (raise e off (advance k s)) := by
  simp [blockStep, hrun, hpos, hdone, hf]

/-- A turn of the block whose fetch fails ends the job with the fetch's error, CURSOR after the bytes read
(R226, R229). -/
theorem step_fetch_failed {s : State} {rest : List Turn} {e : JobError} {off : Word} {k : Nat}
    (hturn : BlockTurn s rest) (hrun : s.phase = .run) (hpos : s.pos ≠ .entry) (hdone : bodyDone s = false)
    (hf : fetch s = .failed e off k) :
    ∃ t, step s = .next t ∧
      FailedJob 0 e.code off (advance k s).cursor s.out (takeTurn rest s) t := by
  have hk : beyondBlock (advance k (takeTurn rest s)) = beyondBlock (takeTurn rest s) := rfl
  exact ⟨_, (step_blockTurn hturn).trans (blockStep_failed (s := takeTurn rest s) hrun hpos hdone hf),
    raise_failedJob e off (.of_beyondBlock hk) (.of_beyondBlock hk) (.of_beyondBlock hk) (.of_beyondBlock hk)
      rfl rfl (.of_eq rfl rfl rfl) rfl⟩

/-- Settles O6: the fetch answers the decoded element, whose turn is its meaning, and a multi-byte element is
decoded from the bytes that its read answers. -/
theorem stepRunsDecodedElement : Obligations.StepRunsDecodedElement := by
  intro s rest c i hturn hrun hpos hdone hc hn hd
  have hf : fetch (takeTurn rest s) = .element i := fetch_of_decode (s := takeTurn rest s) hc hn hd
  have hstep : step s = exec i (takeTurn rest s) :=
    (step_blockTurn hturn).trans (blockStep_element (s := takeTurn rest s) hrun hpos hdone hf)
  refine ⟨decode_wf hd, hstep, fun d hs => ?_, fun hs => ?_, fun hs => ?_⟩
    <;> rw [hs] at hd
  · exact decode_header_read32 hd
  · exact decode_path_read32 hd
  · exact decode_delta16_read16 hd

/-- Where the first access of an element does not fit the buffer, the job ends with BOUNDS there and CURSOR
does not move (R61, R65, R221). -/
theorem step_firstAccess_missing {s : State} {rest : List Turn} {c : Codec} (hturn : BlockTurn s rest)
    (hrun : s.phase = .run) (hpos : s.pos ≠ .entry) (hdone : bodyDone s = false)
    (hc : Codec.ofBits s.jcodec = some c) (hn : ¬ (slotOf c s = .hufPath ∧ s.steps ≠ 0))
    (hbit : slotOf c s ≠ .hufBit) (hleaf : slotOf c s ≠ .hufLeaf)
    (h : s.bufSize.toNat < s.cursor.toNat + firstAccess (slotOf c s)) :
    ∃ t, step s = .next t ∧ FailedJob 0 1#4 s.cursor s.cursor s.out (takeTurn rest s) t := by
  have hlen : (window 4 s).length < firstAccess (slotOf c s) := by
    have := firstAccess_pos (slotOf c s)
    rw [window_length]
    omega
  have hcur : (advance 0 s).cursor = s.cursor := by simp
  have hf : fetch s = .failed .bounds (advance 0 s).cursor 0 :=
    fetch_of_reject (r := .short 0) hc hn (by rw [elementBytes_eq_window s hbit hleaf, decode_short hlen])
  have hfail := step_fetch_failed hturn hrun hpos hdone hf
  rwa [hcur] at hfail

/-- Settles O17: the element's one access is its Read32 or Read16. -/
theorem multiByteReadIsAllOrNothing : Obligations.MultiByteReadIsAllOrNothing := by
  intro s rest c n hturn hrun hpos hdone hc hslot h
  have hfail := step_firstAccess_missing hturn hrun hpos hdone hc
  rcases hslot with ⟨⟨d, hs⟩, rfl⟩ | ⟨hs, hsteps, rfl⟩ | ⟨hs, rfl⟩ <;> rw [hs] at hfail
  · exact hfail nofun nofun nofun h
  · exact hfail (fun hn => hn.2 hsteps) nofun nofun h
  · exact hfail nofun nofun nofun h

/-- Settles O18: the element's first access is a Read8. -/
theorem missingElementFails : Obligations.MissingElementFails := by
  intro s rest c hturn hrun hpos hdone hc hslot h
  have hfail := step_firstAccess_missing hturn hrun hpos hdone hc
  have hlt : s.bufSize.toNat < s.cursor.toNat + 1 := Nat.lt_succ_of_le h
  rcases hslot with hs | ⟨x, hs⟩ | ⟨x, hs⟩ | hs | hs | hs <;> rw [hs] at hfail <;>
    exact hfail nofun nofun nofun hlt

end Sys2Proof.Machine
end

section
/-! What a turn of the block does not depend on: SRC past BUF_SIZE (20_memory.md R61, R73), and in an LZ body the
byte order (R68, 42_lz.md R132). Both are one fact: a turn does the same to a state whose latched order and SRC are
replaced, when the element it fetches and the bytes of the buffer are the same. -/

namespace Sys2Proof

/-- The slots whose element is read by Read32 or Read16, in the job's byte order (20_memory.md R63). -/
def readsInOrder : Slot → Bool
  | .hdr _ | .hufPath | .delta16 => true
  | _ => false

/-- An element that is read byte by byte is the same in either order (R68). -/
theorem decode_order {slot : Slot} (h : readsInOrder slot = false) (o o' : ByteOrder) (bs : List Byte) :
    decode slot o bs = decode slot o' bs := by
  cases slot with
  | hdr | hufPath | delta16 => cases h
  | _ => rfl

end Sys2Proof

namespace Sys2Proof.Machine

/-- The state with another latched byte order, another SRC and another draw of SRC's unspecified contents. -/
def withSource (o : ByteOrder) (m : Memory) (n : Nat) (s : State) : State :=
  { s with jorder := o, srcMem := m, srcDraw := n }

section

variable {o : ByteOrder} {m : Memory} {n : Nat}

/-! ### Operations that read no SRC -/

@[simp] theorem enterStream_withSource (s : State) :
    enterStream (withSource o m n s) = withSource o m n (enterStream s) := by
  simp only [enterStream, apply_ite (withSource o m n)]
  rfl

@[simp] theorem openOutput_withSource (off : Word) (s : State) :
    openOutput off (withSource o m n s) = withSource o m n (openOutput off s) := by
  simp only [openOutput, apply_ite (withSource o m n)]
  rfl

@[simp] theorem copyBack_withSource (disp k : Nat) (s : State) :
    copyBack disp k (withSource o m n s) = withSource o m n (copyBack disp k s) := by
  induction k generalizing s with
  | zero => rfl
  | succ k ih => exact ih (emit (outRead s (s.out - disp)) s)

@[simp] theorem emitRun_withSource (b : Byte) (k : Nat) (s : State) :
    emitRun b k (withSource o m n s) = withSource o m n (emitRun b k s) := by
  induction k generalizing s with
  | zero => rfl
  | succ k ih => exact ih (emit b s)

@[simp] theorem backRef_withSource (clamp : Bool) (k count disp : Nat) (s : State) :
    backRef clamp k count disp (withSource o m n s) = withSource o m n (backRef clamp k count disp s) := by
  simp only [backRef, apply_ite (withSource o m n), ← copyBack_withSource]
  rfl

@[simp] theorem traverse_withSource (right : Bool) (s : State) :
    traverse right (withSource o m n s) = withSource o m n (traverse right s) := by
  simp only [traverse, apply_ite (withSource o m n)]
  rfl

@[simp] theorem packSymbol_withSource (sym : Byte) (s : State) :
    packSymbol sym (withSource o m n s) = withSource o m n (packSymbol sym s) := by
  simp only [packSymbol, apply_ite (withSource o m n)]
  rfl

/-! ### Operations that read the buffer -/

/-- The replaced SRC has the same bytes in the buffer. -/
def SameBuffer (o : ByteOrder) (m : Memory) (n : Nat) (s : State) : Prop :=
  ∀ i < s.bufSize.toNat, srcByte (withSource o m n s) i = srcByte s i

variable {s : State}

/-- Bytes that lie in the buffer are the same (R61). -/
theorem SameBuffer.srcBytes_eq (h : SameBuffer o m n s) {c k : Nat} (hin : c + k ≤ s.bufSize.toNat) :
    srcBytes (withSource o m n s) c k = srcBytes s c k :=
  List.map_congr_left fun j hj => h (c + j) (by have := List.mem_range.mp hj; omega)

theorem SameBuffer.window_eq (h : SameBuffer o m n s) (k : Nat) :
    window k (withSource o m n s) = window k s := by
  show srcBytes (withSource o m n s) s.cursor.toNat (min k (s.bufSize.toNat - s.cursor.toNat)) = _
  by_cases hc : s.cursor.toNat ≤ s.bufSize.toNat
  · exact h.srcBytes_eq (by omega)
  · rw [window, Nat.sub_eq_zero_of_le (Nat.le_of_not_le hc), Nat.min_zero]
    rfl

theorem SameBuffer.read8_ok (h : SameBuffer o m n s) (hin : s.cursor.toNat + 1 ≤ s.bufSize.toNat) :
    read8 (withSource o m n s) = .ok (srcByte s s.cursor.toNat) (withSource o m n (advance 1 s)) := by
  rw [Machine.read8_ok (s := withSource o m n s) hin, ← h _ hin]
  rfl

theorem SameBuffer.copyRun_eq (h : SameBuffer o m n s) (k : Nat) :
    copyRun k (withSource o m n s) = withSource o m n (copyRun k s) := by
  induction k generalizing s with
  | zero => rfl
  | succ k ih =>
    rcases read8_cases s with ⟨hin, hr⟩ | ⟨hout, hr⟩
    · simp only [copyRun, hr, h.read8_ok hin]
      exact ih (s := emit (srcByte s s.cursor.toNat) (advance 1 s)) h
    · simp only [copyRun, hr, read8_bounds (s := withSource o m n s) hout]
      rfl

/-- An element does the same to the state with its order and SRC replaced, when the buffer is the same. -/
theorem SameBuffer.exec_eq (h : SameBuffer o m n s) {i : Instr} {t : State} (hi : i.slot ≠ .cmd)
    (ht : exec i s = .next t) : exec i (withSource o m n s) = .next (withSource o m n t) := by
  have h1 : SameBuffer o m n (advance 1 s) := h
  cases i with
  | startLzss | startLzx | startHuff | startRl | startDiff | startRsvd5 | startRsvd6 | startRsvd7 =>
    exact absurd rfl hi
  | hdrLzss | hdrLzx | hdrRl | hdrDiff8 | hdrDiff16 =>
    cases ht
    rw [← openOutput_withSource]; rfl
  | hdrHuff depth len =>
    cases ht
    rw [apply_ite (withSource o m n), ← openOutput_withSource]; rfl
  | lzFlags | lzssLit | lzxLit | diff8Delta => cases ht; rfl
  | lzssRef | lzxRef0 | lzxRef1 | lzxRefs => cases ht; rw [← backRef_withSource]; rfl
  | rlCopy k =>
    cases ht
    rw [apply_ite (withSource o m n), ← h1.copyRun_eq]; rfl
  | rlFill k =>
    cases ht
    rw [apply_ite (withSource o m n)]
    rcases read8_cases (advance 1 s) with ⟨hin, hr⟩ | ⟨hout, hr⟩
    · have hw : read8 (advance 1 (withSource o m n s)) = _ := h1.read8_ok hin
      simp only [exec, execRlFill, hr, hw, ← emitRun_withSource]; rfl
    · have hw := read8_bounds (s := advance 1 (withSource o m n s)) hout
      simp only [exec, execRlFill, hr, hw]; rfl
  | huffTree k =>
    obtain ⟨u, hu, hs⟩ := execHuffTree_cases k s
    obtain ⟨v, hv, hw⟩ := execHuffTree_cases k (withSource o m n s)
    cases hu.symm.trans ht
    rw [hv]
    rcases hs with ⟨hin, rfl⟩ | ⟨hout, rfl⟩ <;> rcases hw with ⟨hin', rfl⟩ | ⟨hout', rfl⟩
    · have hbytes : srcBytes (withSource o m n s) (advance 1 (withSource o m n s)).cursor.toNat _ = _ :=
        h.srcBytes_eq hin
      rw [hbytes]; rfl
    · exact absurd hin hout'.not_ge
    · exact absurd hin' hout.not_ge
    · rfl
  | huffPath p | diff16Delta d => cases ht; rw [apply_ite (withSource o m n)]; rfl
  | huffLeft | huffRight => cases ht; rw [← traverse_withSource]; rfl
  | huffLeaf b =>
    cases ht
    show _ = Host.Outcome.next (restart (withSource o m n (packSymbol (symbolOf s.D b) s)))
    rw [← packSymbol_withSource]; rfl

/-! ### A turn -/

/-- The fetch finds the same when the buffer is the same and the order too, or is not read (R104). -/
theorem SameBuffer.fetch_eq (h : SameBuffer o m n s)
    (ho : ∀ c, Codec.ofBits s.jcodec = some c → o = s.jorder ∨ readsInOrder (slotOf c s) = false) :
    fetch (withSource o m n s) = fetch s := by
  have hbytes (slot : Slot) : elementBytes (withSource o m n s) slot = elementBytes s slot := by
    cases slot with
    | hufBit | hufLeaf => rfl
    | _ => exact h.window_eq 4
  have hdecode {c : Codec} (hc : Codec.ofBits s.jcodec = some c) :
      decode (slotOf c s) o (elementBytes (withSource o m n s) (slotOf c s)) =
        decode (slotOf c s) s.jorder (elementBytes s (slotOf c s)) := by
    rw [hbytes]
    rcases ho c hc with rfl | hslot
    · rfl
    · exact decode_order hslot ..
  rcases fetch_cases s with ⟨hc, hf⟩ | ⟨c, hc, hslot, hsteps, hf⟩ | ⟨c, i, hc, hn, hd, hf⟩ |
    ⟨c, r, hc, hn, hd, hf⟩ <;> rw [hf]
  · exact fetch_of_noCodec (s := withSource o m n s) hc
  · exact fetch_of_noLeaf (s := withSource o m n s) hc hslot hsteps
  · exact fetch_of_decode (s := withSource o m n s) hc hn ((hdecode hc).trans hd)
  · exact fetch_of_reject (s := withSource o m n s) hc hn ((hdecode hc).trans hd)

/-- A turn does the same to the state with its order and SRC replaced, when the buffer is the same and the order
too, or is not read. -/
theorem SameBuffer.blockStep_eq (h : SameBuffer o m n s)
    (ho : ∀ c, Codec.ofBits s.jcodec = some c → o = s.jorder ∨ readsInOrder (slotOf c s) = false) {t : State}
    (ht : blockStep s = .next t) : blockStep (withSource o m n s) = .next (withSource o m n t) := by
  have hfetch := h.fetch_eq ho
  cases hp : s.phase with
  | idle =>
    cases (blockStep_idle hp).symm.trans ht
    exact blockStep_idle (s := withSource o m n s) hp
  | run =>
    rcases blockStep_run_cases hp with ⟨hpos, hb⟩ | ⟨hpos, hd, hb⟩ | ⟨i, hpos, hd, hf, hb⟩ |
      ⟨e, off, k, hpos, hd, hf, hb⟩
    · cases hb.symm.trans ht
      rw [blockStep_entry (s := withSource o m n s) hp hpos, enterStream_withSource]
    · cases hb.symm.trans ht
      exact blockStep_finish (s := withSource o m n s) hp hpos hd
    · obtain ⟨_, _, _, hi, _⟩ := fetch_element hf
      rw [blockStep_element (s := withSource o m n s) hp hpos hd (hfetch.trans hf)]
      exact h.exec_eq hi (hb.symm.trans ht)
    · cases hb.symm.trans ht
      exact blockStep_failed (s := withSource o m n s) hp hpos hd (hfetch.trans hf)

/-- No element of an LZ body is read in the job's byte order (42_lz.md R132). -/
theorem readsInOrder_lzBody {c : Codec} (hpos : s.pos = .body) (hj : s.jcodec = 0#3 ∨ s.jcodec = 1#3)
    (hc : Codec.ofBits s.jcodec = some c) : readsInOrder (slotOf c s) = false := by
  rcases hj with hj | hj <;> rw [hj] at hc <;> cases hc <;> simp only [slotOf, hpos] <;> split_ifs <;> rfl

end

/-- Settles O26: the replaced order is not read, and no turn of the block writes SRC. -/
theorem lzBodyIgnoresByteOrder : Obligations.LzBodyIgnoresByteOrder := by
  intro s rest o hturn _ hpos hj
  obtain ⟨t, hb⟩ := blockStep_next (takeTurn rest s)
  refine ⟨t, (step_blockTurn hturn).trans hb, ?_⟩
  have hkept := blockStep_beyondBlock hb
  have hmem : t.srcMem = s.srcMem := (congrArg State.srcMem hkept :)
  have hdraw : t.srcDraw = s.srcDraw := (congrArg State.srcDraw hkept :)
  have hbuf : SameBuffer o s.srcMem s.srcDraw (takeTurn rest s) := fun _ _ => rfl
  calc step { s with jorder := o }
      = blockStep (withSource o s.srcMem s.srcDraw (takeTurn rest s)) := step_blockTurn (rest := rest) hturn
    _ = .next (withSource o s.srcMem s.srcDraw t) :=
        hbuf.blockStep_eq (fun _ hc => .inr (readsInOrder_lzBody (s := takeTurn rest s) hpos hj hc)) hb
    _ = .next { t with jorder := o } := by rw [← hmem, ← hdraw]; rfl

/-- Settles O47: the buffer is the same, and no turn of the block writes the latched order. -/
theorem bytesPastBufferUnseen : Obligations.BytesPastBufferUnseen := by
  intro s t rest m n hturn hstep hsame
  have hb : blockStep (takeTurn rest s) = .next t := (step_blockTurn hturn).symm.trans hstep
  have horder : t.jorder = s.jorder := (congrArg State.jorder (blockStep_beyondBlock hb) :)
  have hbuf : SameBuffer s.jorder m n (takeTurn rest s) := hsame
  calc step { s with srcMem := m, srcDraw := n }
      = blockStep (withSource s.jorder m n (takeTurn rest s)) := step_blockTurn (rest := rest) hturn
    _ = .next (withSource s.jorder m n t) := hbuf.blockStep_eq (fun _ _ => .inl rfl) hb
    _ = .next { t with srcMem := m, srcDraw := n } := by rw [← horder]; rfl

end Sys2Proof.Machine
end

section
/-! Fields of a word (00_scope.md R10): what is cut out of a concatenation, and what the fields of a word make
together. -/

namespace Sys2Proof

/-- A field test as arithmetic. -/
theorem field_eq_iff {w lo n : Nat} (v : BitVec w) (x : BitVec n) :
    v.extractLsb' lo n = x ↔ v.toNat / 2 ^ lo % 2 ^ n = x.toNat := by
  rw [← BitVec.toNat_inj, field_toNat]

/-! ### Header words (30_encoding.md R82 to R87) -/

@[simp] theorem typedHeader_type (t : Byte) (len : BitVec 24) : (typedHeader t len).extractLsb' 24 8 = t :=
  BitVec.extractLsb'_append_eq_left

@[simp] theorem typedHeader_len (t : Byte) (len : BitVec 24) : (typedHeader t len).extractLsb' 0 24 = len :=
  BitVec.extractLsb'_append_eq_right

@[simp] theorem huffHeader_type (depth : BitVec 4) (len : BitVec 24) :
    (huffHeader depth len).extractLsb' 28 4 = 0x2#4 :=
  BitVec.extractLsb'_append_eq_left

@[simp] theorem huffHeader_depth (depth : BitVec 4) (len : BitVec 24) :
    (huffHeader depth len).extractLsb' 24 4 = depth := by
  rw [field_eq_iff, huffHeader_toNat]
  omega

@[simp] theorem huffHeader_len (depth : BitVec 4) (len : BitVec 24) :
    (huffHeader depth len).extractLsb' 0 24 = len := by
  rw [field_eq_iff, huffHeader_toNat]
  omega

@[simp] theorem diffHeader_len (mode : BitVec 4) (len : BitVec 24) :
    (diffHeader mode len).extractLsb' 8 24 = len :=
  BitVec.extractLsb'_append_eq_left

@[simp] theorem diffHeader_type (mode : BitVec 4) (len : BitVec 24) :
    (diffHeader mode len).extractLsb' 4 4 = Config.diffType := by
  rw [field_eq_iff, diffHeader_toNat]
  simp only [Config.diffType, BitVec.toNat_ofNat]
  omega

@[simp] theorem diffHeader_mode (mode : BitVec 4) (len : BitVec 24) :
    (diffHeader mode len).extractLsb' 0 4 = mode := by
  rw [field_eq_iff, diffHeader_toNat]
  omega

/-- A word with a type byte is the header of that type and of its other bits. -/
theorem typedHeader_of_type {W : Word} {t : Byte} (h : W.extractLsb' 24 8 = t) :
    typedHeader t (W.extractLsb' 0 24) = W := by
  subst h
  exact (BitVec.extractLsb'_append_extractLsb'_eq_extractLsb' rfl).trans BitVec.extractLsb'_eq_self

theorem huffHeader_of_type {W : Word} (h : W.extractLsb' 28 4 = 0x2#4) :
    huffHeader (W.extractLsb' 24 4) (W.extractLsb' 0 24) = W := by
  have hW := W.isLt
  rw [field_eq_iff, BitVec.toNat_ofNat] at h
  rw [← BitVec.toNat_inj, huffHeader_toNat, field_toNat, field_toNat]
  omega

theorem diffHeader_of_type {W : Word} {mode : BitVec 4} (h : W.extractLsb' 4 4 = Config.diffType)
    (hm : W.extractLsb' 0 4 = mode) : diffHeader mode (W.extractLsb' 8 24) = W := by
  have hW := W.isLt
  rw [Config.diffType, field_eq_iff, BitVec.toNat_ofNat] at h
  rw [← BitVec.toNat_inj, diffHeader_toNat, ← hm, field_toNat, field_toNat]
  omega

/-! ### Command words (R81) -/

/-- One bit as arithmetic. -/
theorem bit_eq_decide {w : Nat} (v : BitVec w) (k : Nat) :
    v.getLsbD k = decide (v.toNat / 2 ^ k % 2 = 1) :=
  Nat.testBit_eq_decide_div_mod_eq

@[simp] theorem cmdWord_start (codec : BitVec 3) (e ie : Bool) : (cmdWord codec e ie).getLsbD 0 = true := by
  rw [bit_eq_decide, cmdWord_toNat, decide_eq_true_iff]
  omega

@[simp] theorem cmdWord_codec (codec : BitVec 3) (e ie : Bool) :
    (cmdWord codec e ie).extractLsb' 1 3 = codec := by
  rw [field_eq_iff, cmdWord_toNat]
  omega

@[simp] theorem cmdWord_entry (codec : BitVec 3) (e ie : Bool) : (cmdWord codec e ie).getLsbD 4 = e := by
  rw [bit_eq_decide, cmdWord_toNat]
  cases e <;> simp <;> omega

@[simp] theorem cmdWord_ie (codec : BitVec 3) (e ie : Bool) : (cmdWord codec e ie).getLsbD 5 = ie := by
  have he := e.toNat_lt
  rw [bit_eq_decide, cmdWord_toNat]
  cases ie <;> simp <;> omega

/-! ### The bytes of a word (20_memory.md R63) -/

theorem bytes32_assemble32 (o : ByteOrder) (b0 b1 b2 b3 : Byte) :
    bytes32 o (assemble32 o b0 b1 b2 b3) = [b0, b1, b2, b3] := by
  cases o with
  | big => simp only [bytes32, List.cons.injEq, and_true, field_eq_iff, assemble32_big]; omega
  | little => simp only [bytes32, List.cons.injEq, and_true, field_eq_iff, assemble32_little]; omega

theorem bytes16_assemble16 (o : ByteOrder) (b0 b1 : Byte) :
    bytes16 o (assemble16 o b0 b1) = [b0, b1] := by
  cases o with
  | big => simp only [bytes16, List.cons.injEq, and_true, field_eq_iff, assemble16_big]; omega
  | little => simp only [bytes16, List.cons.injEq, and_true, field_eq_iff, assemble16_little]; omega

/-! ### Bytes made of nibbles (R90, R91) -/

@[simp] theorem highNibble_cat (a b : BitVec 4) : (a ++ b : Byte).extractLsb' 4 4 = a :=
  BitVec.extractLsb'_append_eq_left

@[simp] theorem lowNibble_cat (a b : BitVec 4) : (a ++ b : Byte).extractLsb' 0 4 = b :=
  BitVec.extractLsb'_append_eq_right

@[simp] theorem nibbles_join (b : Byte) : (b.extractLsb' 4 4 ++ b.extractLsb' 0 4 : Byte) = b :=
  (BitVec.extractLsb'_append_extractLsb'_eq_extractLsb' rfl).trans BitVec.extractLsb'_eq_self

/-- The displacement field is the low nibble of a byte and the byte after it. -/
@[simp] theorem dispField_cat (n : BitVec 4) (d : BitVec 12) :
    dispField (n ++ d.extractLsb' 8 4) (d.extractLsb' 0 8) = d := by
  rw [dispField, lowNibble_cat]
  exact (BitVec.extractLsb'_append_extractLsb'_eq_extractLsb' rfl).trans BitVec.extractLsb'_eq_self

@[simp] theorem dispField_high (hi lo : Byte) : (dispField hi lo).extractLsb' 8 4 = hi.extractLsb' 0 4 :=
  BitVec.extractLsb'_append_eq_left

@[simp] theorem dispField_low (hi lo : Byte) : (dispField hi lo).extractLsb' 0 8 = lo :=
  BitVec.extractLsb'_append_eq_right

/-- The 16-bit count field of R91 is a nibble, a byte and a nibble. -/
@[simp] theorem countField_join (c : BitVec 16) :
    (c.extractLsb' 12 4 ++ c.extractLsb' 4 8 ++ c.extractLsb' 0 4 : BitVec 16) = c := by
  rw [← BitVec.toNat_inj, cat_toNat, cat_toNat, field_toNat, field_toNat, field_toNat]
  omega

@[simp] theorem countField_high (m : BitVec 4) (b : Byte) (n : BitVec 4) :
    (m ++ b ++ n : BitVec 16).extractLsb' 12 4 = m := by
  rw [field_eq_iff, cat_toNat, cat_toNat]
  omega

@[simp] theorem countField_mid (m : BitVec 4) (b : Byte) (n : BitVec 4) :
    (m ++ b ++ n : BitVec 16).extractLsb' 4 8 = b := by
  rw [field_eq_iff, cat_toNat, cat_toNat]
  omega

@[simp] theorem countField_low (m : BitVec 4) (b : Byte) (n : BitVec 4) :
    (m ++ b ++ n : BitVec 16).extractLsb' 0 4 = n :=
  BitVec.extractLsb'_append_eq_right

/-! ### RL flag bytes (R92) -/

@[simp] theorem runByte_kind (k : BitVec 1) (n : BitVec 7) :
    (k ++ n : Byte)[7] = decide (k = 1#1) := by
  rw [← BitVec.getLsbD_eq_getElem, bit_eq_decide, cat_toNat, decide_eq_decide, ← BitVec.toNat_inj, BitVec.toNat_ofNat]
  omega

@[simp] theorem runByte_length (k : BitVec 1) (n : BitVec 7) : (k ++ n : Byte).extractLsb' 0 7 = n :=
  BitVec.extractLsb'_append_eq_right

theorem runByte_join (f : Byte) : (BitVec.ofBool (f.getLsbD 7) ++ f.extractLsb' 0 7 : Byte) = f := by
  have hf := f.isLt
  rw [← BitVec.toNat_inj, cat_toNat, field_toNat, ofBool_toNat, bit_eq_decide]
  by_cases h : f.toNat / 128 % 2 = 1 <;> simp [h] <;> omega

end Sys2Proof
end

section
/-! The decoder and the encoder of file 30: what each slot reads of the bytes its elements are written in, and
which bytes what it reads is written in. -/

namespace Sys2Proof

/-! ### Words -/

theorem decode_cmd_bytes32 (o : ByteOrder) (v : Word) (rest : List Byte) :
    decode .cmd o (bytes32 .big v ++ rest) = decodeCmd v := by
  obtain ⟨b0, b1, b2, b3, hbytes, rfl⟩ := assemble32_bytes32 .big v rest
  rw [hbytes]
  rfl

theorem decode_hdr_bytes32 (c : Codec) (o : ByteOrder) (W : Word) (rest : List Byte) :
    decode (.hdr c) o (bytes32 o W ++ rest) = decodeHeader c W := by
  obtain ⟨b0, b1, b2, b3, hbytes, rfl⟩ := assemble32_bytes32 o W rest
  rw [hbytes]
  rfl

theorem decode_hufPath_bytes32 (o : ByteOrder) (p : Word) (rest : List Byte) :
    decode .hufPath o (bytes32 o p ++ rest) = .ok (.huffPath p) := by
  obtain ⟨b0, b1, b2, b3, hbytes, rfl⟩ := assemble32_bytes32 o p rest
  rw [hbytes]
  rfl

theorem decode_delta16_bytes16 (o : ByteOrder) (d : BitVec 16) (rest : List Byte) :
    decode .delta16 o (bytes16 o d ++ rest) = .ok (.diff16Delta d) := by
  obtain ⟨b0, b1, hbytes, rfl⟩ := assemble16_bytes16 o d rest
  rw [hbytes]
  rfl

/-! ### Commands (30_encoding.md R81) -/

/-- A command is decoded from START and its three fields alone. -/
theorem decodeCmd_of_fields {v : Word} {i : Instr} (hstart : v.getLsbD 0 = true)
    (h : Machine.commandFields i = some (v.extractLsb' 1 3, v.getLsbD 4, v.getLsbD 5)) :
    decodeCmd v = .ok i := by
  unfold decodeCmd
  rw [if_pos hstart]
  generalize v.extractLsb' 1 3 = codec at h ⊢
  cases i <;> cases h <;> rfl

/-- A command is written as the word of its fields. -/
theorem encode_command {i : Instr} {codec : BitVec 3} {e ie : Bool}
    (h : Machine.commandFields i = some (codec, e, ie)) (o : ByteOrder) :
    encode o i = bytes32 .big (cmdWord codec e ie) := by
  cases i <;> cases h <;> rfl

theorem slot_command {i : Instr} {f : BitVec 3 × Bool × Bool} (h : Machine.commandFields i = some f) :
    i.slot = .cmd := by
  cases i <;> cases h <;> rfl

theorem decode_encode_command {i : Instr} {codec : BitVec 3} {e ie : Bool}
    (h : Machine.commandFields i = some (codec, e, ie)) (o : ByteOrder) (rest : List Byte) :
    decode i.slot o (encode o i ++ rest) = .ok i := by
  rw [slot_command h, encode_command h, decode_cmd_bytes32]
  exact decodeCmd_of_fields (cmdWord_start ..) (by rw [cmdWord_codec, cmdWord_entry, cmdWord_ie, h])

/-! ### Headers (R82 to R87) -/

theorem decode_encode_header {i : Instr} {c : Codec} (h : i.slot = .hdr c) (o : ByteOrder)
    (rest : List Byte) : decode (.hdr c) o (encode o i ++ rest) = .ok i := by
  cases i with
  | hdrLzss | hdrLzx | hdrHuff | hdrRl | hdrDiff8 | hdrDiff16 =>
    cases h
    simp [encode, decode_hdr_bytes32, decodeHeader]
  | _ => cases h

/-- An accepted header word is the one its header is written as. -/
theorem encode_of_decodeHeader {c : Codec} {W : Word} {i : Instr} (h : decodeHeader c W = .ok i)
    (o : ByteOrder) : encode o i = bytes32 o W := by
  cases c <;> simp only [decodeHeader] at h
  case diff =>
    split_ifs at h with ht h1 h2 <;> cases h
    · exact congrArg (bytes32 o) (diffHeader_of_type ht h1)
    · exact congrArg (bytes32 o) (diffHeader_of_type ht h2)
  case huff =>
    split_ifs at h with ht
    cases h
    exact congrArg (bytes32 o) (huffHeader_of_type ht)
  all_goals
    split_ifs at h with ht
    cases h
    exact congrArg (bytes32 o) (typedHeader_of_type ht)

/-! ### LZ references (R90, R91) -/

/-- The indicator nibble selects the form that the bytes were written in. -/
theorem decodeLzxRef_encode {i : Instr} (hi : i.slot = .lzRef true) (hwf : i.wf = true) (o : ByteOrder)
    (rest : List Byte) : decodeLzxRef (encode o i ++ rest) = .ok i := by
  cases i with
  | lzxRef0 c d | lzxRef1 c d => simp [encode, decodeLzxRef]
  | lzxRefs ind d =>
    have hind : 2 ≤ ind.toNat := of_decide_eq_true hwf
    have h0 : ind ≠ 0#4 := by bv_omega
    have h1 : ind ≠ 1#4 := by bv_omega
    simp [encode, decodeLzxRef, h0, h1]
  | _ => cases hi

theorem encode_of_decodeLzssRef {bs : List Byte} {i : Instr} (h : decodeLzssRef bs = .ok i)
    (o : ByteOrder) : ∃ rest, bs = encode o i ++ rest := by
  unfold decodeLzssRef at h
  split at h <;> cases h
  next rest => exact ⟨rest, by simp [encode]⟩

theorem encode_of_decodeLzxRef {bs : List Byte} {i : Instr} (h : decodeLzxRef bs = .ok i)
    (o : ByteOrder) : ∃ rest, bs = encode o i ++ rest := by
  unfold decodeLzxRef at h
  split at h
  · cases h
  · split_ifs at h with h0 h1 <;> split at h <;> cases h
    · next rest => exact ⟨rest, by simp [encode, ← h0]⟩
    · next rest => exact ⟨rest, by simp [encode, ← h1]⟩
    · next rest => exact ⟨rest, by simp [encode]⟩

/-! ### RL flag bytes (R92) -/

theorem encode_decodeRun (o : ByteOrder) (f : Byte) : encode o (decodeRun f) = [f] := by
  have hf := runByte_join f
  unfold decodeRun
  split
  · next hk => rw [hk] at hf; exact congrArg ([·]) hf
  · next hk => rw [Bool.eq_false_of_not_eq_true hk] at hf; exact congrArg ([·]) hf

/-! ### Every slot -/

/-- Settles O1: commands and headers are written as words of their fields (`decode_encode_command`,
`decode_encode_header`), LZX references with the indicator of their form (`decodeLzxRef_encode`). -/
theorem decodeInvertsEncode : Obligations.DecodeInvertsEncode := by
  intro i o rest hwf
  cases i with
  | startLzss | startLzx | startHuff | startRl | startDiff | startRsvd5 | startRsvd6 | startRsvd7 =>
    exact decode_encode_command rfl o rest
  | hdrLzss | hdrLzx | hdrHuff | hdrRl | hdrDiff8 | hdrDiff16 => exact decode_encode_header rfl o rest
  | lzxRef0 | lzxRef1 | lzxRefs => exact decodeLzxRef_encode rfl hwf o rest
  | lzssRef c d => simp [Instr.slot, encode, decode, decodeLzssRef]
  | rlCopy n | rlFill n => simp [Instr.slot, encode, decode, decodeRun]
  | huffPath p => exact decode_hufPath_bytes32 o p rest
  | diff16Delta d => exact decode_delta16_bytes16 o d rest
  | lzFlags | lzssLit | lzxLit | huffTree | huffLeft | huffRight | huffLeaf | diff8Delta => rfl

/-- What the decoder accepts in a slot of the stream is written by the bytes it was read from (R99). -/
theorem encode_of_decode {slot : Slot} {o : ByteOrder} {bs : List Byte} {i : Instr} (hslot : slot ≠ .cmd)
    (h : decode slot o bs = .ok i) : ∃ rest, bs = encode o i ++ rest := by
  cases slot <;> simp only [decode] at h
  case cmd => exact absurd rfl hslot
  case hdr c =>
    split at h
    · next rest => exact ⟨rest, by rw [encode_of_decodeHeader h, bytes32_assemble32]; rfl⟩
    · cases h
  case lzRef ext =>
    cases ext with
    | false => exact encode_of_decodeLzssRef h o
    | true => exact encode_of_decodeLzxRef h o
  case rlRun =>
    split at h <;> cases h
    next f rest => exact ⟨rest, by rw [encode_decodeRun]; rfl⟩
  case hufPath =>
    split at h <;> cases h
    next rest => exact ⟨rest, by rw [encode, bytes32_assemble32]; rfl⟩
  case delta16 =>
    split at h <;> cases h
    next rest => exact ⟨rest, by rw [encode, bytes16_assemble16]; rfl⟩
  case lzLit ext =>
    split at h <;> cases h
    next rest => exact ⟨rest, by cases ext <;> rfl⟩
  case hufBit =>
    split at h
    · split_ifs at h with h0 h1 <;> cases h
      · next rest => exact ⟨rest, by rw [h0]; rfl⟩
      · next rest => exact ⟨rest, by rw [h1]; rfl⟩
    · cases h
  all_goals
    split at h <;> cases h
    next rest => exact ⟨rest, rfl⟩

/-- Settles O2: `decode_wf` and `decode_slot` with the bytes of `encode_of_decode`. -/
theorem encodeInvertsDecode : Obligations.EncodeInvertsDecode :=
  fun _ _ _ _ hslot h => ⟨decode_wf h, decode_slot h, encode_of_decode hslot h⟩

end Sys2Proof
end

section
/-! The statements of file 30 about command words and assembled references, and about the turns that read an
element: a command, a header of another type, a flag byte, a tree and a path bit. -/

namespace Sys2Proof

/-! ### Command words (30_encoding.md R81) -/

/-- The codecs that CTRL.CODEC names. -/
theorem codec_cases {codec : BitVec 3} (h : codec.toNat ≤ 4) :
    codec = 0#3 ∨ codec = 1#3 ∨ codec = 2#3 ∨ codec = 3#3 ∨ codec = 4#3 := by
  bv_omega

theorem Codec.ofBits_isSome {codec : BitVec 3} (h : codec.toNat ≤ 4) : (Codec.ofBits codec).isSome := by
  rcases codec_cases h with rfl | rfl | rfl | rfl | rfl <;> rfl

theorem exists_start {codec : BitVec 3} (h : codec.toNat ≤ 4) (e ie : Bool) :
    ∃ i, Machine.startFields i = some (codec, e, ie) := by
  rcases codec_cases h with rfl | rfl | rfl | rfl | rfl
  · exact ⟨.startLzss e ie, rfl⟩
  · exact ⟨.startLzx e ie, rfl⟩
  · exact ⟨.startHuff e ie, rfl⟩
  · exact ⟨.startRl e ie, rfl⟩
  · exact ⟨.startDiff e ie, rfl⟩

theorem exists_reserved {codec : BitVec 3} (h : 5 ≤ codec.toNat) (e ie : Bool) :
    ∃ i, Machine.reservedFields i = some (codec, e, ie) := by
  have hcodec : codec = 5#3 ∨ codec = 6#3 ∨ codec = 7#3 := by bv_omega
  rcases hcodec with rfl | rfl | rfl
  · exact ⟨.startRsvd5 e ie, rfl⟩
  · exact ⟨.startRsvd6 e ie, rfl⟩
  · exact ⟨.startRsvd7 e ie, rfl⟩

theorem commandFields_of_start {i : Instr} {f : BitVec 3 × Bool × Bool}
    (h : Machine.startFields i = some f) : Machine.commandFields i = some f := by
  rw [Machine.commandFields, h]
  rfl

/-- No command has both a codec and a reserved one. -/
theorem commandFields_of_reserved {i : Instr} {f : BitVec 3 × Bool × Bool}
    (h : Machine.reservedFields i = some f) : Machine.commandFields i = some f := by
  cases i with
  | startRsvd5 | startRsvd6 | startRsvd7 => exact h
  | _ => cases h

/-- Settles O4: START decides, and the fields name the command (`decodeCmd_of_fields`). -/
theorem commandWordFields : Obligations.CommandWordFields := by
  refine fun v => ⟨Machine.decodeCmd_notStart, fun hstart hcodec => ?_, fun hstart hcodec => ?_⟩
  · obtain ⟨i, hi⟩ := exists_start hcodec (v.getLsbD 4) (v.getLsbD 5)
    exact ⟨i, decodeCmd_of_fields hstart (commandFields_of_start hi), hi⟩
  · obtain ⟨i, hi⟩ := exists_reserved hcodec (v.getLsbD 4) (v.getLsbD 5)
    exact ⟨i, decodeCmd_of_fields hstart (commandFields_of_reserved hi), hi⟩

/-- Settles O3: the words are closed. -/
theorem specWordsDecode : Obligations.SpecWordsDecode := by
  unfold Obligations.SpecWordsDecode
  decide

/-! ### Header types (R82) -/

/-- The decoder's type check rejects what fails the arithmetic one. -/
theorem decodeHeader_typeMismatch {c : Codec} {W : Word} (h : Machine.typeMatches c W = false) :
    decodeHeader c W = .error .typeMismatch := by
  have hW := W.isLt
  cases c
  all_goals
    rw [Machine.typeMatches, beq_eq_false_iff_ne] at h
    rw [decodeHeader, if_neg]
    simp only [Config.diffType, field_eq_iff, BitVec.toNat_ofNat]
    omega

end Sys2Proof

namespace Sys2Proof.Machine

/-! ### Assembled references (R91, R98, R102) -/

/-- A field that holds a number less its bias gives the number back. -/
theorem ofNat_sub_toNat {w k n : Nat} (hk : k ≤ n) (h : n < 2 ^ w + k) :
    (BitVec.ofNat w (n - k)).toNat + k = n := by
  rw [BitVec.toNat_ofNat, Nat.mod_eq_of_lt (by omega), Nat.sub_add_cancel hk]

theorem dispLegal_iff (disp : Nat) : dispLegal disp = true ↔ 1 ≤ disp ∧ disp ≤ 4096 := by
  rw [dispLegal, Bool.and_eq_true, decide_eq_true_iff, decide_eq_true_iff, Config.dispMax]

theorem asmCheck_of {α : Type} {ok : Bool} (h : ok = true) (v : α) : asmCheck ok v = some v := if_pos h

/-- What a line was assembled to is an LZX reference of `n` bytes that holds the count and the displacement. -/
def HoldsReference (r : Option Instr) (n count disp : Nat) : Prop :=
  ∃ i, r = some i ∧ i.wf = true ∧ isLzxRef i = true ∧ refFields i = some (n, count, disp)

section

variable {count disp : Nat}

theorem dispField_holds (hd : 1 ≤ disp ∧ disp ≤ 4096) : (BitVec.ofNat 12 (disp - 1)).toNat + 1 = disp :=
  ofNat_sub_toNat hd.1 (by omega)

theorem asmRefxs_holds (hd : 1 ≤ disp ∧ disp ≤ 4096) (hlo : 3 ≤ count) (hhi : count ≤ 16) :
    HoldsReference (asmRefxs count disp) 2 count disp := by
  have hcount : (BitVec.ofNat 4 (count - 1)).toNat + 1 = count := ofNat_sub_toNat (by omega) (by omega)
  refine ⟨_, asmCheck_of (by simp [hlo, hhi, dispLegal_iff, hd]) _, decide_eq_true (by omega), rfl, ?_⟩
  rw [refFields, hcount, dispField_holds hd]

theorem asmRefx0_holds (hd : 1 ≤ disp ∧ disp ≤ 4096) (hlo : 17 ≤ count) (hhi : count ≤ 272) :
    HoldsReference (asmRefx0 count disp) 3 count disp := by
  have hcount : (BitVec.ofNat 8 (count - 17)).toNat + 17 = count := ofNat_sub_toNat hlo (by omega)
  refine ⟨_, asmCheck_of (by simp [hlo, hhi, dispLegal_iff, hd]) _, rfl, rfl, ?_⟩
  rw [refFields, hcount, dispField_holds hd]

theorem asmRefx1_holds (hd : 1 ≤ disp ∧ disp ≤ 4096) (hlo : 273 ≤ count) (hhi : count ≤ 65808) :
    HoldsReference (asmRefx1 count disp) 4 count disp := by
  have hcount : (BitVec.ofNat 16 (count - 273)).toNat + 273 = count := ofNat_sub_toNat hlo (by omega)
  refine ⟨_, asmCheck_of (by simp [hlo, hhi, dispLegal_iff, hd]) _, rfl, rfl, ?_⟩
  rw [refFields, hcount, dispField_holds hd]

end

/-- Settles O5: the form picked by the count is the one that holds it. -/
theorem assembledReferenceHoldsItsFields : Obligations.AssembledReferenceHoldsItsFields := by
  intro count disp h3 hmax hd1 hd2
  have hpick : HoldsReference (asmRefx count disp)
      (if count ≤ 16 then 2 else if count ≤ 272 then 3 else 4) count disp := by
    unfold asmRefx
    split_ifs with h16 h272
    · exact asmRefxs_holds ⟨hd1, hd2⟩ h3 h16
    · exact asmRefx0_holds ⟨hd1, hd2⟩ (by omega) h272
    · exact asmRefx1_holds ⟨hd1, hd2⟩ (by omega) hmax
  obtain ⟨i, hasm, hwf, href, hfields⟩ := hpick
  exact ⟨i, _, hasm, hwf, href, hfields, rfl⟩

/-! ### Commands (41_job_control.md R110 to R112) -/

theorem hostRegWrite_command {v : Word} {i : Instr} (h : decodeCmd v = .ok i) (s : State) :
    hostRegWrite 0 32 v s = exec i s := by
  simp [hostRegWrite, regAccessLegal, Reg.ofAddr, h]

/-- Settles O7: offset 0 is CTRL. -/
theorem stepRunsCommand : Obligations.StepRunsCommand :=
  fun _ _ _ _ hturn h => (step_regWrite hturn).trans (hostRegWrite_command h _)

theorem exec_command_idle {i : Instr} {codec : BitVec 3} {e ie : Bool} {s : State}
    (h : commandFields i = some (codec, e, ie)) (hidle : s.phase = .idle) :
    exec i s = .next (acceptStart codec e ie s) := by
  rw [exec_command h, startJob, busy_of_idle hidle]
  rfl

/-- An entry form that succeeds (R112). -/
theorem enterStream_placed {s : State} (hcodec : s.jcodec.toNat ≤ 4)
    (hin : s.jentry = true → s.offset.toNat < s.bufSize.toNat) :
    enterStream s = { s with pos := .header, cursor := if s.jentry then s.offset else s.cursor } := by
  have hsome := Codec.ofBits_isSome hcodec
  rcases enterStream_cases s with ⟨hc, _⟩ | ⟨_, hj, he⟩ | ⟨_, hj, hb, _⟩ | ⟨_, hj, _, he⟩
  · rw [hc] at hsome; cases hsome
  · rw [he, hj]; rfl
  · exact absurd (hin hj) hb.not_gt
  · rw [he, hj]; rfl

/-- Settles O8: what an accepted START writes is read off `acceptStart`; the turn after it is its entry form. -/
theorem startLatchesJob : Obligations.StartLatchesJob := by
  intro i codec e ie s hf hidle
  refine ⟨_, exec_command_idle hf hidle, rfl, rfl, rfl, rfl, rfl, rfl, rfl, rfl, rfl, rfl, rfl, rfl, rfl, rfl,
    rfl, rfl, rfl, rfl, rfl, rfl, rfl, rfl, rfl, rfl, .of_eq rfl rfl rfl, .of_eq rfl rfl rfl,
    .of_eq rfl rfl rfl, ⟨rfl, rfl⟩, ⟨rfl, rfl⟩, ⟨rfl, rfl, rfl, rfl, rfl, rfl, rfl, rfl, rfl⟩, ⟨rfl, rfl⟩,
    ⟨rfl, rfl, rfl⟩, fun rest hturn hcodec hin => ?_⟩
  rw [step_entryTurn (s := acceptStart codec e ie s) hturn rfl rfl]
  exact congrArg _ (enterStream_placed (s := takeTurn rest (acceptStart codec e ie s)) hcodec hin)

/-! ### A header of another type (R114) -/

/-- A header that lies in the buffer is decoded from the value of Read32. -/
theorem decode_header_of_read32 {s s1 : State} {W : Word} (d : Codec) (h : read32 s = .ok W s1) :
    decode (.hdr d) s.jorder (window 4 s) = decodeHeader d W := by
  rcases read32_cases s with ⟨hin, hr⟩ | ⟨_, hr⟩ <;> cases hr.symm.trans h
  obtain ⟨rest, hw⟩ := window_eq_srcBytes_append (n := 4) le_rfl hin
  rw [hw]
  rfl

/-- A job at its header reads a header, and is not complete. -/
theorem atHeader_reads {s : State} (hpos : s.pos = .header) (c : Codec) :
    slotOf c s = .hdr c ∧ bodyDone s = false := by
  simp [slotOf, bodyDone, hpos]

/-- Settles O14: the fetch answers TYPE at the header, its 4 bytes read. -/
theorem headerTypeMismatchFails : Obligations.HeaderTypeMismatchFails := by
  intro s s1 rest c W hturn hrun hpos hc hread htype
  obtain ⟨hslot, hdone⟩ := atHeader_reads hpos c
  have hreject : decode (slotOf c s) s.jorder (elementBytes s (slotOf c s)) = .error .typeMismatch := by
    rw [hslot]
    exact (decode_header_of_read32 c hread).trans (decodeHeader_typeMismatch htype)
  have hf : fetch s = .failed .type s.cursor 4 := fetch_of_reject hc (by rw [hslot]; nofun) hreject
  have hfail := step_fetch_failed hturn hrun (by rw [hpos]; nofun) hdone hf
  rwa [advance_cursor_eq] at hfail

/-! ### Elements that go on -/

/-- What no element after the header writes is unchanged outside the codec's own state. -/
theorem SameOutside.of_beyondElement {s t : State} (h : beyondElement t = beyondElement s) :
    SameOutside s t := by
  have hb : beyondBlock t = beyondBlock s := (congrArg beyondBlock h :)
  exact ⟨.of_beyondBlock hb,
    ⟨(congrArg State.done h :), (congrArg State.err h :), (congrArg State.errCode h :),
      (congrArg State.outLen h :), (congrArg State.outCount h :), (congrArg State.errOffset h :)⟩,
    .of_beyondBlock hb, (congrArg State.phase h :), .of_beyondBlock hb,
    ⟨(congrArg State.W h :), (congrArg State.L h :)⟩, .of_beyondBlock hb⟩

/-- Settles O20: a flag byte is one read and the two registers of the LZ state. -/
theorem flagByteLoads : Obligations.FlagByteLoads := by
  intro f s
  exact ⟨_, rfl, rfl, rfl, advance_cursor_eq 1 s, rfl, rfl, .of_beyondElement rfl, .of_eq rfl rfl rfl,
    .of_eq rfl rfl rfl, ⟨rfl, rfl, rfl, rfl, rfl, rfl, rfl, rfl, rfl⟩, rfl, rfl⟩

/-! ### Huffman (43_huffman.md R163 to R166) -/

/-- A loaded tree: the size byte, the bytes of SRC after it, and TREE past them as it was (R163). -/
theorem treeByte_loaded {s t : State} {n : Byte} {c len : Nat}
    (hm : t.treeMem = (s.treeMem.write 0 n).writeList 1 (srcBytes s c len)) (hd : t.treeDraw = s.treeDraw)
    (hi : t.inst = s.inst) (k : Nat) :
    treeByte t k = if k = 0 then n else if k < 1 + len then srcByte s (c + (k - 1)) else treeByte s k := by
  simp only [treeByte, hm, hd, hi, Memory.read_writeList, Memory.read_write, srcBytes_length]
  by_cases h0 : k = 0
  · simp [h0]
  · by_cases hk : k < 1 + len
    · rw [if_pos ⟨by omega, hk⟩, if_neg h0, if_pos hk, srcBytes_getElem? _ _ _ _ (by omega)]
      rfl
    · rw [if_neg (by omega), if_neg h0, if_neg h0, if_neg hk]

/-- Settles O31: the load of `execHuffTree_cases`, its bytes by `treeByte_loaded`. -/
theorem treeLoads : Obligations.TreeLoads := by
  intro n s hin
  have hsize : treeSize n = (n.toNat + 1) * 2 := rfl
  have hcur : (advance 1 s).cursor.toNat = s.cursor.toNat + 1 := advance_cursor_toNat (by omega)
  obtain ⟨t, ht, ⟨hb, he⟩ | ⟨hb, _⟩⟩ := execHuffTree_cases n s
  · have hbyte := treeByte_loaded (s := s) (t := t) (by rw [he]; rfl) (by rw [he]; rfl) (by rw [he]; rfl)
    have hend : t.cursor.toNat = s.cursor.toNat + treeSize n := by
      have h2 := advance_cursor_toNat (s := advance 1 s) hb
      rw [he]
      simp only [restart]
      omega
    have hkept : beyondElement t = beyondElement s := by simp [he, beyondElement, beyondBlock]
    have hout : SameOutExcept 0 0 s t := .of_eq (by simp [he]) (by simp [he]) (by simp [he])
    have hlz : SameLz s t := by simp [he, SameLz]
    have hdiff : SameDiff s t := by simp [he, SameDiff]
    refine ⟨t, ht, by rw [he]; rfl, hbyte 0, fun k h1 hk => ?_, fun k hk => ?_, hend, ?_⟩
    · rw [hbyte, if_neg (by omega), if_pos (by omega), hcur]
      congr 1
      omega
    · rw [hbyte, if_neg (by omega), if_neg (by omega)]
    · refine ⟨?_, ?_, ?_, ?_, ?_, ?_, ?_, ?_, ?_, ?_, .of_beyondElement hkept, hout, hlz, hdiff⟩
        <;> simp [he]
  · rw [hcur] at hb
    omega

theorem exec_pathBit (right : Bool) (s : State) :
    exec (if right then .huffRight else .huffLeft) s = .next (traverse right s) := by
  cases right <;> rfl

/-- Settles O35: the child is `childAddr_eq`, and in the tree the traversal goes to it. -/
theorem pathBitGoesToChild : Obligations.PathBitGoesToChild := by
  intro right s node c hnode hc hlt
  subst hnode
  have hchild : childAddr s.a (treeByte s s.a) right = c := by
    rw [hc, childAddr_eq, Bool.toNat, Bool.cond_eq_ite]
  rcases traverse_cases right s with ⟨hout, _⟩ | ⟨_, ht⟩
  · omega
  · exact ⟨_, (exec_pathBit right s).trans (congrArg _ ht), hchild, rfl, rfl, rfl, rfl, rfl, rfl, rfl, rfl,
      rfl, rfl, rfl, .of_beyondElement rfl, .of_eq rfl rfl rfl, .of_eq rfl rfl rfl, ⟨rfl, rfl⟩, ⟨rfl, rfl⟩⟩

end Sys2Proof.Machine
end

section
/-! Job control (41_job_control.md): a START whose codec check or entry form fails, the headers, the completion,
and the body of an 8-bit Diff job. -/

namespace Sys2Proof.Machine

/-! ### A START that fails (R110 to R112, R124) -/

/-- The record of a job that fails in the turn after its START, with nothing read and nothing written
(R110, R118, R229). -/
def FailedAtStart (codec : BitVec 3) (e ie : Bool) (code : BitVec 4) (off : Word) (rest : List Turn)
    (s u : State) : Prop :=
  u.phase = .idle ∧ u.err = true ∧ u.done = false ∧ u.errCode = code ∧
    u.errOffset = off ∧ u.cursor = s.cursor ∧ u.outLen = 0#24 ∧ u.outCount = 0#25 ∧
    u.ctrlCodec = codec ∧ u.ctrlEntry = e ∧ u.ctrlIe = ie ∧ u.ofsErr = s.ofsErr ∧
    u.bufSize = s.bufSize ∧ u.offset = s.offset ∧ u.order = s.order ∧ u.outCap = s.outCap ∧
    u.maxSrc = s.maxSrc ∧ u.inst = s.inst ∧ SameSrc s u ∧ SameTreeFrom 0 s u ∧
    SameHostSide (takeTurn rest s) u ∧ ForgottenOut s u

/-- CURSOR of an accepted job is the one saved, so both entry forms end with it (R117). -/
theorem endCursor_acceptStart (codec : BitVec 3) (e ie : Bool) (rest : List Turn) (s : State) :
    endCursor (takeTurn rest (acceptStart codec e ie s)) = s.cursor :=
  ite_self _

/-- A START whose first turn raises an error ends with the record of that error. -/
theorem start_fails {i : Instr} {codec : BitVec 3} {e ie : Bool} {s : State} {rest : List Turn} {er : JobError}
    {off : Word} (hf : commandFields i = some (codec, e, ie)) (hidle : s.phase = .idle)
    (hturn : BlockTurn s rest)
    (hraise : enterStream (takeTurn rest (acceptStart codec e ie s)) =
      raise er off (takeTurn rest (acceptStart codec e ie s))) :
    ∃ t u, exec i s = .next t ∧ step t = .next u ∧ FailedAtStart codec e ie er.code off rest s u := by
  have hstep := step_entryTurn (s := acceptStart codec e ie s) hturn rfl rfl
  rw [hraise] at hstep
  exact ⟨_, _, exec_command_idle hf hidle, hstep, rfl, rfl, rfl, rfl, rfl, endCursor_acceptStart .., rfl, rfl, rfl,
    rfl, rfl, rfl, rfl, rfl, rfl, rfl, rfl, rfl, fun _ => rfl, .of_eq rfl rfl rfl, ⟨rfl, rfl, rfl⟩, fun _ => rfl⟩

theorem startFields_codec {i : Instr} {codec : BitVec 3} {e ie : Bool} (h : startFields i = some (codec, e, ie)) :
    (Codec.ofBits codec).isSome := by
  cases i <;> cases h <;> rfl

theorem reservedFields_codec {i : Instr} {codec : BitVec 3} {e ie : Bool}
    (h : reservedFields i = some (codec, e, ie)) : Codec.ofBits codec = none := by
  cases i <;> cases h <;> rfl

/-- Settles O9: the codec check passes and the entry form does not. -/
theorem startOffsetPastBufferFails : Obligations.StartOffsetPastBufferFails := by
  intro i codec ie s rest hf hidle hturn hpast
  have hcodec := startFields_codec hf
  refine start_fails (er := .bounds) (commandFields_of_start hf) hidle hturn ?_
  rcases enterStream_cases (takeTurn rest (acceptStart codec true ie s)) with
    ⟨hnone, _⟩ | ⟨_, hcursor, _⟩ | ⟨_, _, _, he⟩ | ⟨_, _, hlt, _⟩
  · cases hcodec.symm.trans (congrArg Option.isSome hnone)
  · cases hcursor
  · exact he
  · exact absurd hlt hpast.not_gt

/-- Settles O10: the codec check comes before the entry form. -/
theorem reservedCodecFails : Obligations.ReservedCodecFails := by
  intro i codec e ie s rest hf hidle hturn
  have hcodec : ¬ (Codec.ofBits codec).isSome := by simp [reservedFields_codec hf]
  refine start_fails (er := .badCodec) (commandFields_of_reserved hf) hidle hturn ?_
  rcases enterStream_cases (takeTurn rest (acceptStart codec e ie s)) with
    ⟨_, he⟩ | ⟨hsome, _⟩ | ⟨hsome, _⟩ | ⟨hsome, _⟩
  · exact he
  all_goals exact absurd hsome hcodec

/-! ### The headers (R114, R115) -/

/-- A job whose header has been read, before the capacity check: `W`, and the depth, mode and accumulator `D`, `M`
and `acc` that the header leaves (42_lz.md R130, R131, R133; 43_huffman.md R160; 44_rl.md R190; 45_diff.md R200,
R203). -/
def headerTaken (c : Codec) (len : BitVec 24) (W : Word) (D M : BitVec 4) (acc : BitVec 16) (s : State) : State :=
  { s with
    cursor := s.cursor + 4#32
    W := W
    L := len
    pos := if c = .huff then .tree else .body
    fbit := if c = .lzss ∨ c = .lzx then 0 else s.fbit
    D := D
    M := M
    acc := acc }

/-- What the header `i` of codec `c` makes of the word, the depth, the mode and the accumulator. -/
structure HeaderValues (i : Instr) (c : Codec) (len : BitVec 24) (s : State) (W : Word) (D M : BitVec 4)
    (acc : BitVec 16) : Prop where
  word : encode .big i = bytes32 .big W
  depth : ∀ d, i = .hdrHuff d len → D = d
  sameDepth : c ≠ .huff → D = s.D
  diff8 : i = .hdrDiff8 len → M = 1#4 ∧ acc = 0#16
  diff16 : i = .hdrDiff16 len → M = 2#4 ∧ acc = 0#16
  sameDiff : c ≠ .diff → M = s.M ∧ acc = s.acc

theorem takeHeader_eq (W : Word) (len : BitVec 24) (s : State) :
    takeHeader W len s = { s with cursor := s.cursor + 4#32, W := W, L := len } := by
  rw [← advance_cursor_eq 4 s]
  rfl

/-- A header, of a legal depth if it has one, is read and then checked against OUT_CAP. -/
theorem exec_header {i : Instr} {c : Codec} {len : BitVec 24} (s : State) (h : headerFields i = some (c, len))
    (hdepth : ∀ d, i = .hdrHuff d len → d = 1#4 ∨ d = 2#4 ∨ d = 4#4 ∨ d = 8#4) :
    ∃ W D M acc, HeaderValues i c len s W D M acc ∧
      exec i s = .next (openOutput s.cursor (headerTaken c len W D M acc s)) := by
  cases i with
  | hdrLzss | hdrLzx | hdrRl =>
    cases h
    refine ⟨_, s.D, s.M, s.acc, ⟨rfl, nofun, fun _ => rfl, nofun, nofun, fun _ => ⟨rfl, rfl⟩⟩, ?_⟩
    simp only [exec, execHdrLzss, execHdrLzx, execHdrRl, takeHeader_eq]
    rfl
  | hdrDiff8 =>
    cases h
    refine ⟨_, s.D, 1#4, 0#16, ⟨rfl, nofun, fun _ => rfl, fun _ => ⟨rfl, rfl⟩, nofun, absurd rfl⟩, ?_⟩
    simp only [exec, execHdrDiff8, takeHeader_eq]
    rfl
  | hdrDiff16 =>
    cases h
    refine ⟨_, s.D, 2#4, 0#16, ⟨rfl, nofun, fun _ => rfl, nofun, fun _ => ⟨rfl, rfl⟩, absurd rfl⟩, ?_⟩
    simp only [exec, execHdrDiff16, takeHeader_eq]
    rfl
  | hdrHuff depth l =>
    cases h
    refine ⟨_, depth, s.M, s.acc, ⟨rfl, ?_, absurd rfl, nofun, nofun, fun _ => ⟨rfl, rfl⟩⟩, ?_⟩
    · intro d hd
      cases hd
      rfl
    · simp only [exec, execHdrHuff, takeHeader_eq, if_pos ((depthLegal_iff depth).mpr (hdepth depth rfl))]
      rfl
  | _ => cases h

/-- Settles O11: the header is read, and its length fits. -/
theorem headerAccepted : Obligations.HeaderAccepted := by
  intro i c len s hf hdepth hfits
  obtain ⟨W, D, M, acc, hv, hexec⟩ := exec_header s hf hdepth
  have hopen : openOutput s.cursor (headerTaken c len W D M acc s) =
      { headerTaken c len W D M acc s with outLen := len, out := 0 } := if_neg hfits.not_gt
  have hkept : beyondBlock { headerTaken c len W D M acc s with outLen := len, out := 0 } = beyondBlock s := rfl
  exact ⟨_, hexec.trans (congrArg _ hopen), rfl, hv.word, rfl, rfl, rfl, rfl, rfl, hv.depth, hv.sameDepth,
    hv.diff8, hv.diff16, hv.sameDiff, .of_beyondBlock hkept, rfl, rfl, rfl, rfl, rfl, .of_beyondBlock hkept, rfl,
    .of_beyondBlock hkept, .of_eq rfl rfl rfl, .of_eq rfl rfl rfl, rfl, rfl, rfl, rfl, rfl, rfl, rfl, rfl, rfl,
    .of_beyondBlock hkept⟩

/-- Settles O12: the header is read, and its length does not fit. -/
theorem headerOverCapacityFails : Obligations.HeaderOverCapacityFails := by
  intro i c len s hf hdepth hover
  obtain ⟨W, D, M, acc, -, hexec⟩ := exec_header s hf hdepth
  have hopen : openOutput s.cursor (headerTaken c len W D M acc s) =
      raise .capacity s.cursor (headerTaken c len W D M acc s) := if_pos hover
  have hkept : beyondBlock (headerTaken c len W D M acc s) = beyondBlock s := rfl
  exact ⟨_, hexec.trans (congrArg _ hopen),
    raise_failedJob .capacity s.cursor (.of_beyondBlock hkept) (.of_beyondBlock hkept) (.of_beyondBlock hkept)
      (.of_beyondBlock hkept) rfl rfl (.of_eq rfl rfl rfl) rfl⟩

/-! ### The completion (R116 to R118) -/

/-- Settles O42: the turn is the completion, whose record is `finish`. -/
theorem completionRecord : Obligations.CompletionRecord := by
  intro s rest hturn hrun hdone
  have hpos : s.pos ≠ .entry := by rw [bodyDone_pos hdone]; nofun
  have hstep := (step_blockTurn hturn).trans (blockStep_finish (s := takeTurn rest s) hrun hpos hdone)
  have hkept : beyondBlock (finish (takeTurn rest s)) = beyondBlock (takeTurn rest s) := rfl
  refine ⟨_, hstep, rfl, rfl, rfl, rfl, rfl, rfl, ?_, rfl, (SameSetup.of_beyondBlock hkept :),
    (SameLatch.of_beyondBlock hkept :), (SameSrc.of_beyondBlock hkept :), .of_eq rfl rfl rfl, .of_eq rfl rfl rfl,
    rfl, rfl, rfl⟩
  exact BitVec.toNat_setWidth_of_le (by decide)

/-! ### The body of an 8-bit Diff job (45_diff.md R201, R203) -/

theorem stepN_succ {s t : State} (n : Nat) (h : step s = .next t) : stepN (n + 1) s = stepN n t := by
  rw [stepN, h]

/-- A block left alone moves at every step. -/
theorem step_alone {s : State} (h : s.turns = []) : step s = blockStep s := by
  rw [step, h]

/-- A running sum may be begun one delta later. -/
theorem runningSum_succ (s : State) (c : Nat) (v : Byte) (k : Nat) :
    runningSum s c v (k + 1) = runningSum s (c + 1) (v + srcByte s c) k := by
  induction k with
  | zero => rfl
  | succ k ih =>
    have hc : c + (k + 1 + 1) = c + 1 + (k + 1) := by omega
    rw [runningSum, ih, runningSum, hc]

theorem runningSum_sameSrc {s t : State} (h : SameSrc s t) (c : Nat) (v : Byte) (k : Nat) :
    runningSum t c v k = runningSum s c v k := by
  induction k with
  | zero => rw [runningSum, runningSum, h]
  | succ k ih => rw [runningSum, runningSum, ih, h]

/-- The state after an 8-bit delta (R201). -/
def afterDelta8 (s : State) : State :=
  emit (s.acc.extractLsb' 0 8 + srcByte s s.cursor.toNat)
    { advance 1 s with acc := (s.acc.extractLsb' 0 8 + srcByte s s.cursor.toNat).setWidth 16 }

/-- The 8-bit mode reads back the byte it left in the accumulator. -/
theorem afterDelta8_acc (s : State) :
    (afterDelta8 s).acc.extractLsb' 0 8 = s.acc.extractLsb' 0 8 + srcByte s s.cursor.toNat := by
  generalize hv : s.acc.extractLsb' 0 8 + srcByte s s.cursor.toNat = v
  have hacc : (afterDelta8 s).acc = v.setWidth 16 := by rw [← hv]; rfl
  have := v.isLt
  rw [hacc, field_eq_iff, BitVec.toNat_setWidth_of_le (by decide)]
  omega

/-- A turn of an 8-bit Diff job with output left and a delta in the buffer. -/
theorem step_delta8 {s : State} (halone : s.turns = []) (hrun : s.phase = .run) (hpos : s.pos = .body)
    (hcodec : s.jcodec = 4#3) (hmode : s.M = 1#4) (hout : s.out < s.L.toNat)
    (hin : s.cursor.toNat + 1 ≤ s.bufSize.toNat) : step s = .next (afterDelta8 s) := by
  have hslot : slotOf .diff s = .delta8 := by simp [slotOf, hpos, hmode]
  have hc : Codec.ofBits s.jcodec = some .diff := by rw [hcodec]; rfl
  have hdone : bodyDone s = false := by simp [bodyDone, hout.ne]
  obtain ⟨rest, hw⟩ := window_eq_srcBytes_append (n := 4) (by decide) hin
  have hf : fetch s = .element (.diff8Delta (srcByte s s.cursor.toNat)) :=
    fetch_of_decode hc (by rw [hslot]; nofun) (by rw [hslot]; exact congrArg (decode .delta8 s.jorder) hw)
  rw [step_alone halone, blockStep_element hrun (by rw [hpos]; nofun) hdone hf]
  rfl

/-- Settles O41, by induction on the deltas left: the first writes its sum, and the rest go on from it. -/
theorem diff8BodyWritesRunningSums : Obligations.Diff8BodyWritesRunningSums := by
  intro n
  induction n with
  | zero =>
    intro s halone hrun hpos hcodec _ hout _
    have hdone : bodyDone s = true := by simp [bodyDone, hpos, hout.symm, hcodec, Codec.bits]
    have hstep : step s = .next (finish s) :=
      (step_alone halone).trans (blockStep_finish hrun (by rw [hpos]; nofun) hdone)
    refine ⟨finish s, stepN_succ 0 hstep, rfl, rfl, rfl, BitVec.toNat_setWidth_of_le (by decide), ?_, nofun,
      .of_eq rfl rfl rfl⟩
    exact apply_ite BitVec.toNat ..
  | succ n ih =>
    intro s halone hrun hpos hcodec hmode hout hin
    have hstep := step_delta8 halone hrun hpos hcodec hmode (by omega) (by omega)
    have hcur : (afterDelta8 s).cursor.toNat = s.cursor.toNat + 1 := advance_cursor_toNat (by omega)
    have hnext : (afterDelta8 s).out = s.out + 1 := rfl
    have hlen : (afterDelta8 s).L.toNat = s.L.toNat := rfl
    have hbuf : (afterDelta8 s).bufSize.toNat = s.bufSize.toNat := rfl
    have hsrc : SameSrc s (afterDelta8 s) := fun _ => rfl
    obtain ⟨t, hrest, hidle, hdone, herr, hcount, hend, hsums, hkept⟩ :=
      ih (afterDelta8 s) halone hrun hpos hcodec hmode (by omega) (by omega)
    refine ⟨t, (stepN_succ _ hstep).trans hrest, hidle, hdone, herr, hcount, ?_, fun k hk => ?_, fun j hj => ?_⟩
    · rw [hend, hcur, Nat.add_assoc, Nat.add_comm 1 n]
      rfl
    · cases k with
      | zero => exact (hkept s.out (.inl (by omega))).trans (outRead_emit_self ..)
      | succ k =>
        have hsum := hsums k (by omega)
        rw [hnext, hcur, afterDelta8_acc, runningSum_sameSrc hsrc, ← runningSum_succ, Nat.add_assoc,
          Nat.add_comm 1 k] at hsum
        exact hsum
    · exact (hkept j (by omega)).trans (outRead_emit_ne (s := { advance 1 s with acc := _ }) _
        (show j ≠ s.out by omega))

end Sys2Proof.Machine
end

section
/-! How a job comes to its end: what a turn at an element consumes (70_reset_and_hazards.md R254), and the record
of a turn that ends the job (41_job_control.md R117, R118). -/

namespace Sys2Proof.Machine

/-! ### Elements of the LZ, RL and Diff bodies -/

theorem elementLength_pos (slot : Slot) (i : Instr) : 0 < elementLength slot i := by
  unfold elementLength
  split <;> decide

theorem bits_ne_huff {c : Codec} (h : c ≠ .huff) : c.bits ≠ Codec.huff.bits := by
  cases c with
  | huff => exact absurd rfl h
  | _ => decide

/-- An element of an LZ, RL or Diff body is found in such a body, and read whole from the buffer (R61, R104). -/
theorem fetch_plain {s : State} {i : Instr} (hf : fetch s = .element i) (hi : isPlainBody i.slot = true) :
    s.pos = .body ∧ s.jcodec ≠ Codec.huff.bits ∧ s.cursor.toNat + elementLength i.slot i ≤ s.bufSize.toNat := by
  obtain ⟨c, hc, hslot, -, -, -, hin⟩ := fetch_element hf
  rw [← hslot] at hin
  rcases slotOf_cases c s with ⟨_, hq⟩ | ⟨_, hq⟩ | ⟨_, hq⟩ | ⟨_, _, _, hq⟩ | ⟨_, _, _, hq⟩ | ⟨hp, hne, _⟩
  case inr.inr.inr.inr.inr =>
    refine ⟨hp, Codec.eq_bits_of_ofBits hc ▸ bits_ne_huff hne, hin ?_ ?_⟩ <;>
      exact fun he => by rw [he] at hi; cases hi
  all_goals
    rw [hslot, hq] at hi
    cases hi

/-- The work of an element of an LZ, RL or Diff body, whatever the output index: it stays in the body, consumes
bytes of the buffer and no bit of a path word, and never moves the output index back. -/
structure Consumes (s t : State) : Prop where
  kept : beyondElement t = beyondElement s
  pos : t.pos = s.pos
  bits : t.bitsLeft = s.bitsLeft
  cursor : s.cursor.toNat < t.cursor.toNat
  out : s.out ≤ t.out

namespace Consumes

variable {s t : State}

theorem phase (h : Consumes s t) : t.phase = s.phase := (congrArg State.phase h.kept :)
theorem L (h : Consumes s t) : t.L = s.L := (congrArg State.L h.kept :)

/-- A read of the first bytes of an element, all of them in the buffer (R65). -/
theorem advance {n : Nat} (hn : 0 < n) (h : s.cursor.toNat + n ≤ s.bufSize.toNat) :
    Consumes s (advance n s) where
  kept := rfl
  pos := rfl
  bits := rfl
  cursor := by rw [advance_cursor_toNat h]; omega
  out := le_rfl

theorem takeBlock {n : Nat} (hn : 0 < n) (h : s.cursor.toNat + n ≤ s.bufSize.toNat) :
    Consumes s (takeBlock n s) :=
  { Consumes.advance hn h with }

theorem delta {n : Nat} (v : BitVec 16) (hn : 0 < n) (h : s.cursor.toNat + n ≤ s.bufSize.toNat) :
    Consumes s { Machine.advance n s with acc := v } :=
  { Consumes.advance hn h with }

theorem emit (h : Consumes s t) (b : Byte) : Consumes s (emit b t) :=
  { h with out := h.out.trans (Nat.le_succ _) }

theorem copyBack (h : Consumes s t) (disp n : Nat) : Consumes s (copyBack disp n t) := by
  rw [copyBack_eq]
  exact { h with out := h.out.trans (Nat.le_add_right ..) }

theorem emitRun (h : Consumes s t) (b : Byte) (n : Nat) : Consumes s (emitRun b n t) := by
  rw [emitRun_eq]
  exact { h with out := h.out.trans (Nat.le_add_right ..) }

theorem read (h : Consumes s t) {n : Nat} (hin : t.cursor.toNat + n ≤ t.bufSize.toNat) :
    Consumes s (Machine.advance n t) :=
  { h with cursor := by rw [advance_cursor_toNat hin]; exact h.cursor.trans_le (Nat.le_add_right ..) }

theorem copyRun (h : Consumes s t) {n : Nat} (hin : t.cursor.toNat + n ≤ t.bufSize.toNat) :
    Consumes s (copyRun n t) := by
  rw [copyRun_eq n t hin]
  exact { h.read hin with out := h.out.trans (Nat.le_add_right ..) }

end Consumes

/-- A back-reference whose bytes are in the buffer (42_lz.md R136 to R141). -/
theorem backRef_consumes {clamp : Bool} {n count disp : Nat} {s : State} (hn : 0 < n)
    (hin : s.cursor.toNat + n ≤ s.bufSize.toNat) : GoesOnOrFails Consumes s (backRef clamp n count disp s) := by
  have ht := Consumes.takeBlock hn hin
  rcases backRef_cases clamp n count disp s with ⟨_, he⟩ | ⟨_, _, _, he⟩ | ⟨_, _, _, he⟩ | ⟨_, _, he⟩ <;> rw [he]
  · exact .inr ⟨_, _, _, ht, rfl⟩
  · exact .inl (ht.copyBack ..)
  · exact .inr ⟨_, _, _, ht, rfl⟩
  · exact .inl (ht.copyBack ..)

/-- What an element of an LZ, RL or Diff body can come to when its bytes are in the buffer, whatever the output
index. -/
theorem exec_consumes {i : Instr} {s t : State} (hi : isPlainBody i.slot = true)
    (hc : s.cursor.toNat + elementLength i.slot i ≤ s.bufSize.toNat) (h : exec i s = .next t) :
    GoesOnOrFails Consumes s t := by
  cases i with
  | lzFlags f => cases h; exact .inl { Consumes.advance Nat.one_pos hc with }
  | lzssLit b | lzxLit b => cases h; exact .inl ((Consumes.takeBlock Nat.one_pos hc).emit b)
  | lzssRef c d | lzxRef0 c d | lzxRef1 c d | lzxRefs ind d =>
    cases h
    exact backRef_consumes (Nat.succ_pos _) hc
  | rlCopy n =>
    have hr := Consumes.advance Nat.one_pos hc
    cases h
    split
    · exact .inr ⟨_, _, _, hr, rfl⟩
    · rcases copyRun_cases (Nat.succ_pos n.toNat) (advance 1 s) with hall | ⟨_, he⟩ | ⟨m, _, hcut, he⟩
      · exact .inl (hr.copyRun hall)
      · exact .inr ⟨_, _, _, hr, he⟩
      · exact .inr ⟨_, _, _, hr.copyRun hcut.le, he⟩
  | rlFill n =>
    have hr := Consumes.advance Nat.one_pos hc
    cases h
    split
    · exact .inr ⟨_, _, _, hr, rfl⟩
    · rcases read8_cases (advance 1 s) with ⟨hin, h8⟩ | ⟨_, h8⟩ <;> rw [h8]
      · exact .inl ((hr.read hin).emitRun ..)
      · exact .inr ⟨_, _, _, hr, rfl⟩
  | diff8Delta d => cases h; exact .inl ((Consumes.delta _ Nat.one_pos hc).emit _)
  | diff16Delta d =>
    have hr := (Consumes.delta (s.acc + d) Nat.two_pos hc).emit ((s.acc + d).extractLsb' 8 8)
    cases h
    split
    · exact .inl (hr.emit _)
    · exact .inl hr
  | _ => cases hi

/-! ### Every element -/

/-- How a turn at the element `i` that goes on moves what bounds the job: the place in the grammar of R104, CURSOR,
the bits left of the path word, and the output. -/
inductive ElementTurn (s t : State) (i : Instr) : Prop
  | header (c : Codec) (slot : i.slot = .hdr c) (place : s.pos = .header)
      (next : t.pos = .tree ∧ s.jcodec = Codec.huff.bits ∨ t.pos = .body ∧ s.jcodec ≠ Codec.huff.bits)
      (inBuffer : s.cursor.toNat < s.bufSize.toNat) (cursor : s.cursor.toNat < t.cursor.toNat)
      (bits : t.bitsLeft = s.bitsLeft) (out : t.out = 0)
  | tree (slot : i.slot = .hufTree) (place : s.pos = .tree) (next : t.pos = .body) (len : t.L = s.L)
      (inBuffer : s.cursor.toNat < s.bufSize.toNat) (cursor : s.cursor.toNat < t.cursor.toNat)
      (bits : t.bitsLeft = 0) (out : t.out = s.out)
  | path (slot : i.slot = .hufPath) (place : s.pos = .body) (next : t.pos = .body) (len : t.L = s.L)
      (codec : s.jcodec = Codec.huff.bits) (inBuffer : s.cursor.toNat + 4 ≤ s.bufSize.toNat)
      (cursor : t.cursor.toNat = s.cursor.toNat + 4) (noBits : s.bitsLeft = 0) (bits : t.bitsLeft = 32)
      (out : t.out = s.out)
  | bit (slot : i.slot = .hufBit) (place : s.pos = .body) (next : t.pos = .body ∨ t.pos = .leaf)
      (len : t.L = s.L) (codec : s.jcodec = Codec.huff.bits) (cursor : t.cursor = s.cursor)
      (bits : t.bitsLeft + 1 = s.bitsLeft) (out : t.out = s.out)
  | leaf (slot : i.slot = .hufLeaf) (place : s.pos = .leaf) (next : t.pos = .body) (len : t.L = s.L)
      (cursor : t.cursor = s.cursor) (bits : t.bitsLeft = s.bitsLeft) (out : s.out ≤ t.out)
  | plain (slot : isPlainBody i.slot = true) (place : s.pos = .body) (codec : s.jcodec ≠ Codec.huff.bits)
      (inBuffer : s.cursor.toNat < s.bufSize.toNat) (consumes : Consumes s t)

/-- A turn at an element fails, or goes on; an element after the header leaves the declared length. -/
def ElementOutcome (i : Instr) (s t : State) : Prop :=
  (∃ s1 e off, t = raise e off s1 ∧ (s.pos ≠ .header → s1.L = s.L)) ∨ (t.phase = .run ∧ ElementTurn s t i)

theorem headerFields_of_slot {i : Instr} {c : Codec} (h : i.slot = .hdr c) :
    ∃ len, headerFields i = some (c, len) := by
  cases i <;> cases h <;> exact ⟨_, rfl⟩

section

variable {s t : State} {i : Instr}

/-- What a header can come to (41_job_control.md R114, R115; 43_huffman.md R161). -/
theorem header_turn {c : Codec} (hrun : s.phase = .run) (hpos : s.pos = .header)
    (hc : s.jcodec = c.bits) (hslot : i.slot = .hdr c) (hin : s.cursor.toNat + 4 ≤ s.bufSize.toNat)
    (ht : exec i s = .next t) : ElementOutcome i s t := by
  obtain ⟨len, hf⟩ := headerFields_of_slot hslot
  by_cases hdepth : ∀ d, i = .hdrHuff d len → d = 1#4 ∨ d = 2#4 ∨ d = 4#4 ∨ d = 8#4
  · obtain ⟨W, D, M, acc, -, hexec⟩ := exec_header s hf hdepth
    cases hexec.symm.trans ht
    rcases openOutput_cases s.cursor (headerTaken c len W D M acc s) with ⟨_, he⟩ | ⟨_, he⟩ <;> rw [he]
    · exact .inl ⟨_, _, _, rfl, absurd hpos⟩
    · have hcur := advance_cursor_toNat hin
      rw [advance_cursor_eq] at hcur
      refine .inr ⟨hrun, .header c hslot hpos ?_ (by omega) (Nat.lt_of_lt_of_eq (by omega) hcur.symm) rfl rfl⟩
      rw [hc]
      cases c <;> simp [headerTaken, Codec.bits]
  · push Not at hdepth
    obtain ⟨d, rfl, hd⟩ := hdepth
    have hillegal : ¬ depthLegal d = true := by simpa [depthLegal_iff] using hd
    have hexec : exec (.hdrHuff d len) s = .next (raise .depth s.cursor _) := congrArg _ (if_neg hillegal)
    cases hexec.symm.trans ht
    exact .inl ⟨_, _, _, rfl, absurd hpos⟩

/-- What a tree load can come to (43_huffman.md R163). -/
theorem tree_turn {n : Byte} (hrun : s.phase = .run) (hpos : s.pos = .tree)
    (hin : s.cursor.toNat + 1 ≤ s.bufSize.toNat) (ht : exec (.huffTree n) s = .next t) :
    ElementOutcome (.huffTree n) s t := by
  obtain ⟨u, hu, ⟨hb, rfl⟩ | ⟨_, rfl⟩⟩ := execHuffTree_cases n s <;> cases hu.symm.trans ht
  · have hread := (Consumes.advance Nat.one_pos hin).read hb
    exact .inr ⟨hrun, .tree rfl hpos rfl rfl hin hread.cursor rfl rfl⟩
  · exact .inl ⟨_, _, _, rfl, fun _ => rfl⟩

/-- What a path-word load can come to (R164). -/
theorem path_turn {p : Word} (hrun : s.phase = .run) (hpos : s.pos = .body) (hc : s.jcodec = Codec.huff.bits)
    (hbits : s.bitsLeft = 0) (hin : s.cursor.toNat + 4 ≤ s.bufSize.toNat)
    (ht : exec (.huffPath p) s = .next t) : ElementOutcome (.huffPath p) s t := by
  cases ht
  split
  · exact .inl ⟨_, _, _, rfl, fun _ => rfl⟩
  · exact .inr ⟨hrun, .path rfl hpos hpos rfl hc hin (advance_cursor_toNat hin) hbits rfl rfl⟩

/-- What a path bit can come to (R165, R166). -/
theorem bit_turn {right : Bool} (hrun : s.phase = .run) (hpos : s.pos = .body) (hc : s.jcodec = Codec.huff.bits)
    (hbits : s.bitsLeft ≠ 0) (hslot : i.slot = .hufBit) : ElementOutcome i s (traverse right s) := by
  rcases traverse_cases right s with ⟨_, he⟩ | ⟨_, he⟩ <;> rw [he]
  · exact .inl ⟨_, _, _, rfl, fun _ => rfl⟩
  · refine .inr ⟨hrun, .bit hslot hpos ?_ rfl hc rfl (Nat.sub_one_add_one hbits) rfl⟩
    cases leafFlag (treeByte s s.a) right <;> simp

/-- What a leaf comes to (R167, R168). -/
theorem leaf_turn {b : Byte} (hrun : s.phase = .run) (hpos : s.pos = .leaf) (ht : exec (.huffLeaf b) s = .next t) :
    ElementOutcome (.huffLeaf b) s t := by
  cases ht
  rcases packSymbol_cases (symbolOf s.D b) s with ⟨_, he⟩ | ⟨_, he⟩ <;> rw [he]
  · exact .inr ⟨hrun, .leaf rfl hpos rfl rfl rfl rfl (Nat.le_succ _)⟩
  · exact .inr ⟨hrun, .leaf rfl hpos rfl rfl rfl rfl le_rfl⟩

/-- What a turn at an element that a fetch found can come to (30_encoding.md R104). -/
theorem exec_turn (hrun : s.phase = .run) (hpos : s.pos ≠ .entry) (hf : fetch s = .element i)
    (ht : exec i s = .next t) : ElementOutcome i s t := by
  obtain ⟨c, hc, hslot, -, -, -, hcur⟩ := fetch_element hf
  have hj := Codec.eq_bits_of_ofBits hc
  rw [← hslot] at hcur
  rcases slotOf_cases c s with ⟨hp, hs⟩ | ⟨hp, hs⟩ | ⟨hp, hs⟩ | ⟨hp, rfl, hb, hs⟩ | ⟨hp, rfl, hb, hs⟩ |
    ⟨hp, _, hs⟩ <;> rw [← hslot] at hs
  · rw [hs] at hcur
    exact header_turn hrun (hp.resolve_left hpos) hj hs (hcur nofun nofun) ht
  · cases i with
    | huffTree n => exact tree_turn hrun hp (hcur nofun nofun) ht
    | _ => cases hs
  · cases i with
    | huffLeaf b => exact leaf_turn hrun hp ht
    | _ => cases hs
  · cases i with
    | huffPath p => exact path_turn hrun hp hj hb (hcur nofun nofun) ht
    | _ => cases hs
  · cases i with
    | huffLeft | huffRight => cases ht; exact bit_turn hrun hp hj hb rfl
    | _ => cases hs
  · obtain ⟨-, hhuff, hin⟩ := fetch_plain hf hs
    have hlen := elementLength_pos i.slot i
    rcases exec_consumes hs hin ht with hcons | ⟨s1, e, off, hcons, he⟩
    · exact .inr ⟨hcons.phase.trans hrun, .plain hs hp hhuff (by omega) hcons⟩
    · exact .inl ⟨s1, e, off, he, fun _ => hcons.L⟩

end

/-! ### The turn that ends a job -/

/-- A turn that ends a job is its completion or raises an error (41_job_control.md R118). -/
theorem blockStep_ended {s t : State} (hrun : s.phase = .run) (ht : blockStep s = .next t)
    (hidle : t.phase = .idle) : t = finish s ∨ ∃ s1 e off, t = raise e off s1 := by
  rcases blockStep_run_cases hrun with ⟨_, hb⟩ | ⟨_, _, hb⟩ | ⟨i, hpos, _, hf, hb⟩ | ⟨e, off, k, _, _, _, hb⟩ <;>
    rw [hb] at ht
  · cases ht
    rcases enterStream_cases s with ⟨_, he⟩ | ⟨_, _, he⟩ | ⟨_, _, _, he⟩ | ⟨_, _, _, he⟩ <;> rw [he] at hidle ⊢
    · exact .inr ⟨_, _, _, rfl⟩
    · cases hrun.symm.trans hidle
    · exact .inr ⟨_, _, _, rfl⟩
    · cases hrun.symm.trans hidle
  · cases ht
    exact .inl rfl
  · rcases exec_turn hrun hpos hf ht with ⟨s1, e, off, he, _⟩ | ⟨hgoes, _⟩
    · exact .inr ⟨s1, e, off, he⟩
    · cases hgoes.symm.trans hidle
  · cases ht
    exact .inr ⟨_, e, off, rfl⟩

/-- Settles O44: both records end CURSOR by the latched entry form (`endCursor`), which no turn writes. -/
theorem offsetFormRestoresCursor : Obligations.OffsetFormRestoresCursor := by
  intro s t rest hturn hrun hentry hstep hidle
  have hb := (step_blockTurn hturn).symm.trans hstep
  obtain ⟨-, hjentry, -, hsaved⟩ := SameLatch.of_beyondBlock (blockStep_beyondBlock hb)
  have hoffset : t.jentry = true := hjentry.trans hentry
  rcases blockStep_ended (s := takeTurn rest s) hrun hb hidle with rfl | ⟨s1, e, off, rfl⟩
  · exact (if_pos hoffset).trans hsaved
  · exact (if_pos hoffset).trans hsaved

/-! ### The bounds of R254 -/

theorem jobBound_pos (s : State) : 0 < jobBound s := Nat.succ_pos _

/-- The output index as a bound counts it: 0 until a header sets it (R110, R115). -/
def written (s : State) : Nat := if BeforeHeader s then 0 else s.out

/-- The bits of the path word left to a Huffman body (43_huffman.md R164). -/
def pathBits (s : State) : Nat :=
  if s.jcodec = Codec.huff.bits ∧ (s.pos = .body ∨ s.pos = .leaf) then s.bitsLeft else 0

/-- A bound on the element steps a running job that declares the length `L` still takes: eight for each byte left
of the buffer, which a path word of 4 bytes and 32 bits needs, one for each bit left of the path word and for each
byte left to write, one for an entry form to come and one for the end of the job. -/
def stepBudget (L : Nat) (s : State) : Nat :=
  8 * (s.bufSize.toNat - streamOffset s) + pathBits s + (L - written s) + (if s.pos = .entry then 1 else 0) + 1

/-- What a job from its START on keeps, whatever state it was started in: a tree or a leaf is read in a Huffman job
only, and in the other codecs the output index is within the declared length (R104, R116). -/
structure Underway (s : State) : Prop where
  huffPlace : s.pos = .tree ∨ s.pos = .leaf → s.jcodec = Codec.huff.bits
  within : ¬ BeforeHeader s → s.jcodec ≠ Codec.huff.bits → s.out ≤ s.L.toNat

theorem Underway.of_beforeHeader {s : State} (h : BeforeHeader s) : Underway s where
  huffPlace hp := by rcases h with h | h <;> simp [h] at hp
  within hn := absurd h hn

theorem stepBudget_afterHeader {L : Nat} {s : State} (h : ¬ BeforeHeader s) :
    stepBudget L s = 8 * (s.bufSize.toNat - s.cursor.toNat) + pathBits s + (L - s.out) + 1 := by
  have hpos : s.pos ≠ .entry := fun he => h (.inl he)
  rw [stepBudget, streamOffset, if_neg (fun he => hpos he.1), if_neg hpos, written, if_neg h]

theorem pathBits_elsewhere {s : State} (h : ¬ (s.pos = .body ∨ s.pos = .leaf)) : pathBits s = 0 :=
  if_neg fun hs => h hs.2

theorem pathBits_plain {s : State} (h : s.jcodec ≠ Codec.huff.bits) : pathBits s = 0 := if_neg fun hs => h hs.1

theorem pathBits_huff {s : State} (hc : s.jcodec = Codec.huff.bits) (hp : s.pos = .body ∨ s.pos = .leaf) :
    pathBits s = s.bitsLeft := if_pos ⟨hc, hp⟩

theorem pathBits_le (s : State) : pathBits s ≤ s.bitsLeft := by
  unfold pathBits
  split
  · exact le_rfl
  · exact Nat.zero_le _

theorem stepBudget_header {L : Nat} {s : State} (h : s.pos = .header) :
    stepBudget L s = 8 * (s.bufSize.toNat - s.cursor.toNat) + L + 1 := by
  simp only [stepBudget, streamOffset, written, BeforeHeader, pathBits_elsewhere (s := s) (by simp [h]), h,
    reduceCtorEq, false_and, if_false, or_true, if_true]
  omega

theorem stepBudget_entry {L : Nat} {s : State} (h : s.pos = .entry) :
    stepBudget L s = 8 * (s.bufSize.toNat - streamOffset s) + L + 2 := by
  simp only [stepBudget, written, BeforeHeader, pathBits_elsewhere (s := s) (by simp [h]), h, true_or, if_true]
  omega

theorem stepBudget_pos (L : Nat) (s : State) : 0 < stepBudget L s := Nat.succ_pos _

/-- A turn that does not end the job spends from both bounds. -/
structure SpendsTurn (s t : State) : Prop where
  running : t.phase = .run
  turns : jobBound t < jobBound s
  length : ¬ BeforeHeader s → ¬ BeforeHeader t ∧ t.L = s.L
  underway : Underway s → Underway t
  steps : Underway s → ∀ L, (¬ BeforeHeader t → L = t.L.toNat) →
    elementStepsOf s t + stepBudget L t ≤ stepBudget L s

/-- A turn that ends the job stays within the bound on element steps. -/
structure EndsJob (s t : State) : Prop where
  idle : t.phase = .idle
  length : ¬ BeforeHeader s → t.L = s.L
  steps : Underway s → elementStepsOf s t ≤ stepBudget t.L.toNat s

section

variable {s t : State} {i : Instr}

/-! ### The element steps of a turn -/

theorem elementStepsOf_entry (h : s.pos = .entry) : elementStepsOf s t = 1 := if_pos (.inl h)

theorem elementStepsOf_finish (h : bodyDone s = true) : elementStepsOf s t = 1 := if_pos (.inr h)

theorem elementStepsOf_failed {e : JobError} {off : Word} {k : Nat} (hpos : s.pos ≠ .entry)
    (hdone : bodyDone s = false) (hf : fetch s = .failed e off k) : elementStepsOf s t = 1 := by
  simp only [elementStepsOf, hpos, hdone, hf, Bool.false_eq_true, or_self, if_false]

/-- An element counts once, and once for each byte it copies or replicates. -/
theorem elementStepsOf_le (hpos : s.pos ≠ .entry) (hdone : bodyDone s = false) (hf : fetch s = .element i) :
    elementStepsOf s t ≤ 1 + (if copiesBytes i then t.out - s.out else 0) := by
  simp only [elementStepsOf, hpos, hdone, hf, Bool.false_eq_true, or_self, if_false]
  cases i with
  | huffPath | huffLeaf => exact Nat.zero_le _
  | _ => exact le_rfl

/-- A path-word load and a leaf are parts of a traversal step (43_huffman.md R164, R165). -/
theorem elementStepsOf_traversal (hpos : s.pos ≠ .entry) (hdone : bodyDone s = false)
    (hf : fetch s = .element i) (hi : i.slot = .hufPath ∨ i.slot = .hufLeaf) : elementStepsOf s t = 0 := by
  simp only [elementStepsOf, hpos, hdone, hf, Bool.false_eq_true, or_self, if_false]
  cases i with
  | huffPath | huffLeaf => rfl
  | _ => simp [Instr.slot] at hi

theorem isPlainBody_of_copiesBytes (h : copiesBytes i = true) : isPlainBody i.slot = true := by
  cases i with
  | lzssRef | lzxRef0 | lzxRef1 | lzxRefs | rlCopy | rlFill => rfl
  | _ => cases h

theorem elementStepsOf_le_one (hpos : s.pos ≠ .entry) (hdone : bodyDone s = false) (hf : fetch s = .element i)
    (hi : isPlainBody i.slot = false) : elementStepsOf s t ≤ 1 := by
  have hcopy : ¬ copiesBytes i = true := fun hc => by
    cases hi.symm.trans (isPlainBody_of_copiesBytes hc)
  simpa only [if_neg hcopy] using elementStepsOf_le hpos hdone hf

/-! ### An element that goes on -/

theorem ElementTurn.not_beforeHeader (h : ElementTurn s t i) : ¬ BeforeHeader t := by
  cases h with
  | header _ _ _ next => rcases next with ⟨next, _⟩ | ⟨next, _⟩ <;> simp [BeforeHeader, next]
  | tree _ _ next | path _ _ next | leaf _ _ next => simp [BeforeHeader, next]
  | bit _ _ next => rcases next with next | next <;> simp [BeforeHeader, next]
  | plain _ place _ _ consumes => simp [BeforeHeader, consumes.pos, place]

/-- An element after the header leaves the declared length. -/
theorem ElementTurn.length (h : ElementTurn s t i) (hs : ¬ BeforeHeader s) : t.L = s.L := by
  cases h with
  | header _ _ place => exact absurd (.inr place) hs
  | tree _ _ _ len | path _ _ _ len | bit _ _ _ len | leaf _ _ _ len => exact len
  | plain _ _ _ _ consumes => exact consumes.L

/-- The turns: a byte of the buffer pays for four path bits and their leaves, a bit for a leaf. -/
theorem ElementTurn.jobBound_lt (h : ElementTurn s t i) (hbuf : t.bufSize = s.bufSize) :
    jobBound t < jobBound s := by
  cases h with
  | header _ _ place next inBuffer cursor bits =>
    rcases next with ⟨next, _⟩ | ⟨next, _⟩ <;>
      simp only [jobBound, streamOffset, place, next, hbuf, bits, reduceCtorEq, false_and, if_false] <;> omega
  | tree _ place next _ inBuffer cursor bits =>
    simp only [jobBound, streamOffset, place, next, hbuf, bits, reduceCtorEq, false_and, if_false]
    omega
  | path _ place next _ _ inBuffer cursor noBits bits =>
    simp only [jobBound, streamOffset, place, next, hbuf, bits, noBits, reduceCtorEq, false_and, if_false]
    omega
  | bit _ place next _ _ cursor bits =>
    rcases next with next | next <;>
      simp only [jobBound, streamOffset, place, next, hbuf, cursor, reduceCtorEq, false_and, if_false, if_true] <;>
      omega
  | leaf _ place next _ cursor bits =>
    simp only [jobBound, streamOffset, place, next, hbuf, cursor, bits, reduceCtorEq, false_and, if_false, if_true]
    omega
  | plain _ place _ inBuffer consumes =>
    have cursor := consumes.cursor
    simp only [jobBound, streamOffset, consumes.pos, place, hbuf, consumes.bits, reduceCtorEq, false_and, if_false]
    omega

/-- What a job keeps from its START on: the output of a Huffman job is not bounded here, that of the others is by
`hout`. -/
theorem ElementTurn.underway (h : ElementTurn s t i) (hs : Underway s) (hcodec : t.jcodec = s.jcodec)
    (hout : isPlainBody i.slot = true → t.out ≤ t.L.toNat) : Underway t := by
  refine ⟨fun hp => ?_, fun _ hc => ?_⟩
  · rw [hcodec]
    cases h with
    | header _ _ _ next =>
      rcases next with ⟨_, codec⟩ | ⟨next, _⟩
      · exact codec
      · simp [next] at hp
    | path _ _ _ _ codec | bit _ _ _ _ codec => exact codec
    | tree _ place => exact hs.huffPlace (.inl place)
    | leaf _ place => exact hs.huffPlace (.inr place)
    | plain _ place _ _ consumes => simp [consumes.pos, place] at hp
  · rw [hcodec] at hc
    cases h with
    | header _ _ _ _ _ _ _ out => simp [out]
    | path _ _ _ _ codec | bit _ _ _ _ codec => exact absurd codec hc
    | tree _ place => exact absurd (hs.huffPlace (.inl place)) hc
    | leaf _ place => exact absurd (hs.huffPlace (.inr place)) hc
    | plain slot => exact hout slot

/-- The element steps: a byte of the buffer pays for the element it begins or for eight path bits, and what is left
of the output for the bytes copied. -/
theorem ElementTurn.steps (h : ElementTurn s t i) (hs : Underway s) (hpos : s.pos ≠ .entry)
    (hdone : bodyDone s = false) (hf : fetch s = .element i) (hbuf : t.bufSize = s.bufSize)
    (hcodec : t.jcodec = s.jcodec) (hout : isPlainBody i.slot = true → t.out ≤ t.L.toNat) :
    elementStepsOf s t + stepBudget t.L.toNat t ≤ stepBudget t.L.toNat s := by
  have hle := elementStepsOf_le (t := t) hpos hdone hf
  have hone := elementStepsOf_le_one (t := t) hpos hdone hf
  have hzero := elementStepsOf_traversal (t := t) hpos hdone hf
  rw [stepBudget_afterHeader h.not_beforeHeader, hbuf]
  cases h with
  | header c slot place next inBuffer cursor bits out =>
    have hsteps := hone (by rw [slot]; rfl)
    have hbits : pathBits t = 0 := by
      rcases next with ⟨next, _⟩ | ⟨_, codec⟩
      · exact pathBits_elsewhere (by simp [next])
      · exact pathBits_plain (hcodec ▸ codec)
    rw [stepBudget_header place, hbits, out]
    omega
  | tree slot place next len inBuffer cursor bits out =>
    have hsteps := hone (by rw [slot]; rfl)
    have hbits := pathBits_le t
    rw [stepBudget_afterHeader (by simp [BeforeHeader, place]), out]
    omega
  | path slot place next len codec inBuffer cursor noBits bits out =>
    have hbits := pathBits_le t
    rw [stepBudget_afterHeader (by simp [BeforeHeader, place]), hzero (.inl slot), out]
    omega
  | bit slot place next len codec cursor bits out =>
    have hsteps := hone (by rw [slot]; rfl)
    have hbits := pathBits_le t
    rw [stepBudget_afterHeader (by simp [BeforeHeader, place]), pathBits_huff codec (.inl place), out, cursor]
    omega
  | leaf slot place next len cursor bits out =>
    have hbits := pathBits_le t
    rw [stepBudget_afterHeader (by simp [BeforeHeader, place]),
      pathBits_huff (hs.huffPlace (.inr place)) (.inr place), hzero (.inr slot), cursor]
    omega
  | plain slot place codec inBuffer consumes =>
    have hlen := hout slot
    have hcur := consumes.cursor
    have hmono := consumes.out
    rw [stepBudget_afterHeader (by simp [BeforeHeader, place]), pathBits_plain codec,
      pathBits_plain (hcodec ▸ codec)]
    split at hle <;> omega

end

/-! ### A turn and a job -/

section

variable {s t : State}

/-- The elements that copy stand in the bodies where the output index is bounded, and keep it within the declared
length, even when they fail. -/
theorem plain_out_le {i : Instr} (hs : Underway s) (hdone : bodyDone s = false)
    (hf : fetch s = .element i) (hi : isPlainBody i.slot = true) (ht : exec i s = .next t) :
    s.pos = .body ∧ t.out ≤ s.L.toNat := by
  obtain ⟨hp, hhuff, hin⟩ := fetch_plain hf hi
  have hle := hs.within (by simp [BeforeHeader, hp]) hhuff
  have hne : s.out ≠ s.L.toNat := fun he => by simp [bodyDone, hp, hhuff, he] at hdone
  rcases exec_bodyStep hi hin (by omega) ht with hstep | ⟨s1, e, off, hstep, rfl⟩
  · exact ⟨hp, hstep.within hle⟩
  · exact ⟨hp, hstep.within hle⟩

/-- An entry form that succeeds spends its own step (R112). -/
theorem enterStream_bounds (hrun : s.phase = .run) (hpos : s.pos = .entry) :
    SpendsTurn s (enterStream s) ∨ EndsJob s (enterStream s) := by
  have hbefore : BeforeHeader s := .inl hpos
  have hcost (t : State) : elementStepsOf s t = 1 := elementStepsOf_entry hpos
  have hbudget (L : Nat) : stepBudget L s = 8 * (s.bufSize.toNat - streamOffset s) + L + 2 := stepBudget_entry hpos
  have hends (e : JobError) (off : Word) : EndsJob s (raise e off s) :=
    ⟨rfl, absurd hbefore, fun _ => by rw [hcost, hbudget]; omega⟩
  have hplaced (cur : Word) (hcur : cur.toNat = streamOffset s) :
      SpendsTurn s { s with cursor := cur, pos := .header } := by
    refine ⟨hrun, ?_, absurd hbefore, fun _ => .of_beforeHeader (.inr rfl), fun _ L _ => ?_⟩
    · simp only [jobBound, hpos, reduceCtorEq, if_false, if_true]
      rw [← hcur]
      simp only [streamOffset, reduceCtorEq, false_and, if_false]
      omega
    · have hplacedBudget : stepBudget L { s with cursor := cur, pos := .header } =
          8 * (s.bufSize.toNat - cur.toNat) + L + 1 := stepBudget_header rfl
      rw [hcost, hbudget, hplacedBudget, hcur]
      omega
  rcases enterStream_cases s with ⟨_, he⟩ | ⟨_, hj, he⟩ | ⟨_, _, _, he⟩ | ⟨_, hj, _, he⟩ <;> rw [he]
  · exact .inr (hends ..)
  · exact .inl (hplaced s.cursor (by simp [streamOffset, hj]))
  · exact .inr (hends ..)
  · exact .inl (hplaced s.offset (by simp [streamOffset, hj, hpos]))

/-- A turn at an element spends from both bounds or ends the job within them. -/
theorem exec_bounds {i : Instr} (hrun : s.phase = .run) (hpos : s.pos ≠ .entry) (hdone : bodyDone s = false)
    (hf : fetch s = .element i) (ht : exec i s = .next t) : SpendsTurn s t ∨ EndsJob s t := by
  obtain ⟨_, _, _, hcmd, -⟩ := fetch_element hf
  have hkept := exec_beyondBlock hcmd ht
  have hbuf : t.bufSize = s.bufSize := (congrArg State.bufSize hkept :)
  have hcodec : t.jcodec = s.jcodec := (congrArg State.jcodec hkept :)
  have hbody (hs : Underway s) (hi : isPlainBody i.slot = true) := plain_out_le hs hdone hf hi ht
  rcases exec_turn hrun hpos hf ht with ⟨s1, e, off, he, hlen⟩ | ⟨hgoes, hturn⟩
  · have hlen : s.pos ≠ .header → t.L = s.L := fun hp => he ▸ hlen hp
    refine .inr ⟨by rw [he]; rfl, fun hn => hlen fun hp => hn (.inr hp), fun hs => ?_⟩
    cases hi : isPlainBody i.slot with
    | true =>
      obtain ⟨hp, hout⟩ := hbody hs hi
      have hle := elementStepsOf_le (t := t) hpos hdone hf
      rw [hlen (by simp [hp]), stepBudget_afterHeader (by simp [BeforeHeader, hp])]
      split at hle <;> omega
    | false => exact (elementStepsOf_le_one hpos hdone hf hi).trans (stepBudget_pos _ s)
  · have hout (hs : Underway s) (hi : isPlainBody i.slot = true) : t.out ≤ t.L.toNat := by
      obtain ⟨hp, hle⟩ := hbody hs hi
      rwa [hturn.length (by simp [BeforeHeader, hp])]
    exact .inl ⟨hgoes, hturn.jobBound_lt hbuf, fun hn => ⟨hturn.not_beforeHeader, hturn.length hn⟩,
      fun hs => hturn.underway hs hcodec (hout hs),
      fun hs L hL => hL hturn.not_beforeHeader ▸ hturn.steps hs hpos hdone hf hbuf hcodec (hout hs)⟩

/-- A turn of a running block spends from both bounds or ends the job within them. -/
theorem blockStep_bounds (hrun : s.phase = .run) (ht : blockStep s = .next t) : SpendsTurn s t ∨ EndsJob s t := by
  rcases blockStep_run_cases hrun with ⟨hpos, hb⟩ | ⟨_, hdone, hb⟩ | ⟨i, hpos, hdone, hf, hb⟩ |
    ⟨e, off, k, hpos, hdone, hf, hb⟩ <;> rw [hb] at ht
  · cases ht
    exact enterStream_bounds hrun hpos
  · cases ht
    exact .inr ⟨rfl, fun _ => rfl, fun _ => (elementStepsOf_finish hdone).trans_le (stepBudget_pos ..)⟩
  · exact exec_bounds hrun hpos hdone hf ht
  · cases ht
    exact .inr ⟨rfl, fun _ => rfl, fun _ => (elementStepsOf_failed hpos hdone hf).trans_le (stepBudget_pos ..)⟩

theorem elementSteps_succ (n : Nat) (h : step s = .next t) :
    elementSteps (n + 1) s = elementStepsOf s t + elementSteps n t := by
  rw [elementSteps, h]

/-- A job that is left alone ends, by induction on the bound of its turns. -/
theorem job_ends {b : Nat} (hb : jobBound s ≤ b) (halone : s.turns = []) (hrun : s.phase = .run) :
    ∃ n t, n ≤ jobBound s ∧ stepN n s = some t ∧ t.phase = .idle ∧ (¬ BeforeHeader s → t.L = s.L) ∧
      (Underway s → elementSteps n s ≤ stepBudget t.L.toNat s) := by
  induction b generalizing s with
  | zero => exact absurd (jobBound_pos s) hb.not_gt
  | succ b ih =>
    obtain ⟨u, hu⟩ := blockStep_next s
    have hstep := (step_alone halone).trans hu
    rcases blockStep_bounds hrun hu with hgoes | hends
    · have hturns : u.turns = [] := (congrArg State.turns (blockStep_beyondBlock hu) :).trans halone
      have hlt := hgoes.turns
      obtain ⟨n, t, hn, hrest, hidle, hlen, hsteps⟩ := ih (by omega) hturns hgoes.running
      refine ⟨n + 1, t, by omega, (stepN_succ n hstep).trans hrest, hidle, fun hs => ?_, fun hs => ?_⟩
      · obtain ⟨hafter, hL⟩ := hgoes.length hs
        exact (hlen hafter).trans hL
      · rw [elementSteps_succ n hstep]
        exact (Nat.add_le_add_left (hsteps (hgoes.underway hs)) _).trans
          (hgoes.steps hs _ fun hafter => congrArg _ (hlen hafter))
    · exact ⟨1, u, jobBound_pos s, stepN_succ 0 hstep, hends.idle, hends.length,
        fun hs => (elementSteps_succ 0 hstep).trans_le (hends.steps hs)⟩

end

/-- Settles O48: the bound on turns is `jobBound` itself, and that on element steps is the budget of a job at its
START. -/
theorem everyJobEnds : Obligations.EveryJobEnds := by
  intro s halone hrun
  obtain ⟨n, t, hn, hrest, hidle, -, hsteps⟩ := job_ends le_rfl halone hrun
  exact ⟨n, t, hn, hrest, hidle, fun hpos =>
    (hsteps (.of_beforeHeader (.inl hpos))).trans_eq (stepBudget_entry hpos)⟩

end Sys2Proof.Machine
end

section
/-! The statements of file 42 about literals and back-references: what the copy writes (R137), the clamp and the
errors of R136 and R141, and a reference that the end of the buffer cuts (R132). -/

namespace Sys2Proof

/-! ### References that end too soon (30_encoding.md R90, R91) -/

/-- The bytes of a back-reference by its first byte: two in LZSS, by the indicator nibble in LZX (42_lz.md R136,
R138 to R140). -/
def refLength (ext : Bool) (b0 : Byte) : Nat :=
  if ext = false then 2
  else if b0.toNat / 16 = 0 then 3
  else if b0.toNat / 16 = 1 then 4 else 2

theorem refLength_le (ext : Bool) (b0 : Byte) : refLength ext b0 ≤ 4 := by
  unfold refLength
  split_ifs <;> decide

theorem indicator_eq_iff (b0 : Byte) (ind : BitVec 4) : b0.extractLsb' 4 4 = ind ↔ b0.toNat / 16 = ind.toNat := by
  have := b0.isLt
  rw [field_eq_iff]
  omega

/-- The lengths of the LZX forms as the decoder selects them (R91). -/
theorem refLength_lzx (b0 : Byte) :
    refLength true b0 = if b0.extractLsb' 4 4 = 0#4 then 3 else if b0.extractLsb' 4 4 = 1#4 then 4 else 2 := by
  simp [refLength, indicator_eq_iff]

/-- The first bytes of a back-reference are rejected at the byte that is missing (R132). -/
theorem decode_lzRef_cut {ext : Bool} {b0 : Byte} {bs : List Byte} (o : ByteOrder)
    (h : (b0 :: bs).length < refLength ext b0) :
    decode (.lzRef ext) o (b0 :: bs) = .error (.short (b0 :: bs).length) := by
  cases ext with
  | false =>
    match bs with
    | [] => rfl
    | _ :: _ => simp [refLength] at h
  | true =>
    rw [refLength_lzx] at h
    simp only [decode, if_true, decodeLzxRef]
    split_ifs at h ⊢
    · match bs with
      | [] | [_] => rfl
      | _ :: _ :: _ =>
        simp only [List.length_cons] at h
        omega
    · match bs with
      | [] | [_] | [_, _] => rfl
      | _ :: _ :: _ :: _ =>
        simp only [List.length_cons] at h
        omega
    · match bs with
      | [] => rfl
      | _ :: _ => simp at h

end Sys2Proof

namespace Sys2Proof.Machine

/-! ### A reference cut by the end of the buffer -/

/-- Settles O19: the bytes that are left are rejected at the end of the buffer, after they were read. -/
theorem truncatedReferenceFails : Obligations.TruncatedReferenceFails := by
  intro s rest c ext avail need hturn hrun hpos hdone hc hslot hend havail hcut hneed
  obtain ⟨bs, hw⟩ : ∃ bs, window 4 s = srcByte s s.cursor.toNat :: bs :=
    window_eq_srcBytes_append (k := 1) (by decide) (by omega)
  have hshort : avail < refLength ext (srcByte s s.cursor.toNat) := hcut.trans_eq hneed
  have hlen : (srcByte s s.cursor.toNat :: bs).length = avail := by
    have := refLength_le ext (srcByte s s.cursor.toNat)
    rw [← hw, window_length]
    omega
  have hreject : decode (slotOf c s) s.jorder (elementBytes s (slotOf c s)) = .error (.short avail) := by
    rw [hslot, elementBytes_eq_window s (slot := .lzRef ext) nofun nofun, hw, ← hlen]
    exact decode_lzRef_cut _ (hlen ▸ hshort)
  have hcur : (advance avail s).cursor = s.bufSize :=
    BitVec.eq_of_toNat_eq ((advance_cursor_toNat hend.le).trans hend)
  have hf : fetch s = .failed .bounds (advance avail s).cursor avail :=
    fetch_of_reject hc (by rw [hslot]; nofun) hreject
  have hfail := step_fetch_failed hturn hrun hpos hdone hf
  rwa [hcur] at hfail

/-! ### What a literal and a back-reference do -/

/-- A block moves CURSOR on by its bytes (R133). -/
theorem takeBlock_cursor_eq (n : Nat) (s : State) : (takeBlock n s).cursor = s.cursor + BitVec.ofNat 32 n :=
  advance_cursor_eq n s

/-- Settles O21: both literals are one block and one byte written. -/
theorem literalWritesItsByte : Obligations.LiteralWritesItsByte := by
  intro i b s hi
  have hexec : exec i s = .next (literal b s) := by rcases hi with rfl | rfl <;> rfl
  exact ⟨_, hexec, outRead_emit_self b (takeBlock 1 s), rfl, takeBlock_cursor_eq 1 s, rfl, rfl, rfl,
    .of_beyondElement rfl, (SameOutExcept.emit b (takeBlock 1 s) :), .of_eq rfl rfl rfl,
    ⟨rfl, rfl, rfl, rfl, rfl, rfl, rfl, rfl, rfl⟩, rfl, rfl⟩

/-- The work of a back-reference of `n` bytes that writes `count` bytes from `disp` back: each is the byte that
R137 gives, CURSOR and the flag bits move on, and nothing else changes. -/
def CopiesBack (n count disp : Nat) (s t : State) : Prop :=
  t.out = s.out + count ∧
    (∀ k < count, outRead t (s.out + k) = outRead s (s.out - disp + k % disp)) ∧
    t.cursor = s.cursor + BitVec.ofNat 32 n ∧ t.fbit = s.fbit - 1 ∧ t.flags = s.flags ∧ t.pos = s.pos ∧
    SameOutside s t ∧ SameOutExcept s.out count s t ∧ SameTreeFrom 0 s t ∧ SameHuff s t ∧ SameDiff s t

/-- A copy from inside the output after one block is read (R133, R137). -/
theorem copyBack_takeBlock (n count : Nat) {disp : Nat} {s : State} (hdisp : 1 ≤ disp) (hin : disp ≤ s.out) :
    CopiesBack n count disp s (copyBack disp count (takeBlock n s)) := by
  have hread : ∀ i, outRead (copyBack disp count (takeBlock n s)) i =
      if s.out ≤ i ∧ i < s.out + count then outRead s (s.out - disp + (i - s.out) % disp) else outRead s i :=
    copyBack_outRead disp count (takeBlock n s) hdisp hin
  have hbytes : ∀ k < count, outRead (copyBack disp count (takeBlock n s)) (s.out + k) =
      outRead s (s.out - disp + k % disp) := fun k hk => by
    rw [hread, if_pos (by omega), Nat.add_sub_cancel_left]
  have hrest : SameOutExcept s.out count s (copyBack disp count (takeBlock n s)) := fun i hi => by
    rw [hread, if_neg (by omega)]
  rw [copyBack_eq] at hbytes hrest ⊢
  exact ⟨rfl, hbytes, takeBlock_cursor_eq n s, rfl, rfl, rfl, .of_beyondElement rfl, hrest, .of_eq rfl rfl rfl,
    ⟨rfl, rfl, rfl, rfl, rfl, rfl, rfl, rfl, rfl⟩, rfl, rfl⟩

/-- An error raised after one block is read names the block's first byte (R136, R141, R226). -/
theorem raise_takeBlock (e : JobError) (n : Nat) (s : State) :
    FailedJob 0 e.code s.cursor (s.cursor + BitVec.ofNat 32 n) s.out s (raise e s.cursor (takeBlock n s)) := by
  have hk : beyondBlock (takeBlock n s) = beyondBlock s := rfl
  have hfail : FailedJob 0 e.code s.cursor (takeBlock n s).cursor s.out s (raise e s.cursor (takeBlock n s)) :=
    raise_failedJob e s.cursor (.of_beyondBlock hk) (.of_beyondBlock hk) (.of_beyondBlock hk) (.of_beyondBlock hk)
      rfl rfl (.of_eq rfl rfl rfl) rfl
  rwa [takeBlock_cursor_eq] at hfail

/-- Every back-reference is `backRef` of its fields (R136, R138 to R140), and its source lies before its first
byte (R98). -/
theorem exec_reference {i : Instr} {n count disp : Nat} (h : refFields i = some (n, count, disp)) (s : State) :
    1 ≤ disp ∧ exec i s = .next (backRef (!isLzxRef i) n count disp s) := by
  cases i with
  | lzssRef c d | lzxRef0 c d | lzxRef1 c d | lzxRefs ind d => cases h; exact ⟨Nat.succ_pos _, rfl⟩
  | _ => cases h

/-- Settles O22: of the ways a reference goes, the copy is the one left. -/
theorem backReferenceCopies : Obligations.BackReferenceCopies := by
  intro i n count disp s hf hin hfits
  obtain ⟨hdisp, hexec⟩ := exec_reference hf s
  rcases backRef_cases (!isLzxRef i) n count disp s with
    ⟨hneg, _⟩ | ⟨_, hover, _⟩ | ⟨_, hover, _⟩ | ⟨_, _, he⟩
  · omega
  · omega
  · omega
  · exact ⟨_, hexec.trans (congrArg _ he), copyBack_takeBlock n count hdisp hin⟩

/-- Settles O23: the clamped copy is a copy of the bytes that remain. -/
theorem lzssOverrunClamps : Obligations.LzssOverrunClamps := by
  intro c d s hin hout hover
  obtain ⟨hdisp, hexec⟩ := exec_reference (i := .lzssRef c d) rfl s
  rcases backRef_cases true 2 (c.toNat + 3) (d.toNat + 1) s with
    ⟨hneg, _⟩ | ⟨_, _, _, he⟩ | ⟨_, _, hclamp, _⟩ | ⟨_, hfits, _⟩
  · omega
  · obtain ⟨hend, hbytes, hkept⟩ := copyBack_takeBlock 2 (s.L.toNat - s.out) hdisp hin
    exact ⟨_, hexec.trans (congrArg _ he), hend.trans (Nat.add_sub_cancel' hout),
      fun k hk => hbytes k (by omega), hkept⟩
  · cases hclamp
  · omega

/-- Settles O24: of the ways an LZX reference goes, OVERRUN is the one left. -/
theorem lzxOverrunFails : Obligations.LzxOverrunFails := by
  intro i n count disp s hlzx hf hin hover
  obtain ⟨-, hexec⟩ := exec_reference hf s
  rw [hlzx] at hexec
  rcases backRef_cases false n count disp s with
    ⟨hneg, _⟩ | ⟨_, _, hclamp, _⟩ | ⟨_, _, _, he⟩ | ⟨_, hfits, _⟩
  · omega
  · cases hclamp
  · exact ⟨_, hexec.trans (congrArg _ he), raise_takeBlock .overrun n s⟩
  · omega

/-- Settles O25: the source is tested before the overrun (60_exceptions.md R227). -/
theorem negativeSourceFails : Obligations.NegativeSourceFails := by
  intro i n count disp s hf hneg
  obtain ⟨-, hexec⟩ := exec_reference hf s
  exact ⟨_, hexec.trans (congrArg _ (if_pos hneg)), raise_takeBlock .negSrc n s⟩

end Sys2Proof.Machine
end

section
/-! The statements of file 43: an illegal depth (R161), a cut tree (R163), path words and codes that outrun them
(R164), a child outside the tree (R165, R166), and how the leaves of an output byte make it (R162, R167, R168). -/

namespace Sys2Proof.Machine

/-! ### Errors of a Huffman job -/

/-- The record of an error raised after work that wrote nothing beyond the block, nor DONE, OUT_LEN or a new draw of
OUT (R226, R229). -/
theorem raise_failedJob_of_beyondBlock {s s1 : State} {tree : Nat} (e : JobError) (off : Word)
    (hkept : beyondBlock s1 = beyondBlock s) (hdone : s1.done = s.done) (hlen : s1.outLen = s.outLen)
    (hdraw : s1.outDraw = s.outDraw) (htree : SameTreeFrom tree s s1) :
    FailedJob tree e.code off s1.cursor s1.out s (raise e off s1) :=
  raise_failedJob e off (.of_beyondBlock hkept) (.of_beyondBlock hkept) (.of_beyondBlock hkept)
    (.of_beyondBlock hkept) hdone hlen htree hdraw

/-- Settles O13: the header is read, and its depth is tested before its length. -/
theorem huffmanDepthFails : Obligations.HuffmanDepthFails := by
  intro d len s h1 h2 h4 h8
  have hillegal : ¬ depthLegal d = true := by simp [depthLegal_iff, h1, h2, h4, h8]
  have hexec : exec (.hdrHuff d len) s =
      .next (raise .depth s.cursor (headerTaken .huff len (huffHeader d len) d s.M s.acc s)) := by
    simp only [exec, execHdrHuff, takeHeader_eq, if_neg hillegal]
    rfl
  exact ⟨_, hexec, raise_failedJob_of_beyondBlock .depth s.cursor rfl rfl rfl rfl (.of_eq rfl rfl rfl)⟩

/-- The size byte is the one byte of TREE that a tree load writes before its range read (R163). -/
theorem sameTreeFrom_one_of_write {s t : State} {n : Byte} (hm : t.treeMem = s.treeMem.write 0 n)
    (hd : t.treeDraw = s.treeDraw) (hi : t.inst = s.inst) : SameTreeFrom 1 s t := fun i hpos => by
  simp only [treeByte, hm, hd, hi, Memory.read_write, if_neg (Nat.ne_of_gt hpos)]

/-- Settles O32: the size byte is read, and the range read after it does not fit. -/
theorem truncatedTreeFails : Obligations.TruncatedTreeFails := by
  intro n s hin hcut
  have hsize : treeSize n = (n.toNat + 1) * 2 := rfl
  have hcur : (advance 1 s).cursor.toNat = s.cursor.toNat + 1 := advance_cursor_toNat hin
  obtain ⟨t, ht, ⟨hfits, _⟩ | ⟨_, he⟩⟩ := execHuffTree_cases n s
  · omega
  · have hfail : FailedJob 1 1#4 (advance 1 s).cursor (advance 1 s).cursor s.out s t :=
      he ▸ raise_failedJob_of_beyondBlock .bounds _ rfl rfl rfl rfl (sameTreeFrom_one_of_write rfl rfl rfl)
    rw [advance_cursor_eq] at hfail
    exact ⟨t, ht, hfail⟩

/-- Settles O34: the fetch answers NO_LEAF before it reads the next path word. -/
theorem codeNeverStraddlesWords : Obligations.CodeNeverStraddlesWords := by
  intro s rest hturn hrun hpos hcodec hbits hsteps
  have hc : Codec.ofBits s.jcodec = some .huff := by rw [hcodec]; rfl
  have hslot : slotOf .huff s = .hufPath := by simp [slotOf, hpos, hbits]
  have hdone : bodyDone s = false := by simp [bodyDone, hcodec, Codec.bits, hsteps.ne']
  have hcur : (advance 0 s).cursor = s.cursor := by simp
  have hfail := step_fetch_failed hturn hrun (by rw [hpos]; nofun) hdone (fetch_of_noLeaf hc hslot hsteps.ne')
  rwa [hcur] at hfail

/-- Settles O36: the child is `childAddr_eq`, and outside the tree the traversal raises TREE. -/
theorem childOutsideTreeFails : Obligations.ChildOutsideTreeFails := by
  intro right s hout
  rw [← Bool.cond_eq_ite, ← Bool.toNat, ← childAddr_eq] at hout
  rcases traverse_cases right s with ⟨_, he⟩ | ⟨hlt, _⟩
  · exact ⟨_, (exec_pathBit right s).trans (congrArg _ he),
      raise_failedJob_of_beyondBlock .tree s.wordOff rfl rfl rfl rfl (.of_eq rfl rfl rfl)⟩
  · exact absurd hlt hout.not_gt

/-! ### Path words -/

/-- Settles O33: with no symbol begun the path word is loaded. -/
theorem pathWordLoads : Obligations.PathWordLoads := by
  intro p s hsteps
  have hexec : exec (.huffPath p) s =
      .next { advance 4 s with wordOff := s.cursor, word := p, bitsLeft := 32 } :=
    congrArg _ (if_neg (not_not_intro hsteps))
  exact ⟨_, hexec, rfl, rfl, rfl, advance_cursor_eq 4 s, rfl, rfl, rfl, rfl, rfl, rfl, rfl, rfl,
    .of_beyondElement rfl, .of_eq rfl rfl rfl, .of_eq rfl rfl rfl, ⟨rfl, rfl⟩, ⟨rfl, rfl⟩⟩

/-! ### Leaves -/

/-- The byte in progress with the symbol of the leaf `b` below its symbols (R168). -/
def withSymbol (b : Byte) (s : State) : Byte := (s.acc8 <<< s.D.toNat) ||| symbolOf s.D b

/-- Bits put below a number that was shifted past them add to it, mod the width (R168). -/
theorem shiftLeft_or_toNat {w d : Nat} (a b : BitVec w) (h : b.toNat < 2 ^ d) :
    ((a <<< d) ||| b).toNat = (a.toNat * 2 ^ d + b.toNat) % 2 ^ w :=
  calc ((a <<< d) ||| b).toNat
    _ = (a.toNat <<< d) % 2 ^ w ||| b.toNat % 2 ^ w := by
      rw [BitVec.toNat_or, BitVec.toNat_shiftLeft, Nat.mod_eq_of_lt b.isLt]
    _ = (a.toNat * 2 ^ d + b.toNat) % 2 ^ w := by
      rw [← Nat.or_mod_two_pow, ← Nat.shiftLeft_add_eq_or_of_lt h, Nat.shiftLeft_eq]

theorem withSymbol_toNat (b : Byte) (s : State) :
    (withSymbol b s).toNat = (s.acc8.toNat * 2 ^ s.D.toNat + b.toNat % 2 ^ s.D.toNat) % 256 := by
  have hsym : (symbolOf s.D b).toNat = b.toNat % 2 ^ s.D.toNat := by
    rw [symbolOf_toNat, Nat.mod_eq_of_lt ((Nat.mod_le _ _).trans_lt b.isLt)]
  have hlt : (symbolOf s.D b).toNat < 2 ^ s.D.toNat := hsym ▸ Nat.mod_lt _ (Nat.two_pow_pos _)
  have hpacked := shiftLeft_or_toNat s.acc8 _ hlt
  rwa [hsym] at hpacked

/-- From `s` to `t` the byte of value `v` is written at the output index, and no symbol is left pending (R168). -/
def WritesByte (v : Nat) (s t : State) : Prop :=
  t.out = s.out + 1 ∧ (outRead t s.out).toNat = v ∧ SameOutExcept s.out 1 s t ∧ t.acc8 = 0#8 ∧ t.nsym = 0

/-- The state after a leaf that fills the byte in progress. -/
def afterFullByte (b : Byte) (s : State) : State :=
  restart (emit (withSymbol b s) { s with acc8 := 0#8, nsym := 0 })

/-- The state after a leaf that leaves the byte in progress unfinished. -/
def afterSymbol (b : Byte) (s : State) : State :=
  restart { s with acc8 := withSymbol b s, nsym := s.nsym + 1 }

/-- What a leaf can do (R167, R168). -/
theorem exec_huffLeaf_cases (b : Byte) (s : State) :
    (s.nsym + 1 = symbolsPerByte s.D ∧ exec (.huffLeaf b) s = .next (afterFullByte b s)) ∨
    (s.nsym + 1 ≠ symbolsPerByte s.D ∧ exec (.huffLeaf b) s = .next (afterSymbol b s)) := by
  have hexec : exec (.huffLeaf b) s = .next (restart (packSymbol (symbolOf s.D b) s)) := rfl
  rcases packSymbol_cases (symbolOf s.D b) s with ⟨hfull, he⟩ | ⟨hmore, he⟩ <;> rw [hexec, he]
  · exact .inl ⟨hfull, rfl⟩
  · exact .inr ⟨hmore, rfl⟩

theorem afterFullByte_writesByte (b : Byte) (s : State) :
    WritesByte (withSymbol b s).toNat s (afterFullByte b s) :=
  ⟨rfl, congrArg BitVec.toNat (outRead_emit_self _ { s with acc8 := 0#8, nsym := 0 }),
    (SameOutExcept.emit _ { s with acc8 := 0#8, nsym := 0 } :), rfl, rfl⟩

/-- Packing a symbol changes OUT, the output index and the byte in progress only (R168). -/
theorem packSymbol_eq (sym : Byte) (s : State) :
    packSymbol sym s =
      { s with
        outMem := (packSymbol sym s).outMem
        out := (packSymbol sym s).out
        acc8 := (packSymbol sym s).acc8
        nsym := (packSymbol sym s).nsym } := by
  rcases packSymbol_cases sym s with ⟨_, he⟩ | ⟨_, he⟩ <;> simp only [he, emit]

/-- From `s` to `t` the traversal returns to the root, and nothing changes but OUT, the output index and the byte in
progress (R167). -/
def ReturnsToRoot (s t : State) : Prop :=
  t.pos = .body ∧ t.a = 1 ∧ t.steps = 0 ∧ t.cursor = s.cursor ∧ t.D = s.D ∧ t.TS = s.TS ∧
    t.word = s.word ∧ t.bitsLeft = s.bitsLeft ∧ t.wordOff = s.wordOff ∧ SameOutside s t ∧
    SameTreeFrom 0 s t ∧ SameLz s t ∧ SameDiff s t

theorem exec_huffLeaf_returnsToRoot {b : Byte} {s t : State} (h : exec (.huffLeaf b) s = .next t) :
    ReturnsToRoot s t := by
  obtain rfl : restart (packSymbol (symbolOf s.D b) s) = t := Host.Outcome.next.inj h
  rw [packSymbol_eq]
  exact ⟨rfl, rfl, rfl, rfl, rfl, rfl, rfl, rfl, rfl, .of_beyondElement rfl, .of_eq rfl rfl rfl, ⟨rfl, rfl⟩, rfl,
    rfl⟩

/-- Settles O37: the packed byte is `withSymbol_toNat`, written when it is full and kept when it is not. -/
theorem leafPacksItsSymbol : Obligations.LeafPacksItsSymbol := by
  intro b s _
  rcases exec_huffLeaf_cases b s with ⟨hfull, hexec⟩ | ⟨hmore, hexec⟩
  · exact ⟨_, _, hexec, withSymbol_toNat b s, fun _ => afterFullByte_writesByte b s, absurd hfull,
      exec_huffLeaf_returnsToRoot hexec⟩
  · exact ⟨_, _, hexec, withSymbol_toNat b s, fun hfull => absurd hfull hmore,
      fun _ => ⟨rfl, .of_eq rfl rfl rfl, rfl, rfl⟩, exec_huffLeaf_returnsToRoot hexec⟩

/-! ### The leaves of one byte (R162) -/

/-- The number of a list of digits of `D` bits, put below a number `v` that stands already. -/
def packOnto (D v : Nat) (bs : List Byte) : Nat :=
  bs.foldl (fun v b => v * 2 ^ D + b.toNat % 2 ^ D) v

theorem packedValue_eq_packOnto (D : Nat) (bs : List Byte) : packedValue D bs = packOnto D 0 bs := rfl

/-- One digit more makes a number of `D` bits more. -/
theorem digit_lt {D k v : Nat} (d : Nat) (h : v < 2 ^ k) : v * 2 ^ D + d % 2 ^ D < 2 ^ (k + D) :=
  calc v * 2 ^ D + d % 2 ^ D
    _ < v * 2 ^ D + 2 ^ D := Nat.add_lt_add_left (Nat.mod_lt _ (Nat.two_pow_pos D)) _
    _ = (v + 1) * 2 ^ D := (Nat.succ_mul v _).symm
    _ ≤ 2 ^ k * 2 ^ D := Nat.mul_le_mul_right _ h
    _ = 2 ^ (k + D) := (Nat.pow_add 2 k D).symm

/-- The symbols of a legal depth fill the 8 bits of a byte (R161, R162). -/
theorem depth_mul_symbolsPerByte {D : BitVec 4} (h : D = 1#4 ∨ D = 2#4 ∨ D = 4#4 ∨ D = 8#4) :
    D.toNat * symbolsPerByte D = 8 := by
  rcases h with rfl | rfl | rfl | rfl <;> rfl

/-- The symbols of the byte in progress take up its low bits, `D` each: none is shifted out. -/
def Packed (s : State) : Prop := s.acc8.toNat < 2 ^ (s.D.toNat * s.nsym)

/-- A symbol that still has its place in the byte in progress shifts no other out (R168). -/
theorem withSymbol_toNat_of_packed {s : State} (b : Byte) (hwhole : s.D.toNat * symbolsPerByte s.D = 8)
    (hroom : s.nsym + 1 ≤ symbolsPerByte s.D) (h : Packed s) :
    (withSymbol b s).toNat = s.acc8.toNat * 2 ^ s.D.toNat + b.toNat % 2 ^ s.D.toNat ∧
      (withSymbol b s).toNat < 2 ^ (s.D.toNat * (s.nsym + 1)) := by
  have hlt : s.acc8.toNat * 2 ^ s.D.toNat + b.toNat % 2 ^ s.D.toNat < 2 ^ (s.D.toNat * (s.nsym + 1)) :=
    digit_lt _ h
  have hbyte : 2 ^ (s.D.toNat * (s.nsym + 1)) ≤ 256 :=
    Nat.pow_le_pow_right (n := 2) (j := 8) (by decide) ((Nat.mul_le_mul_left _ hroom).trans_eq hwhole)
  rw [withSymbol_toNat, Nat.mod_eq_of_lt (hlt.trans_le hbyte)]
  exact ⟨rfl, hlt⟩

theorem execLeaves_cons {b : Byte} {s t : State} (bs : List Byte) (h : exec (.huffLeaf b) s = .next t) :
    execLeaves (b :: bs) s = execLeaves bs t := by
  rw [execLeaves, h]

/-- The leaves that the byte in progress still lacks write it, by induction on them: all but the last go below
the symbols before them, and the last fills the byte. -/
theorem execLeaves_writesByte {bs : List Byte} {s : State} (hwhole : s.D.toNat * symbolsPerByte s.D = 8)
    (hlen : s.nsym + bs.length = symbolsPerByte s.D) (hlack : bs ≠ []) (hpacked : Packed s) :
    ∃ t, execLeaves bs s = some t ∧ WritesByte (packOnto s.D.toNat s.acc8.toNat bs) s t := by
  induction bs generalizing s with
  | nil => exact absurd rfl hlack
  | cons b bs ih =>
    rw [List.length_cons] at hlen
    obtain ⟨hv, hlt⟩ := withSymbol_toNat_of_packed b hwhole (by omega) hpacked
    have hpack : packOnto s.D.toNat s.acc8.toNat (b :: bs) =
        packOnto s.D.toNat (withSymbol b s).toNat bs := by rw [hv]; rfl
    rw [hpack]
    rcases exec_huffLeaf_cases b s with ⟨hfull, hexec⟩ | ⟨hmore, hexec⟩ <;> rw [execLeaves_cons bs hexec]
    · obtain rfl : bs = [] := List.length_eq_zero_iff.mp (by omega)
      exact ⟨_, rfl, afterFullByte_writesByte b s⟩
    · have hrest : bs ≠ [] := fun hnil => hmore (by rw [← hlen, hnil]; rfl)
      have hleft : s.nsym + 1 + bs.length = symbolsPerByte s.D := by omega
      exact ih (s := afterSymbol b s) hwhole hleft hrest hlt

/-- Settles O38: an empty byte in progress lacks all its leaves. -/
theorem symbolsPackFirstOnTop : Obligations.SymbolsPackFirstOnTop := by
  intro s bs hD hacc hnsym hlen
  have hwhole := depth_mul_symbolsPerByte hD
  have hlack : bs ≠ [] := by
    rintro rfl
    rw [symbolsPerByte, ← hlen] at hwhole
    cases hwhole
  have hpacked : Packed s := by simp [Packed, hacc, hnsym]
  have hwrites := execLeaves_writesByte hwhole (by rw [hnsym, hlen, Nat.zero_add]; rfl) hlack hpacked
  rw [packedValue_eq_packOnto]
  rwa [hacc] at hwrites

end Sys2Proof.Machine
end

section
/-! The statements of file 44: what a run that fits writes (R191, R192), where a run cut by the end of the buffer
fails, and that the overrun is tested before the data are read (60_exceptions.md R227). -/

namespace Sys2Proof.Machine

/-! ### What a run can do -/

/-- What a verbatim run can do; `copyRun_cases` says what its data reads can do (R191). -/
theorem exec_rlCopy_cases (n : BitVec 7) (s : State) :
    (s.L.toNat < s.out + (n.toNat + 1) ∧
      exec (.rlCopy n) s = .next (raise .overrun s.cursor (advance 1 s))) ∨
    (s.out + (n.toNat + 1) ≤ s.L.toNat ∧ exec (.rlCopy n) s = .next (copyRun (n.toNat + 1) (advance 1 s))) := by
  by_cases h : s.L.toNat < s.out + (n.toNat + 1)
  · exact .inl ⟨h, congrArg _ (if_pos h)⟩
  · exact .inr ⟨Nat.not_lt.mp h, congrArg _ (if_neg h)⟩

/-- What a replicate run can do (R192). -/
theorem exec_rlFill_cases (n : BitVec 7) (s : State) :
    (s.L.toNat < s.out + (n.toNat + 3) ∧
      exec (.rlFill n) s = .next (raise .overrun s.cursor (advance 1 s))) ∨
    (s.out + (n.toNat + 3) ≤ s.L.toNat ∧ (advance 1 s).cursor.toNat + 1 ≤ s.bufSize.toNat ∧
      exec (.rlFill n) s =
        .next (emitRun (srcByte s (advance 1 s).cursor.toNat) (n.toNat + 3) (advance 2 s))) ∨
    (s.out + (n.toNat + 3) ≤ s.L.toNat ∧ s.bufSize.toNat < (advance 1 s).cursor.toNat + 1 ∧
      exec (.rlFill n) s = .next (raise .bounds (advance 1 s).cursor (advance 1 s))) := by
  by_cases h : s.L.toNat < s.out + (n.toNat + 3)
  · exact .inl ⟨h, congrArg _ (if_pos h)⟩
  · have hfits := Nat.not_lt.mp h
    rcases read8_cases (advance 1 s) with ⟨hin, hr⟩ | ⟨hout, hr⟩
    · refine .inr (.inl ⟨hfits, hin, ?_⟩)
      simp only [exec, execRlFill, fillLen, if_neg h, hr, advance_advance, srcByte_advance]
    · refine .inr (.inr ⟨hfits, hout, ?_⟩)
      simp only [exec, execRlFill, fillLen, if_neg h, hr]

/-! ### Runs that go on -/

/-- The work of a run of `n` stream bytes, the flag byte counted, that writes `count` bytes, the byte at index `i`
being `b i`: CURSOR and the output index move past them, and nothing else changes. -/
def WritesRun (n count : Nat) (b : Nat → Byte) (s t : State) : Prop :=
  t.out = s.out + count ∧ (∀ k < count, outRead t (s.out + k) = b k) ∧
    t.cursor.toNat = s.cursor.toNat + n ∧ t.pos = s.pos ∧ SameOutside s t ∧ SameOutExcept s.out count s t ∧
    SameTreeFrom 0 s t ∧ SameLz s t ∧ SameHuff s t ∧ SameDiff s t

/-- A change of OUT, the output index and CURSOR alone is a run's work when OUT reads as the run's bytes say. -/
theorem writesRun_of_outRead {n count : Nat} {b : Nat → Byte} {s t : State}
    (ht : t = { s with outMem := t.outMem, out := s.out + count, cursor := t.cursor })
    (hcursor : t.cursor.toNat = s.cursor.toNat + n)
    (hread : ∀ i, outRead t i = if s.out ≤ i ∧ i < s.out + count then b (i - s.out) else outRead s i) :
    WritesRun n count b s t := by
  have hbytes : ∀ k < count, outRead t (s.out + k) = b k := fun k hk => by
    rw [hread, if_pos (by omega), Nat.add_sub_cancel_left]
  have hrest : SameOutExcept s.out count s t := fun i hi => by rw [hread, if_neg (by omega)]
  rw [ht] at hcursor hbytes hrest ⊢
  exact ⟨rfl, hbytes, hcursor, rfl, .of_beyondElement rfl, hrest, .of_eq rfl rfl rfl, ⟨rfl, rfl⟩,
    ⟨rfl, rfl, rfl, rfl, rfl, rfl, rfl, rfl, rfl⟩, rfl, rfl⟩

/-- The data bytes of a verbatim run that lie in the buffer after its flag byte (R191). -/
theorem copyRun_writesRun {count : Nat} {s : State} (h : s.cursor.toNat + 1 + count ≤ s.bufSize.toNat) :
    WritesRun (1 + count) count (fun k => srcByte s (s.cursor.toNat + 1 + k)) s (copyRun count (advance 1 s)) := by
  have hflag : (advance 1 s).cursor.toNat = s.cursor.toNat + 1 := advance_cursor_toNat (by omega)
  have hin : (advance 1 s).cursor.toNat + count ≤ (advance 1 s).bufSize.toNat := hflag ▸ h
  have hrun := copyRun_eq count (advance 1 s) hin
  have hread := copyRun_outRead count (advance 1 s) hin
  refine writesRun_of_outRead (hrun.trans ?_) ?_ (hflag ▸ hread)
  · rw [hrun]; rfl
  · rw [hrun]
    exact (advance_cursor_toNat hin).trans (by omega)

/-- Settles O27: of the ways a verbatim run goes, the copy is the one left. -/
theorem verbatimRunCopies : Obligations.VerbatimRunCopies := by
  intro n s hfits hin
  rcases exec_rlCopy_cases n s with ⟨hover, _⟩ | ⟨_, hexec⟩
  · omega
  · obtain ⟨hout, hbytes, hcursor, hkept⟩ := copyRun_writesRun hin
    exact ⟨_, hexec, hout, fun k hk => hbytes k (Nat.lt_succ_of_le hk), hcursor.trans (by omega), hkept⟩

/-- The byte of a replicate run, written `count` times after its two bytes are read (R192). -/
theorem emitRun_writesRun (b : Byte) (count : Nat) {s : State} (h : s.cursor.toNat + 2 ≤ s.bufSize.toNat) :
    WritesRun 2 count (fun _ => b) s (emitRun b count (advance 2 s)) := by
  have hrun := emitRun_eq b count (advance 2 s)
  refine writesRun_of_outRead (hrun.trans ?_) ?_ (emitRun_outRead b count (advance 2 s))
  · rw [hrun]; rfl
  · rw [hrun]
    exact advance_cursor_toNat h

/-- Settles O29: of the ways a replicate run goes, the fill is the one left. -/
theorem replicateRunFills : Obligations.ReplicateRunFills := by
  intro n s hfits hin
  have hflag : (advance 1 s).cursor.toNat = s.cursor.toNat + 1 := advance_cursor_toNat (by omega)
  rcases exec_rlFill_cases n s with ⟨hover, _⟩ | ⟨_, _, hexec⟩ | ⟨_, hcut, _⟩
  · omega
  · rw [hflag] at hexec
    exact ⟨_, hexec, emitRun_writesRun _ _ hin⟩
  · omega

/-! ### Runs that fail -/

/-- The record of an error raised after `n` bytes are read (R226, R229). -/
theorem raise_advance (e : JobError) (off : Word) (n : Nat) (s : State) :
    FailedJob 0 e.code off (s.cursor + BitVec.ofNat 32 n) s.out s (raise e off (advance n s)) := by
  rw [← advance_cursor_eq]
  exact raise_failedJob_of_beyondBlock e off rfl rfl rfl rfl (.of_eq rfl rfl rfl)

/-- A verbatim run that the end of the buffer cuts after `m` of its data bytes fails there, those bytes counted
(R191, R229). -/
theorem copyRun_failedJob {count m : Nat} {s : State} (hend : s.cursor.toNat + 1 + m = s.bufSize.toNat)
    (hm : m < count) :
    FailedJob 0 1#4 s.bufSize s.bufSize (s.out + m) s (copyRun count (advance 1 s)) := by
  have hflag : (advance 1 s).cursor.toNat = s.cursor.toNat + 1 := advance_cursor_toNat (by omega)
  have hdata : (advance 1 s).cursor.toNat + m = (advance 1 s).bufSize.toNat := hflag ▸ hend
  obtain ⟨hout, _, hcursor, _⟩ := copyRun_writesRun hend.le
  have hcut : (copyRun m (advance 1 s)).cursor = s.bufSize := BitVec.eq_of_toNat_eq (by omega)
  rw [copyRun_truncated count m (advance 1 s) hdata hm, ← hcut, ← hout, copyRun_eq m (advance 1 s) hdata.le]
  exact raise_failedJob_of_beyondBlock .bounds _ rfl rfl rfl rfl (.of_eq rfl rfl rfl)

/-- Settles O30: the overrun is the first test of either run. -/
theorem runOverrunFails : Obligations.RunOverrunFails := by
  refine fun n s => ⟨fun hover => ?_, fun hover => ?_⟩
  · rcases exec_rlCopy_cases n s with ⟨_, hexec⟩ | ⟨hfits, _⟩
    · exact ⟨_, hexec, raise_advance .overrun s.cursor 1 s⟩
    · omega
  · rcases exec_rlFill_cases n s with ⟨_, hexec⟩ | ⟨hfits, _⟩ | ⟨hfits, _⟩
    · exact ⟨_, hexec, raise_advance .overrun s.cursor 1 s⟩
    · omega
    · omega

/-- Settles O28: the end of the buffer cuts a verbatim run between its data bytes, and a replicate run before its
one. -/
theorem truncatedRunFails : Obligations.TruncatedRunFails := by
  refine fun n s => ⟨fun m hfits hend hm => ?_, fun hfits hend => ?_⟩
  · rcases exec_rlCopy_cases n s with ⟨hover, _⟩ | ⟨_, hexec⟩
    · omega
    · exact ⟨_, hexec, copyRun_failedJob hend (Nat.lt_succ_of_le hm)⟩
  · have hflag : (advance 1 s).cursor.toNat = s.cursor.toNat + 1 := advance_cursor_toNat hend.le
    rcases exec_rlFill_cases n s with ⟨hover, _⟩ | ⟨_, hin, _⟩ | ⟨_, _, hexec⟩
    · omega
    · omega
    · exact ⟨_, hexec, advance_cursor_eq 1 s ▸ raise_advance .bounds _ 1 s⟩

end Sys2Proof.Machine
end

section
/-! The statements of file 45: a mode that is none (R200), and what a delta of either width writes (R201, R202). -/

namespace Sys2Proof

/-- A word of the Diff type whose mode nibble is neither 1 nor 2 is no header (R87, R200). -/
theorem decodeHeader_badMode {W : Word} (htype : Machine.typeMatches .diff W = true) (h1 : W.toNat % 16 ≠ 1)
    (h2 : W.toNat % 16 ≠ 2) : decodeHeader .diff W = .error .badMode := by
  have hdiff : W.extractLsb' 4 4 = Config.diffType := (field_eq_iff W _).mpr (beq_iff_eq.mp htype)
  have hmode (m : BitVec 4) (h : W.toNat % 16 ≠ m.toNat) : W.extractLsb' 0 4 ≠ m := by
    rwa [Ne, field_eq_iff, pow_zero, Nat.div_one]
  rw [decodeHeader, if_pos hdiff, if_neg (hmode 1#4 h1), if_neg (hmode 2#4 h2)]

/-! ### The bytes of a 16-bit sum (R202) -/

theorem lowByte_toNat (v : BitVec 16) : (v.extractLsb' 0 8).toNat = v.toNat % 256 := by
  rw [field_toNat]
  omega

theorem highByte_toNat (v : BitVec 16) : (v.extractLsb' 8 8).toNat = v.toNat / 256 := by
  have hlt := v.isLt
  rw [field_toNat]
  omega

end Sys2Proof

namespace Sys2Proof.Machine

/-! ### A header that is rejected (R114, R200) -/

/-- A header that lies in the buffer and is rejected ends the job at its offset, its 4 bytes read (R223). -/
theorem step_header_rejected {s s1 : State} {rest : List Turn} {c : Codec} {W : Word} {r : Reject} {e : JobError}
    (hturn : BlockTurn s rest) (hrun : s.phase = .run) (hpos : s.pos = .header)
    (hc : Codec.ofBits s.jcodec = some c) (hread : read32 s = .ok W s1) (hrej : decodeHeader c W = .error r)
    (hrec : rejectRecord s r = .failed e s.cursor 4) :
    ∃ t, step s = .next t ∧ FailedJob 0 e.code s.cursor (s.cursor + 4#32) s.out (takeTurn rest s) t := by
  obtain ⟨hslot, hdone⟩ := atHeader_reads hpos c
  have hdecode : decode (slotOf c s) s.jorder (elementBytes s (slotOf c s)) = .error r := by
    rw [hslot]
    exact (decode_header_of_read32 c hread).trans hrej
  have hf : fetch s = .failed e s.cursor 4 := (fetch_of_reject hc (by rw [hslot]; nofun) hdecode).trans hrec
  have hfail := step_fetch_failed hturn hrun (by rw [hpos]; nofun) hdone hf
  rwa [advance_cursor_eq] at hfail

/-- Settles O15: the decoder rejects the mode, and the rejection is MODE at the header. -/
theorem diffModeFails : Obligations.DiffModeFails := by
  intro s s1 rest W hturn hrun hpos hc hread htype h1 h2
  exact step_header_rejected hturn hrun hpos hc hread (decodeHeader_badMode htype h1 h2) rfl

/-! ### What a delta leaves unchanged -/

/-- The state after a delta of `n` bytes is read and the accumulator holds the sum `v`, before the sum is written
(R201, R202). -/
def withSum (n : Nat) (v : BitVec 16) (s : State) : State := { advance n s with acc := v }

/-- From `s` to `t` CURSOR moves on by `n`, and nothing but OUT, the output index and the accumulator changes
besides. -/
def DeltaFrame (n : Nat) (s t : State) : Prop :=
  t.cursor = s.cursor + BitVec.ofNat 32 n ∧ t.M = s.M ∧ t.pos = s.pos ∧ SameOutside s t ∧ SameTreeFrom 0 s t ∧
    SameLz s t ∧ SameHuff s t

theorem DeltaFrame.withSum (n : Nat) (v : BitVec 16) (s : State) : DeltaFrame n s (withSum n v s) :=
  ⟨advance_cursor_eq n s, rfl, rfl, .of_beyondElement rfl, .of_eq rfl rfl rfl, ⟨rfl, rfl⟩,
    ⟨rfl, rfl, rfl, rfl, rfl, rfl, rfl, rfl, rfl⟩⟩

theorem DeltaFrame.emit {n : Nat} {s t : State} (h : DeltaFrame n s t) (b : Byte) : DeltaFrame n s (emit b t) := h

/-- Two bytes written at the output index leave every other byte of OUT (R66). -/
theorem SameOutExcept.emit_emit (a b : Byte) (s : State) :
    SameOutExcept s.out 2 s (Machine.emit b (Machine.emit a s)) := fun i hi => by
  have hsecond : i ≠ (Machine.emit a s).out := by rw [emit_out]; omega
  rw [outRead_emit_ne b hsecond, outRead_emit_ne a (by omega)]

/-! ### Deltas of 8 bits (R201) -/

/-- The byte sum is the new accumulator, and is written. -/
theorem exec_diff8Delta (d : Byte) (s : State) :
    exec (.diff8Delta d) s =
      .next (emit (s.acc.extractLsb' 0 8 + d) (withSum 1 ((s.acc.extractLsb' 0 8 + d).setWidth 16) s)) := rfl

/-- Settles O39: the byte is the sum mod 2^8, and the accumulator's low byte is that byte. -/
theorem delta8WritesSum : Obligations.Delta8WritesSum := by
  intro d s
  have hsum : (s.acc.extractLsb' 0 8 + d).toNat = (s.acc.toNat % 256 + d.toNat) % 256 := by
    rw [BitVec.toNat_add, lowByte_toNat]
  have hexec := exec_diff8Delta d s
  generalize s.acc.extractLsb' 0 8 + d = v at hsum hexec
  have hlow : (v.setWidth 16).toNat % 256 = v.toNat := by
    rw [BitVec.toNat_setWidth_of_le (by decide), Nat.mod_eq_of_lt v.isLt]
  obtain ⟨hcursor, hM, hpos, houtside, htree, hlz, hhuff⟩ := (DeltaFrame.withSum 1 (v.setWidth 16) s).emit v
  exact ⟨_, hexec, (congrArg BitVec.toNat (outRead_emit_self v (withSum 1 _ s))).trans hsum, hlow.trans hsum, rfl,
    hcursor, hM, hpos, houtside, (SameOutExcept.emit v (withSum 1 _ s) :), htree, hlz, hhuff⟩

/-! ### Deltas of 16 bits (R202) -/

/-- The state after a 16-bit delta's sum `v` and its high byte. -/
def afterHighByte (v : BitVec 16) (s : State) : State := emit (v.extractLsb' 8 8) (withSum 2 v s)

/-- What a 16-bit delta can do: the low byte is written when the output goes on after the high one. -/
theorem exec_diff16Delta_cases (d : BitVec 16) (s : State) :
    (s.out + 1 < s.L.toNat ∧
      exec (.diff16Delta d) s =
        .next (emit ((s.acc + d).extractLsb' 0 8) (afterHighByte (s.acc + d) s))) ∨
    (s.L.toNat ≤ s.out + 1 ∧ exec (.diff16Delta d) s = .next (afterHighByte (s.acc + d) s)) := by
  by_cases h : s.out + 1 < s.L.toNat
  · exact .inl ⟨h, congrArg _ (if_pos h)⟩
  · exact .inr ⟨Nat.not_lt.mp h, congrArg _ (if_neg h)⟩

theorem afterHighByte_outRead (v : BitVec 16) (s : State) :
    (outRead (afterHighByte v s) s.out).toNat = v.toNat / 256 :=
  (congrArg BitVec.toNat (outRead_emit_self _ (withSum 2 v s))).trans (highByte_toNat v)

/-- Settles O40: of the two ways a 16-bit delta goes, each meets one of the clauses about the length. -/
theorem delta16WritesSum : Obligations.Delta16WritesSum := by
  intro d s
  have hsum : (s.acc + d).toNat = (s.acc.toNat + d.toNat) % 65536 := BitVec.toNat_add ..
  have hcases := exec_diff16Delta_cases d s
  generalize s.acc + d = v at hsum hcases
  have hframe : DeltaFrame 2 s (afterHighByte v s) := (DeltaFrame.withSum 2 v s).emit _
  have hhigh := afterHighByte_outRead v s
  rcases hcases with ⟨hmore, hexec⟩ | ⟨hend, hexec⟩
  · have hkept : outRead (emit (v.extractLsb' 0 8) (afterHighByte v s)) s.out = outRead (afterHighByte v s) s.out :=
      outRead_emit_ne _ (Nat.ne_of_lt (Nat.lt_succ_self s.out))
    have hlow : (outRead (emit (v.extractLsb' 0 8) (afterHighByte v s)) (s.out + 1)).toNat = v.toNat % 256 :=
      (congrArg BitVec.toNat (outRead_emit_self _ (afterHighByte v s))).trans (lowByte_toNat v)
    exact ⟨_, hexec, hsum, hkept ▸ hhigh,
      fun _ => ⟨hlow, rfl, (SameOutExcept.emit_emit _ _ (withSum 2 v s) :)⟩, fun h => absurd hmore h.not_gt,
      hframe.emit _⟩
  · exact ⟨_, hexec, hsum, hhigh, fun h => absurd h hend.not_gt,
      fun _ => ⟨rfl, (SameOutExcept.emit _ (withSum 2 v s) :)⟩, hframe⟩

end Sys2Proof.Machine
end

section
/-! Reset, and the instances of a system (70_reset_and_hazards.md R250 to R252, R259). -/

namespace Sys2Proof.Machine

/-! ### What a reset state holds (R250) -/

/-- Reset leaves the state as it is, but for the draws of its memories. -/
def FreshFromReset (s : State) : Prop :=
  s = { resetNow s with srcDraw := s.srcDraw, outDraw := s.outDraw, treeDraw := s.treeDraw }

theorem resetNow_fresh (s : State) : FreshFromReset (resetNow s) := rfl

theorem resetWith_fresh (maxSrc : Word) (outCap : BitVec 24) (k : Nat) :
    FreshFromReset { State.resetWith maxSrc outCap with inst := k } := rfl

theorem FreshFromReset.inv {s : State} (h : FreshFromReset s) : Inv s := by
  rw [h]
  exact { resetNow_inv s with job := nofun }

theorem FreshFromReset.idle {s : State} (h : FreshFromReset s) : s.phase = .idle := congrArg State.phase h

theorem FreshFromReset.irq_low {s : State} (h : FreshFromReset s) : s.irq = false := congrArg State.irq h

/-- CTRL reads its fields, all 0 after reset (10_state.md R22, R40), and so does STATUS (R23). -/
theorem ctrlWord_reset : ctrlWord State.reset = 0#32 := by decide

theorem statusWord_reset : statusWord State.reset = 0#32 := by decide

/-- Every register but the two parameters reads 0. -/
theorem FreshFromReset.regValue_eq_zero {s : State} (h : FreshFromReset s) {r : Reg} (hcap : r ≠ .outCapR)
    (hmax : r ≠ .maxSrcR) : regValue s r = 0#32 := by
  rw [h]
  cases r with
  | outCapR => exact absurd rfl hcap
  | maxSrcR => exact absurd rfl hmax
  | ctrl => exact ctrlWord_reset
  | status => exact statusWord_reset
  | _ => rfl

/-! A memory without a known byte reads as its draw. -/

theorem FreshFromReset.srcByte_eq {s : State} (h : FreshFromReset s) (i : Nat) :
    srcByte s i = Config.srcByte s.inst s.srcDraw i := congrArg (srcByte · i) h

theorem FreshFromReset.outRead_eq {s : State} (h : FreshFromReset s) (i : Nat) :
    outRead s i = Config.outByte s.inst s.outDraw i := congrArg (outRead · i) h

theorem FreshFromReset.treeByte_eq {s : State} (h : FreshFromReset s) (i : Nat) :
    treeByte s i = Config.treeByte s.inst s.treeDraw i := congrArg (treeByte · i) h

/-! ### The statements about reset -/

/-- Settles O50: the state is fresh from reset, and its parameters, draws and number are those written. -/
theorem resetState : Obligations.ResetState := by
  rintro maxSrc outCap k s rfl
  have h := resetWith_fresh maxSrc outCap k
  exact ⟨h.inv, h.idle, h.irq_low, fun _ => h.regValue_eq_zero, rfl, rfl, h.srcByte_eq, h.outRead_eq,
    h.treeByte_eq⟩

/-- Settles O51: the host's turn leads to `resetNow`, which is fresh from reset, keeps the parameters and draws
each memory anew. -/
theorem resetAbandonsJob : Obligations.ResetAbandonsJob := by
  intro s rest hturn
  have h := resetNow_fresh (takeTurn rest s)
  exact ⟨_, step_hostTurn hturn, h.idle, h.irq_low, fun _ => h.regValue_eq_zero, rfl, rfl, h.srcByte_eq,
    h.outRead_eq, h.treeByte_eq, rfl, rfl⟩

/-! ### An instance keeps its number (log entry 15) -/

theorem startJob_inst (codec : BitVec 3) (e ie : Bool) (s : State) :
    (startJob codec e ie s).inst = s.inst := by
  rcases startJob_cases codec e ie s with ⟨_, he⟩ | ⟨_, he⟩ <;> rw [he]
  exact acceptStart_inst s codec e ie

theorem writeReg_inst (r : Reg) (v : Word) (s : State) : (writeReg r v s).inst = s.inst := by
  obtain ⟨_, _, _, _, _, _, _, _, _, _, h⟩ := writeReg_eq r v s
  rw [h]

theorem readReg_inst (s : State) (r : Reg) : (readReg s r).inst = s.inst := by rw [readReg_eq]

theorem hostRegRead_inst {off bits : Nat} {s t : State} (h : hostRegRead off bits s = .next t) :
    t.inst = s.inst := by
  by_cases hl : regAccessLegal off bits = true
  · obtain ⟨rfl, hoff⟩ := (regAccessLegal_iff off bits).mp hl
    cases hr : Reg.ofAddr off with
    | none => cases (hostRegRead_reserved s hoff hr).symm.trans h; rfl
    | some r => cases (hostRegRead_register s hoff hr).symm.trans h; exact readReg_inst s r
  · simp [hostRegRead, hl] at h

theorem hostRegWrite_inst {off bits : Nat} {v : Word} {s t : State}
    (h : hostRegWrite off bits v s = .next t) : t.inst = s.inst := by
  by_cases hl : regAccessLegal off bits = true
  · obtain ⟨rfl, hoff⟩ := (regAccessLegal_iff off bits).mp hl
    rcases hostRegWrite_cases v s hoff with ⟨_, hw⟩ | ⟨codec, e, ie, _, _, hw⟩ | ⟨r, _, _, hw⟩ <;>
      cases hw.symm.trans h
    · rfl
    · exact startJob_inst codec e ie s
    · split
      · rfl
      · exact writeReg_inst r v s
  · simp [hostRegWrite, hl] at h

theorem hostStep_inst {op : HostOp} {s t : State} (h : hostStep op s = .next t) : t.inst = s.inst := by
  cases op with
  | regRead off bits => exact hostRegRead_inst h
  | regWrite off bits v => exact hostRegWrite_inst h
  | srcRead i | outRead i =>
    simp only [hostStep] at h
    split_ifs at h <;> cases h <;> rfl
  | srcWrite i b =>
    simp only [hostStep] at h
    split_ifs at h
    cases h
    rfl
  | reset => cases h; rfl

theorem step_inst {s t : State} (h : step s = .next t) : t.inst = s.inst := by
  rcases step_cases s with ⟨rest, _, he⟩ | ⟨op, rest, _, he⟩
  · exact (congrArg State.inst (blockStep_beyondBlock (he.symm.trans h)) :)
  · exact (hostStep_inst (he.symm.trans h) :)

/-! ### A step of a system (R259) -/

/-- What a step of one instance can be: nothing where there is no such instance, else the step of that instance,
put in its place. -/
theorem stepInstance_cases {k : Nat} {sys sys' : System} (h : stepInstance k sys = .next sys') :
    (sys[k]? = none ∧ sys' = sys) ∨
    (∃ s t, sys[k]? = some s ∧ step s = .next t ∧ sys' = sys.set k t) := by
  unfold stepInstance at h
  cases hk : sys[k]? with
  | none => rw [hk] at h; cases h; exact .inl ⟨rfl, rfl⟩
  | some s =>
    simp only [hk] at h
    cases hs : step s with
    | next t => rw [hs] at h; cases h; exact .inr ⟨s, t, rfl, hs, rfl⟩
    | fault r => rw [hs] at h; cases h
    | refused r => rw [hs] at h; cases h

/-- An instance replaced by one of the same number leaves every number of the system. -/
theorem map_inst_set {sys : System} {k : Nat} {s t : State} (hk : sys[k]? = some s) (hi : t.inst = s.inst) :
    (sys.set k t).map State.inst = sys.map State.inst := by
  obtain ⟨hlt, rfl⟩ := List.getElem?_eq_some_iff.mp hk
  rw [List.map_set, hi, ← List.map_set, List.set_getElem_self]

/-- Settles O60: of the two things a step of a system can be (`stepInstance_cases`), one changes nothing, and the
other sets the place `k` alone, to a state of the same number (`step_inst`). -/
theorem instancesShareNothing : Obligations.InstancesShareNothing := by
  intro k sys sys' h
  rcases stepInstance_cases h with ⟨hnone, rfl⟩ | ⟨s, t, hk, hstep, rfl⟩
  · exact ⟨rfl, rfl, fun _ _ => rfl, fun s hs => nomatch hnone.symm.trans hs⟩
  · refine ⟨List.length_set, map_inst_set hk (step_inst hstep), fun j hj => List.getElem?_set_ne hj.symm, ?_⟩
    intro u hu
    cases hk.symm.trans hu
    obtain ⟨hlt, _⟩ := List.getElem?_eq_some_iff.mp hk
    exact ⟨t, hstep, List.getElem?_set_self hlt⟩

end Sys2Proof.Machine
end
